-- ==== Sys2Proof/Word.lean ====
section
/-! DEFINITION. The word types and the number readings of 00_scope.md R8 and R9.

Bit patterns (register contents, buffer bytes, command words) are bit vectors. Numbers the spec computes with
(field values, positions, lengths) are `Int` or `Nat`, as R8 says: "Integers in pseudocode are mathematical integers". -/

namespace Sys2Proof

/-- A byte, 0..255 (R8). -/
abbrev Byte := BitVec 8

/-- A 16-bit register or operand. -/
abbrev Half := BitVec 16

/-- A 32-bit command word (30_encoding.md R52). -/
abbrev Word := BitVec 32

/-- `zext_N(v)` of R9: the pattern read as unsigned. -/
abbrev zext {n : Nat} (v : BitVec n) : Nat := v.toNat

/-- `sext_N(v)` of R9: the pattern read as two's complement. -/
abbrev sext {n : Nat} (v : BitVec n) : Int := v.toInt

/-- `wrap_N(x)` of R9: `x mod 2^N`, as the N-bit pattern. -/
abbrev wrap (n : Nat) (x : Int) : BitVec n := BitVec.ofInt n x

/-- The bit slice `v[hi:lo]` of R8, as a number of width `hi - lo + 1`. -/
def bits (v hi lo : Nat) : Nat := (v >>> lo) % 2 ^ (hi - lo + 1)

end Sys2Proof
end

