-- ==== Sys2Proof/Syntax.lean ====
section
/-! DEFINITION. The 36 commands of 30_encoding.md R55, one constructor per row of spec/opcode_table.json.

An operand has exactly the width its format gives it (R53), so every term of `Instr` has an encoding. Whether an operand
names a slot, a field or a byte is the command's own check, and its failure is a status, not an ill-formed command (R58). -/

namespace Sys2Proof

/-- A command. The comment names the format and the operands as R55 gives them. -/
inductive Instr
  | nop                                   -- N
  | srst                                  -- N
  | d2w (a : Byte)                        -- A: display value
  | w2d (a : Byte)                        -- A: wire value
  | nibx (a : Byte)                       -- A: logical byte
  | nibc (a v : Byte)                     -- AB8: low-nibble byte, high-nibble byte
  | setf (a f v : Byte)                   -- AFV: slot, field id, value
  | getf (a f : Byte)                     -- AF: slot, field id
  | lddef (a : Byte)                      -- A: slot
  | nameclr (a : Byte)                    -- A: slot
  | nameadd (a v : Byte)                  -- AB8: slot, byte
  | getname (a : Byte) (b : Half)         -- AB: slot, index
  | getnlen (a : Byte)                    -- A: slot
  | setb (a v : Byte)                     -- AB8: logical offset, byte
  | getb (a : Byte)                       -- A: logical offset
  | putin (a : Byte)                      -- A: byte
  | pokein (a : Byte) (b : Half)          -- AB: byte, index
  | trimin (b : Half)                     -- B: new length
  | clrin                                 -- N
  | getin (b : Half)                      -- B: index
  | getout (b : Half)                     -- B: index
  | xfer                                  -- N
  | packName (a : Byte)                   -- A: slot
  | packEnv (a : Byte) (k : Half)         -- AK: slot, instance
  | packLfo (a : Byte) (k : Half)         -- AK: slot, instance
  | packOsc (a : Byte) (k : Half)         -- AK: slot, instance
  | packMisc (a : Byte)                   -- A: slot
  | packPatch (a : Byte)                  -- A: slot
  | unpackName (a : Byte)                 -- A: slot
  | unpackEnv (a : Byte) (k : Half)       -- AK: slot, instance
  | unpackLfo (a : Byte) (k : Half)       -- AK: slot, instance
  | unpackOsc (a : Byte) (k : Half)       -- AK: slot, instance
  | unpackMisc (a : Byte)                 -- A: slot
  | unpackPatch (a : Byte)                -- A: slot
  | encode (a : Byte) (b : Half)          -- AB: channel, patch count
  | decode                                -- N
  deriving DecidableEq, Repr

end Sys2Proof
end

