-- ==== Sys2Proof/Decode.lean ====
section
/-! DEFINITION. The command word of 30_encoding.md R52 to R57 and R69: the decoder, total on every 32-bit word and
rejecting by name, and after it the encoder. -/

namespace Sys2Proof

/-! ## Fields and formats -/

/-- `OPC`, bits 31:24 (R52). -/
def opcOf (w : Word) : Byte := w.extractLsb' 24 8
/-- `A`, bits 23:16. -/
def aOf (w : Word) : Byte := w.extractLsb' 16 8
/-- `B`, bits 15:0. -/
def bOf (w : Word) : Half := w.extractLsb' 0 16
/-- `F`, bits 15:8. -/
def fOf (w : Word) : Byte := w.extractLsb' 8 8
/-- `V`, bits 7:0. -/
def vOf (w : Word) : Byte := w.extractLsb' 0 8

/-- The operand formats of R53. -/
inductive Format | n | a | b | ab8 | ab | ak | af | afv
  deriving DecidableEq, Repr

/-- "mask of fixed bits" of a format (R53): the opcode and the reserved fields. -/
def Format.mask : Format → Word
  | .n => 0xFFFFFFFF
  | .a => 0xFF00FFFF
  | .b => 0xFFFF0000
  | .ab8 => 0xFF00FF00
  | .ab => 0xFF000000
  | .ak => 0xFF000000
  | .af => 0xFF0000FF
  | .afv => 0xFF000000

/-- The bits of the reserved fields, which must be zero (R57). -/
def Format.reserved (f : Format) : Word := f.mask &&& 0x00FFFFFF

/-- Why a word is no command. -/
inductive Illegal
  /-- an unassigned opcode (R56): `ILLEGAL_CMD` sub 0. -/
  | unassigned (opc : Byte)
  /-- an assigned opcode with a nonzero reserved field (R57): `ILLEGAL_CMD` sub 1. -/
  | reservedField (opc : Byte)
  deriving DecidableEq, Repr

/-- The format of an assigned opcode (R55); none for an unassigned one (R56). -/
def formatOf (opc : Byte) : Option Format :=
  match opc.toNat with
  | 0x00 | 0x01 | 0x2C | 0x2F | 0x41 => some .n
  | 0x10 | 0x11 | 0x12 | 0x22 | 0x23 | 0x26 | 0x28 | 0x29 => some .a
  | 0x30 | 0x34 | 0x35 | 0x38 | 0x3C | 0x3D => some .a
  | 0x2B | 0x2D | 0x2E => some .b
  | 0x13 | 0x24 | 0x27 => some .ab8
  | 0x25 | 0x2A | 0x40 => some .ab
  | 0x31 | 0x32 | 0x33 | 0x39 | 0x3A | 0x3B => some .ak
  | 0x21 => some .af
  | 0x20 => some .afv
  | _ => none

/-- The command of an assigned opcode with its operands cut from the word (R55); none for an unassigned opcode. -/
def commandOf (w : Word) : Option Instr :=
  match (opcOf w).toNat with
  | 0x00 => some .nop
  | 0x01 => some .srst
  | 0x10 => some (.d2w (aOf w))
  | 0x11 => some (.w2d (aOf w))
  | 0x12 => some (.nibx (aOf w))
  | 0x13 => some (.nibc (aOf w) (vOf w))
  | 0x20 => some (.setf (aOf w) (fOf w) (vOf w))
  | 0x21 => some (.getf (aOf w) (fOf w))
  | 0x22 => some (.lddef (aOf w))
  | 0x23 => some (.nameclr (aOf w))
  | 0x24 => some (.nameadd (aOf w) (vOf w))
  | 0x25 => some (.getname (aOf w) (bOf w))
  | 0x26 => some (.getnlen (aOf w))
  | 0x27 => some (.setb (aOf w) (vOf w))
  | 0x28 => some (.getb (aOf w))
  | 0x29 => some (.putin (aOf w))
  | 0x2A => some (.pokein (aOf w) (bOf w))
  | 0x2B => some (.trimin (bOf w))
  | 0x2C => some .clrin
  | 0x2D => some (.getin (bOf w))
  | 0x2E => some (.getout (bOf w))
  | 0x2F => some .xfer
  | 0x30 => some (.packName (aOf w))
  | 0x31 => some (.packEnv (aOf w) (bOf w))
  | 0x32 => some (.packLfo (aOf w) (bOf w))
  | 0x33 => some (.packOsc (aOf w) (bOf w))
  | 0x34 => some (.packMisc (aOf w))
  | 0x35 => some (.packPatch (aOf w))
  | 0x38 => some (.unpackName (aOf w))
  | 0x39 => some (.unpackEnv (aOf w) (bOf w))
  | 0x3A => some (.unpackLfo (aOf w) (bOf w))
  | 0x3B => some (.unpackOsc (aOf w) (bOf w))
  | 0x3C => some (.unpackMisc (aOf w))
  | 0x3D => some (.unpackPatch (aOf w))
  | 0x40 => some (.encode (aOf w) (bOf w))
  | 0x41 => some .decode
  | _ => none

/-- Decode a command word, in the check order of R58: first the opcode, then the reserved fields. -/
def decode (w : Word) : Except Illegal Instr :=
  match formatOf (opcOf w), commandOf w with
  | some fmt, some i =>
    if w &&& fmt.reserved = 0 then .ok i else .error (.reservedField (opcOf w))
  | _, _ => .error (.unassigned (opcOf w))

/-! ## Encoder (R69) -/

/-- Format N: the opcode alone. -/
def wordN (opc : Byte) : Word := opc ++ (0 : BitVec 24)
/-- Format A. -/
def wordA (opc a : Byte) : Word := opc ++ a ++ (0 : Half)
/-- Format B. -/
def wordB (opc : Byte) (b : Half) : Word := opc ++ (0 : Byte) ++ b
/-- Format AB8. -/
def wordAB8 (opc a v : Byte) : Word := opc ++ a ++ (0 : Byte) ++ v
/-- Formats AB and AK. -/
def wordAB (opc a : Byte) (b : Half) : Word := opc ++ a ++ b
/-- Format AF. -/
def wordAF (opc a f : Byte) : Word := opc ++ a ++ f ++ (0 : Byte)
/-- Format AFV. -/
def wordAFV (opc a f v : Byte) : Word := opc ++ a ++ f ++ v

/-- The word of a command: its opcode and format of R55, assembled as R69 says. -/
def encode : Instr → Word
  | .nop => wordN 0x00
  | .srst => wordN 0x01
  | .d2w a => wordA 0x10 a
  | .w2d a => wordA 0x11 a
  | .nibx a => wordA 0x12 a
  | .nibc a v => wordAB8 0x13 a v
  | .setf a f v => wordAFV 0x20 a f v
  | .getf a f => wordAF 0x21 a f
  | .lddef a => wordA 0x22 a
  | .nameclr a => wordA 0x23 a
  | .nameadd a v => wordAB8 0x24 a v
  | .getname a b => wordAB 0x25 a b
  | .getnlen a => wordA 0x26 a
  | .setb a v => wordAB8 0x27 a v
  | .getb a => wordA 0x28 a
  | .putin a => wordA 0x29 a
  | .pokein a b => wordAB 0x2A a b
  | .trimin b => wordB 0x2B b
  | .clrin => wordN 0x2C
  | .getin b => wordB 0x2D b
  | .getout b => wordB 0x2E b
  | .xfer => wordN 0x2F
  | .packName a => wordA 0x30 a
  | .packEnv a k => wordAB 0x31 a k
  | .packLfo a k => wordAB 0x32 a k
  | .packOsc a k => wordAB 0x33 a k
  | .packMisc a => wordA 0x34 a
  | .packPatch a => wordA 0x35 a
  | .unpackName a => wordA 0x38 a
  | .unpackEnv a k => wordAB 0x39 a k
  | .unpackLfo a k => wordAB 0x3A a k
  | .unpackOsc a k => wordAB 0x3B a k
  | .unpackMisc a => wordA 0x3C a
  | .unpackPatch a => wordA 0x3D a
  | .encode a b => wordAB 0x40 a b
  | .decode => wordN 0x41

/-- The format of a command (R55). -/
def Instr.format : Instr → Format
  | .nop | .srst | .clrin | .xfer | .decode => .n
  | .d2w _ | .w2d _ | .nibx _ | .lddef _ | .nameclr _ | .getnlen _ | .getb _ | .putin _ => .a
  | .packName _ | .packMisc _ | .packPatch _ | .unpackName _ | .unpackMisc _ | .unpackPatch _ => .a
  | .trimin _ | .getin _ | .getout _ => .b
  | .nibc _ _ | .nameadd _ _ | .setb _ _ => .ab8
  | .getname _ _ | .pokein _ _ | .encode _ _ => .ab
  | .packEnv _ _ | .packLfo _ _ | .packOsc _ _ | .unpackEnv _ _ | .unpackLfo _ _ | .unpackOsc _ _ => .ak
  | .getf _ _ => .af
  | .setf _ _ _ => .afv

/-- The opcode of a command (R55). -/
def Instr.opcode : Instr → Byte
  | .nop => 0x00 | .srst => 0x01
  | .d2w _ => 0x10 | .w2d _ => 0x11 | .nibx _ => 0x12 | .nibc _ _ => 0x13
  | .setf _ _ _ => 0x20 | .getf _ _ => 0x21 | .lddef _ => 0x22 | .nameclr _ => 0x23
  | .nameadd _ _ => 0x24 | .getname _ _ => 0x25 | .getnlen _ => 0x26 | .setb _ _ => 0x27
  | .getb _ => 0x28 | .putin _ => 0x29 | .pokein _ _ => 0x2A | .trimin _ => 0x2B
  | .clrin => 0x2C | .getin _ => 0x2D | .getout _ => 0x2E | .xfer => 0x2F
  | .packName _ => 0x30 | .packEnv _ _ => 0x31 | .packLfo _ _ => 0x32 | .packOsc _ _ => 0x33
  | .packMisc _ => 0x34 | .packPatch _ => 0x35
  | .unpackName _ => 0x38 | .unpackEnv _ _ => 0x39 | .unpackLfo _ _ => 0x3A | .unpackOsc _ _ => 0x3B
  | .unpackMisc _ => 0x3C | .unpackPatch _ => 0x3D
  | .encode _ _ => 0x40 | .decode => 0x41

/-- The host's question: the command the decoder reads from the word `w` of `nbits` bits, the bits above being 0. -/
def decodeTableWord (nbits w : Nat) : Option Instr :=
  match decode (BitVec.ofNat 32 (w % 2 ^ nbits)) with
  | .ok i => some i
  | .error _ => none

end Sys2Proof
end

