-- ==== Sys2Proof/Config.lean ====
section
/-! DEFINITION. What an implementation fixes: the sizes of 00_scope.md R7 and the types of the parameters that
R7 and 92_eei_decisions.md leave open to a model. Their values stand in Machine/Layout.lean.

A `Config` is plain data held in `State`; no command writes it (40_field_access.md R87). -/

namespace Sys2Proof

/-! ## Sizes (R7) -/

/-- `PATCH_LEN`: bytes of a patch run. -/
abbrev patchLen : Nat := 102
/-- `NAME_LEN`: bytes of a serialized name. -/
abbrev nameLen : Nat := 6
/-- `BANK_N`: patches of a bank dump. -/
abbrev bankN : Nat := 40
/-- `SLOTS`: records of the patch store. -/
abbrev slots : Nat := 40
/-- `NAME_MAX`: bytes a stored name may hold. -/
abbrev nameMax : Nat := 32
/-- `IN_MAX`: bytes of the input buffer. -/
abbrev inMax : Nat := 8192
/-- `OUT_MAX`: bytes of the output buffer, the length of a bank frame. -/
abbrev outMax : Nat := 8166

/-! ## Policies (R7, 93_implementation_defined.md I13, I16 to I19) -/

/-- `NIBBLE_POLICY` (43_framer.md R151). -/
inductive NibblePolicy | reject | wrap8
  deriving DecidableEq, Repr

/-- `TRAILING_POLICY` (43_framer.md R160). -/
inductive TrailingPolicy | ignore | reject
  deriving DecidableEq, Repr

/-- `UNUSED_BITS_POLICY` (42_bit_packer.md R125). -/
inductive UnusedPolicy | ignore | reject
  deriving DecidableEq, Repr

/-- `LFO_AUX_POLICY` (42_bit_packer.md R128). -/
inductive LfoAuxPolicy | preserve | drop
  deriving DecidableEq, Repr

/-- `W2D_HIGH_POLICY` (41_range_codec.md R112): one value is defined (D24). -/
inductive W2dHighPolicy | rangeError
  deriving DecidableEq, Repr

/-! ## Modulation sources (10_state.md R32) -/

/-- The 16 modulation sources, in the document's order. -/
inductive ModSource
  | lfo1 | lfo2 | lfo3 | env1 | env2 | env3 | env4
  | velocity | velocityNonlinear | keyboard1 | keyboard2
  | wheel | pedal | external | aftertouch | off
  deriving DecidableEq, Repr

/-! ## Field tables -/

/-- The classes of 10_state.md R18. -/
inductive FieldClass | sgn | src | bool | raw | aux
  deriving DecidableEq, Repr

/-- A slice `(n, hi, lo, vh, vl)` of 42_bit_packer.md R119: bits `vh:vl` of the coded value stand in bits `hi:lo`
of byte `byte` of the group run. -/
structure Slice where
  byte : Nat
  hi : Nat
  lo : Nat
  vh : Nat
  vl : Nat
  deriving DecidableEq, Repr

/-- `FIELD_DEFAULT` of one field: a number, or the code of the source `off` under `MODSRC_CODE` (D16, D17). -/
inductive FieldDefault | value (v : Int) | sourceOff
  deriving DecidableEq, Repr

/-- One row of the field table of 10_state.md R17, with the field's slices from 42_bit_packer.md. -/
structure FieldSpec where
  cls : FieldClass
  width : Nat
  min : Int
  max : Int
  dflt : FieldDefault
  slices : List Slice
  deriving DecidableEq, Repr

/-- The four kinds of parameter group (10_state.md R16). -/
inductive Kind | env | lfo | osc | misc
  deriving DecidableEq, Repr

/-- The configuration of the block.

DESIGN CHOICE (assumption 17): there is one field table for each group KIND, so every instance of a kind (ENV0 to ENV3, and
so on) has the same `FIELD_RANGE` and the same `FIELD_DEFAULT`. R16 fixes the range for each group type; the default is open
for each id (92_eei_decisions.md, parameters), and the model does not let two instances of a kind differ in it. -/
structure Config where
  nibble : NibblePolicy
  trailing : TrailingPolicy
  unused : UnusedPolicy
  lfoAux : LfoAuxPolicy
  w2dHigh : W2dHighPolicy
  /-- `MODSRC_CODE`: the sources listed by code. -/
  modsrc : List ModSource
  /-- The field tables, one for each kind (assumption 17): `FIELD_RANGE`, `FIELD_DEFAULT` and, in `miscFields`,
  `MISC_LAYOUT`. -/
  envFields : List FieldSpec
  lfoFields : List FieldSpec
  oscFields : List FieldSpec
  miscFields : List FieldSpec
  /-- DESIGN CHOICE (assumption 6): under `UNUSED_BITS_POLICY = reject`, whether a group's unused bits are checked before its
  fields are decoded (true) or after. The spec gives the error and no order. -/
  unusedFirst : Bool
  deriving DecidableEq, Repr

end Sys2Proof
end

