-- ==== Sys2Proof/Machine/Memory.lean ====
section
/-! DEFINITION. A byte space (20_memory.md R35) as a list of (address, byte) cells in one canonical form: addresses
strictly rising, and no cell holding the byte an unlisted address reads as. Equal contents are equal lists. -/

namespace Sys2Proof.Machine

/-- The byte spaces of R35 and R10 (`MemRead(space, addr, n)`). -/
inductive Space | inp | out | lb
  deriving DecidableEq, Repr

/-- The number of bytes of a space (R35). -/
def Space.size : Space → Nat
  | .inp => inMax
  | .out => outMax
  | .lb => patchLen

/-- The contents of a byte space. -/
abbrev Memory := List Host.Cell

/-- What an unlisted address reads as. For LB this is the reset value (R27); for IN and OUT it is a DESIGN CHOICE for bytes
to which the spec gives no value and which no command can read (R25, R26, R193, assumption 3). -/
def Memory.blank : Byte := 0x00

/-- Read one byte. -/
def Memory.read : Memory → Nat → Byte
  | [], _ => Memory.blank
  | (k, b) :: rest, a => if k = a then b else Memory.read rest a

/-- Read `n` bytes from address `a` on. -/
def Memory.readRun (m : Memory) : Nat → Nat → List Byte
  | _, 0 => []
  | a, n + 1 => m.read a :: m.readRun (a + 1) n

/-- The cells of a run of bytes placed at `a`: none for a blank byte. -/
def Memory.cells : Nat → List Byte → Memory
  | _, [] => []
  | a, b :: rest => if b = Memory.blank then Memory.cells (a + 1) rest else (a, b) :: Memory.cells (a + 1) rest

/-- Write a run of bytes at addresses `a`, `a + 1`, …: the cells below and above the run stay. -/
def Memory.writeRun (m : Memory) (a : Nat) (bs : List Byte) : Memory :=
  m.filter (fun c => c.1 < a) ++ (Memory.cells a bs ++ m.filter (fun c => a + bs.length ≤ c.1))

/-- Write one byte. -/
def Memory.write (m : Memory) (a : Nat) (b : Byte) : Memory := m.writeRun a [b]

/-- The canonical form from address `a` on, below `size`: addresses strictly rising and no blank byte. -/
def Memory.wfFrom (size : Nat) : Nat → Memory → Bool
  | _, [] => true
  | a, (k, b) :: rest => a ≤ k && k < size && b != Memory.blank && Memory.wfFrom size (k + 1) rest

/-- The canonical form of a space of `size` bytes. -/
def Memory.wf (size : Nat) (m : Memory) : Bool := Memory.wfFrom size 0 m

end Sys2Proof.Machine
end

