-- ==== Sys2Proof/Machine/Layout.lean ====
section
/-! DEFINITION. The field tables of 10_state.md R17 with the slices of 42_bit_packer.md R126 to R130, the fixed maps
of 20_memory.md R50, and the configuration this spec gives at reset (00_scope.md R7). -/

namespace Sys2Proof

/-! ## Kinds, instances, ids and bases (R16, R17, R50, R118) -/

/-- How many instances of a kind a patch owns (R16). -/
def Kind.count : Kind → Nat
  | .env => 4
  | .lfo => 3
  | .osc => 3
  | .misc => 1

/-- The id of field 0 of instance `k` (R17). -/
def Kind.idBase (g : Kind) (k : Nat) : Nat :=
  match g with
  | .env => 0x00 + 16 * k
  | .lfo => 0x40 + 8 * k
  | .osc => 0x60 + 16 * k
  | .misc => 0xA0

/-- The run length of a kind (R118). -/
def Kind.runLen : Kind → Nat
  | .env => 10
  | .lfo => 4
  | .osc => 10
  | .misc => 14

/-- The logical offset of the run of instance `k` (R50). -/
def Kind.base (g : Kind) (k : Nat) : Nat :=
  match g with
  | .env => 6 + 10 * k
  | .lfo => 46 + 4 * k
  | .osc => 58 + 10 * k
  | .misc => 88

/-! ## Rows of the tables -/

/-- A field of one slice, `byte[hi:lo]`, holding the whole coded value. -/
def oneSlice (n hi lo : Nat) : List Slice := [⟨n, hi, lo, hi - lo, 0⟩]

/-- A RAW field in `byte[hi:lo]`, of full-width range and default 0 (D15, D16). -/
def rawField (n hi lo : Nat) : FieldSpec :=
  ⟨.raw, hi - lo + 1, 0, 2 ^ (hi - lo + 1) - 1, .value 0, oneSlice n hi lo⟩

/-- An AUX field: held and packed like RAW (R18). -/
def auxField (n hi lo : Nat) : FieldSpec :=
  ⟨.aux, hi - lo + 1, 0, 2 ^ (hi - lo + 1) - 1, .value 0, oneSlice n hi lo⟩

/-- An SGN field in the seven bits `byte[lo+6:lo]` (R18, R120). -/
def sgnField (n lo : Nat) : FieldSpec :=
  ⟨.sgn, 7, -63, 63, .value 0, oneSlice n (lo + 6) lo⟩

/-- A SRC field in a nibble `byte[lo+3:lo]`; its default is the code of OFF (R18). -/
def srcField (n lo : Nat) : FieldSpec :=
  ⟨.src, 4, 0, 15, .sourceOff, oneSlice n (lo + 3) lo⟩

/-- A BOOL field in one bit of a byte (R18). -/
def boolField (n b : Nat) : FieldSpec :=
  ⟨.bool, 1, 0, 1, .value 0, oneSlice n b b⟩

/-- Envelope, `j` = 0..9 (R17, R126). -/
def stdEnvFields : List FieldSpec :=
  [ sgnField 0 1          -- 0 level[0]
  , sgnField 1 1          -- 1 level[1]
  , sgnField 2 1          -- 2 level[2]
  , rawField 3 7 0        -- 3 time[0]
  , rawField 4 7 0        -- 4 time[1]
  , rawField 5 7 0        -- 5 time[2]
  , rawField 6 7 0        -- 6 time[3]
  , rawField 7 7 2        -- 7 velocity_level
  , rawField 8 7 0        -- 8 velocity_attack_control
  , rawField 9 7 0 ]      -- 9 keyboard_decay_scaling

/-- The LFO modulation source: bits 3:2 in byte 1 and bits 1:0 in byte 2, the one field with two slices (R39, R127). -/
def lfoSourceField : FieldSpec :=
  ⟨.src, 4, 0, 15, .sourceOff, [⟨1, 7, 6, 3, 2⟩, ⟨2, 7, 6, 1, 0⟩]⟩

/-- LFO, `j` = 0..7 (R17, R127, D20, D21). -/
def stdLfoFields : List FieldSpec :=
  [ rawField 0 7 6        -- 0 waveform
  , rawField 0 5 0        -- 1 frequency
  , lfoSourceField        -- 2 source
  , boolField 3 7         -- 3 reset
  , boolField 3 6         -- 4 humanize
  , rawField 3 5 0        -- 5 delay
  , auxField 1 5 0        -- 6 aux1
  , auxField 2 5 0 ]      -- 7 aux2

/-- Oscillator, `j` = 0..12 (R17, R129, C1, D22). -/
def stdOscFields : List FieldSpec :=
  [ rawField 0 7 0        -- 0 semitone
  , rawField 1 7 3        -- 1 fine_tune
  , srcField 2 0          -- 2 fm_source[0]
  , srcField 2 4          -- 3 fm_source[1]
  , sgnField 3 1          -- 4 fm_amount[0]
  , sgnField 4 1          -- 5 fm_amount[1]
  , rawField 5 7 0        -- 6 waveform
  , boolField 6 7         -- 7 dca_enable
  , rawField 6 6 1        -- 8 dca_level
  , srcField 7 0          -- 9 dca_source[0]
  , srcField 7 4          -- 10 dca_source[1]
  , sgnField 8 1          -- 11 dca_amount[0]
  , sgnField 9 1 ]        -- 12 dca_amount[1]

/-- MISC, `j` = 0..26: the `MISC_LAYOUT` of R130 (R17, D23, C6). -/
def stdMiscFields : List FieldSpec :=
  [ sgnField 0 0          -- 0 dca4_modulation_amount
  , boolField 0 7         -- 1 am
  , rawField 1 6 0        -- 2 frequency
  , boolField 1 7         -- 3 sync
  , auxField 2 5 0        -- 4 aux
  , boolField 2 7         -- 5 reset_voice
  , boolField 2 6         -- 6 mono
  , srcField 3 0          -- 7 filter_source[0]
  , srcField 3 4          -- 8 filter_source[1]
  , sgnField 4 1          -- 9 filter_amount[0]
  , sgnField 5 1          -- 10 filter_amount[1]
  , rawField 6 6 0        -- 11 filter_keyboard_tracking
  , boolField 6 7         -- 12 reset_envelope
  , rawField 7 7 4        -- 13 pan
  , srcField 7 0          -- 14 pan_source
  , sgnField 8 1          -- 15 pan_amount
  , rawField 9 5 0        -- 16 glide
  , boolField 9 7         -- 17 reset_oscillator
  , boolField 9 6         -- 18 cycle
  , rawField 10 6 0       -- 19 split_point
  , boolField 10 7        -- 20 split_direction
  , rawField 11 6 0       -- 21 layer_program
  , boolField 11 7        -- 22 layer_flag
  , rawField 12 6 0       -- 23 split_program
  , boolField 12 7        -- 24 split_flag
  , rawField 13 6 0       -- 25 split_layer_program
  , boolField 13 7 ]      -- 26 split_layer_flag

/-- The sources in the order the document lists them, which is their code order (R32, D17). -/
def stdModsrc : List ModSource :=
  [.lfo1, .lfo2, .lfo3, .env1, .env2, .env3, .env4, .velocity, .velocityNonlinear,
   .keyboard1, .keyboard2, .wheel, .pedal, .external, .aftertouch, .off]

/-- The configuration this spec decides (R7). -/
def Config.standard : Config where
  nibble := .reject
  trailing := .ignore
  unused := .ignore
  lfoAux := .preserve
  w2dHigh := .rangeError
  modsrc := stdModsrc
  envFields := stdEnvFields
  lfoFields := stdLfoFields
  oscFields := stdOscFields
  miscFields := stdMiscFields
  unusedFirst := true

/-! ## Reading a configuration -/

/-- The fields of a kind, in `j` order. Under `LFO_AUX_POLICY = drop` "aux1 and aux2 do not exist" (R128). -/
def Config.fields (c : Config) : Kind → List FieldSpec
  | .env => c.envFields
  | .lfo =>
    match c.lfoAux with
    | .preserve => c.lfoFields
    | .drop => c.lfoFields.filter (fun f => f.cls != .aux)
  | .osc => c.oscFields
  | .misc => c.miscFields

/-- The code of a source under `MODSRC_CODE` (R32). -/
def Config.sourceCode (c : Config) (m : ModSource) : Nat := c.modsrc.idxOf m

/-- `FIELD_DEFAULT` of a field (R17, D16, D17). -/
def Config.default (c : Config) (f : FieldSpec) : Int :=
  match f.dflt with
  | .value v => v
  | .sourceOff => c.sourceCode .off

/-- Whether a value is inside `FIELD_RANGE` (R86). -/
def FieldSpec.inRange (f : FieldSpec) (v : Int) : Bool := f.min ≤ v && v ≤ f.max

/-- The byte of a field's first slice, where its errors are reported (R122, R124). -/
def FieldSpec.firstByte (f : FieldSpec) : Nat :=
  match f.slices with
  | [] => 0
  | sl :: _ => sl.byte

/-- A numeric field of a patch: its group instance, its index `j` and its row of the field table. -/
structure FieldRef where
  kind : Kind
  k : Nat
  j : Nat
  spec : FieldSpec
  deriving DecidableEq, Repr

/-- The group instance and the index `j` that an id would name (R17). -/
def idSplit (id : Nat) : Kind × Nat × Nat :=
  if id < 0x40 then (.env, id / 16, id % 16)
  else if id < 0x60 then (.lfo, (id - 0x40) / 8, (id - 0x40) % 8)
  else if id < 0xA0 then (.osc, (id - 0x60) / 16, (id - 0x60) % 16)
  else (.misc, 0, id - 0xA0)

/-- The field an id names, or none: "All other ids in 0x00..0xFF name no field" (R17). -/
def Config.field? (c : Config) (id : Nat) : Option FieldRef :=
  match idSplit id with
  | (g, k, j) =>
    if k < g.count then
      match (c.fields g)[j]? with
      | some f => some ⟨g, k, j, f⟩
      | none => none
    else none

end Sys2Proof
end

