-- ==== Sys2Proof/Machine/Patch.lean ====
section
/-! DEFINITION. The patch record of 10_state.md R16 to R22 and its default. -/

namespace Sys2Proof.Machine

/-- The values of one group instance, in `j` order (R17). They are the spec's mathematical integers; that each lies in its
`FIELD_RANGE` is the store invariant R21, which every step keeps. -/
abbrev Record := List Int

/-- A patch record: "a Patch owns exactly 4 Envelopes, 3 LFOs, 3 Oscillators, and 1 Miscellaneous block" (R16). Two
records are equal when the names and all fields are (R33), which is equality of this structure. -/
structure Patch where
  /-- The name, a byte string of length 0..32 (R19). -/
  name : List Byte
  env : Vector Record 4
  lfo : Vector Record 3
  osc : Vector Record 3
  misc : Record
  deriving DecidableEq, Repr

/-- The record of instance `k` of a kind. -/
def Patch.group (p : Patch) (g : Kind) (k : Nat) : Record :=
  match g with
  | .env => p.env[k]?.getD []
  | .lfo => p.lfo[k]?.getD []
  | .osc => p.osc[k]?.getD []
  | .misc => p.misc

/-- The patch with the record of instance `k` of a kind replaced. -/
def Patch.setGroup (p : Patch) (g : Kind) (k : Nat) (r : Record) : Patch :=
  match g with
  | .env => { p with env := p.env.setIfInBounds k r }
  | .lfo => { p with lfo := p.lfo.setIfInBounds k r }
  | .osc => { p with osc := p.osc.setIfInBounds k r }
  | .misc => { p with misc := r }

/-- `PSTORE[s].field(id)` read. -/
def Patch.field (p : Patch) (r : FieldRef) : Int := (p.group r.kind r.k).getD r.j 0

/-- `PSTORE[s].field(id) <- v`. -/
def Patch.setField (p : Patch) (r : FieldRef) (v : Int) : Patch :=
  p.setGroup r.kind r.k ((p.group r.kind r.k).set r.j v)

/-- The record of a kind with every field at its `FIELD_DEFAULT` (R17, R22). -/
def defaultRecord (c : Config) (g : Kind) : Record := (c.fields g).map c.default

/-- The name of a fresh patch: six bytes 0x20 (R22, D18, C5). -/
def defaultName : List Byte := [0x20, 0x20, 0x20, 0x20, 0x20, 0x20]

/-- `DEFAULT_PATCH` (R22): a constant of the configuration, which reads no state. -/
def defaultPatch (c : Config) : Patch where
  name := defaultName
  env := Vector.replicate 4 (defaultRecord c .env)
  lfo := Vector.replicate 3 (defaultRecord c .lfo)
  osc := Vector.replicate 3 (defaultRecord c .osc)
  misc := defaultRecord c .misc

/-- A record with as many values as its kind has fields, each inside its `FIELD_RANGE` (R21). -/
def recordOk : List FieldSpec → Record → Bool
  | [], [] => true
  | f :: fs, v :: vs => f.inRange v && recordOk fs vs
  | _, _ => false

/-- The store invariant R21 for one patch: every numeric field in its range and a name of at most `NAME_MAX` bytes. -/
def Patch.ok (c : Config) (p : Patch) : Bool :=
  p.name.length ≤ nameMax &&
  p.env.toList.all (recordOk (c.fields .env)) && p.lfo.toList.all (recordOk (c.fields .lfo)) &&
  p.osc.toList.all (recordOk (c.fields .osc)) && recordOk (c.fields .misc) p.misc

end Sys2Proof.Machine
end

