-- ==== Sys2Proof/Machine/State.lean ====
section
/-! DEFINITION. The state of the block (10_state.md R20 to R34), the reasons a step can stop, and the state after reset. -/

namespace Sys2Proof.Machine

/-- Why a step faults. -/
inductive Fault
  /-- Raised by the byte-space operations of Machine/Ops.lean when an access leaves its space: such an address does not exist
  (20_memory.md R35). The commands check their indices first (R172), so no state that the invariant of Safety.lean holds of
  raises it. Safe: the model stops where the block has no element to reach. -/
  | outsideSpace (sp : Space) (addr : Nat)
  deriving DecidableEq, Repr

/-- Why a step is refused. -/
inductive Refusal
  /-- An instruction without a meaning: raised by an arm of `exec` only. No arm raises it now. Safe. -/
  | notModelled (mnemonic : String)
  /-- Raised by `step` for a configuration that R87 and R89 say a model must refuse before it runs. No command can create one
  (R89). Safe: the block cannot be built with it. -/
  | badConfig
  deriving DecidableEq, Repr

/-- A write the host makes to the register port (10_state.md R29, R30). -/
structure PortWrite where
  addr : BitVec 4
  word : Word
  deriving DecidableEq, Repr

/-- The state of the block, and the host's pending port writes. -/
structure State where
  /-- `PSTORE[0..39]` (R20). -/
  pstore : Vector Patch 40
  /-- `LB[0..101]` (R27). -/
  lb : Memory
  /-- `IN[0..8191]` (R25). -/
  inb : Memory
  /-- `IN_LEN` (R25). -/
  inLen : Half
  /-- `OUT[0..8165]` (R26). -/
  outb : Memory
  /-- `OUT_LEN` (R26). -/
  outLen : Half
  /-- `RES` (R23). -/
  res : Half
  /-- `STATUS.ERR` (R24, R171). -/
  err : BitVec 3
  /-- `STATUS.SUB` (R24). -/
  sub : Byte
  /-- `STATUS.POS` (R24). -/
  pos : Half
  /-- `STICKY` (R24). -/
  sticky : Bool
  /-- `CHAN` (R28). -/
  chan : Byte
  /-- `DTYPE` (R28). -/
  dtype : Byte
  /-- `PCOUNT` (R28). -/
  pcount : Byte
  /-- The implementation parameters (R7); written by no command (R87, assumption 5). -/
  cfg : Config
  /-- The MODEL's own field: the port writes the host has yet to make, oldest first (R13, R30, assumption 1). -/
  hostq : List PortWrite
  deriving DecidableEq, Repr

/-- The state after power-on under a configuration: the values of R34. The cells of IN and OUT are the model's choice
(R193: "a model may give them any value after reset", assumption 3). -/
def State.powerOn (c : Config) : State where
  pstore := Vector.replicate 40 (defaultPatch c)
  lb := []
  inb := []
  inLen := 0
  outb := []
  outLen := 0
  res := 0
  err := 0
  sub := 0
  pos := 0
  sticky := false
  chan := 0
  dtype := 0
  pcount := 0
  cfg := c
  hostq := []

/-- The machine right after power-on reset with the parameters of R7 (R193, R34). -/
def State.reset : State := State.powerOn Config.standard

end Sys2Proof.Machine
end

