-- ==== Sys2Proof/Machine/Flags.lean ====
section
/-! DEFINITION. STATUS in place of flags (10_state.md R15, R24): the error kinds of 60_exceptions.md R171, what an error
carries, and every write to STATUS and STICKY that R175 gives. -/

namespace Sys2Proof.Machine

/-- The error kinds (R171). Code 7 is reserved and has no kind (I8). -/
inductive ErrKind | range | format | usage | invalidCode | illegalCmd | badOperand
  deriving DecidableEq, Repr

/-- The code of `NONE` (R171). -/
def errNone : BitVec 3 := 0

/-- The code `ERR` holds for a kind (R171). -/
def ErrKind.code : ErrKind → BitVec 3
  | .range => 1
  | .format => 2
  | .usage => 3
  | .invalidCode => 4
  | .illegalCmd => 5
  | .badOperand => 6

/-- An error: its kind, a subcode and one position, "and nothing else" (R183). -/
structure Err where
  kind : ErrKind
  sub : Nat
  pos : Nat
  deriving DecidableEq, Repr

/-! ## The named errors -/

/-- `BAD_OPERAND` sub 1: operand A out of range (R172). -/
def badA (value : Nat) : Err := ⟨.badOperand, 1, value⟩
/-- `BAD_OPERAND` sub 2: operand B, F or k out of range (R172). -/
def badB (value : Nat) : Err := ⟨.badOperand, 2, value⟩
/-- `BAD_OPERAND` sub 3: capacity, with the current length (R172). -/
def atCapacity (len : Nat) : Err := ⟨.badOperand, 3, len⟩
/-- `RangeError(SUB, POS)` (R180). -/
def rangeErr (sub pos : Nat) : Err := ⟨.range, sub, pos⟩
/-- `InvalidCodeError(SUB, POS)` (R181). -/
def invalidCodeErr (sub pos : Nat) : Err := ⟨.invalidCode, sub, pos⟩
/-- `FORMAT` sub 1, BAD_HEADER (R174). -/
def badHeader (k : Nat) : Err := ⟨.format, 1, k⟩
/-- `FORMAT` sub 2, TRUNCATED (R174). -/
def truncated (inLen : Nat) : Err := ⟨.format, 2, inLen⟩
/-- `FORMAT` sub 3, BAD_DUMP_TYPE (R174). -/
def badDumpType : Err := ⟨.format, 3, 4⟩
/-- `FORMAT` sub 4, NIBBLE_RANGE (R174). -/
def nibbleRange (pos : Nat) : Err := ⟨.format, 4, pos⟩
/-- `FORMAT` sub 5, BAD_FOOTER (R174). -/
def badFooter (pos : Nat) : Err := ⟨.format, 5, pos⟩
/-- `FORMAT` sub 6, UNUSED_BIT_SET (R174). -/
def unusedBitSet (pos : Nat) : Err := ⟨.format, 6, pos⟩
/-- `FORMAT` sub 7, TRAILING (R174). -/
def trailing (pos : Nat) : Err := ⟨.format, 7, pos⟩
/-- `USAGE`: `ENCODE` given zero patches (R182). -/
def zeroPatches : Err := ⟨.usage, 1, 0⟩
/-- `ILLEGAL_CMD` sub 0: an unassigned opcode (R173). -/
def unassignedOpcode (opc : Byte) : Err := ⟨.illegalCmd, 0, zext opc⟩
/-- `ILLEGAL_CMD` sub 1: a nonzero reserved field (R173). -/
def reservedField (opc : Byte) : Err := ⟨.illegalCmd, 1, zext opc⟩

/-! ## STATUS (R175) -/

/-- On success: `ERR <- 0; SUB <- 0; POS <- 0`, STICKY unchanged (R175). -/
def State.statusOk (s : State) : State := { s with err := errNone, sub := 0, pos := 0 }

/-- On error: `ERR <- e.code; SUB <- e.sub; POS <- e.pos; STICKY <- 1` (R175). -/
def State.statusErr (s : State) (e : Err) : State :=
  { s with err := e.kind.code, sub := BitVec.ofNat 8 e.sub, pos := BitVec.ofNat 16 e.pos, sticky := true }

end Sys2Proof.Machine
end

