-- ==== Sys2Proof/Machine/Ops.lean ====
section
/-! DEFINITION. The shared operations: how a command ends (60_exceptions.md R175, R176), access to the byte spaces
(00_scope.md R10), to the patch store and to the registers, and software reset.

This block has no exception entry and no return from one (R178, R185, R186). An error ends the command in ONE operation,
`raise`, which stands where another machine takes its exception. -/

namespace Sys2Proof.Machine

/-! ## Ending a command -/

/-- Why the body of a command stops early: an error of the block, or the model's fault. -/
inductive Stop
  | raised (e : Err)
  | faulted (f : Fault)
  deriving DecidableEq, Repr

/-- The body of a command: a value, or why it stopped. -/
abbrev Cmd (α : Type) := Except Stop α

/-- `raise <Error>(sub, pos)` (R10). -/
def raise {α : Type} (e : Err) : Cmd α := .error (.raised e)

/-- Raise an error unless a check holds. -/
def require (b : Bool) (e : Err) : Cmd Unit := if b then .ok () else raise e

/-- The result of a codec function as part of a command: its error is raised. -/
def lift {α : Type} : Except Err α → Cmd α
  | .ok a => .ok a
  | .error e => raise e

/-- End a command that began in state `s`: STATUS is written last and once (R175); an error leaves everything but STATUS and
STICKY as `s` has it (R176). -/
def complete (s : State) : Cmd State → Host.Outcome State Fault Refusal
  | .ok t => .next t.statusOk
  | .error (.raised e) => .next (s.statusErr e)
  | .error (.faulted f) => .fault f

/-- `ILLEGAL_CMD` for a word that is no command (30_encoding.md R56, R57, R173): "The command does not execute". -/
def illegal (e : Illegal) (s : State) : Host.Outcome State Fault Refusal :=
  match e with
  | .unassigned opc => complete s (raise (unassignedOpcode opc))
  | .reservedField opc => complete s (raise (reservedField opc))

/-! ## Byte spaces -/

/-- The contents of a space. -/
def State.space (s : State) : Space → Memory
  | .inp => s.inb
  | .out => s.outb
  | .lb => s.lb

/-- The state with the contents of a space replaced. -/
def State.setSpace (s : State) (sp : Space) (m : Memory) : State :=
  match sp with
  | .inp => { s with inb := m }
  | .out => { s with outb := m }
  | .lb => { s with lb := m }

/-- `MemRead(space, addr, n)` (R10). -/
def memRead (s : State) (sp : Space) (a n : Nat) : Cmd (List Byte) :=
  if a + n ≤ sp.size then .ok ((s.space sp).readRun a n) else .error (.faulted (.outsideSpace sp a))

/-- `MemRead(space, addr, 1)`. -/
def memReadByte (s : State) (sp : Space) (a : Nat) : Cmd Byte :=
  if a < sp.size then .ok ((s.space sp).read a) else .error (.faulted (.outsideSpace sp a))

/-- `MemWrite(space, addr, n, v)` (R10): the state with the bytes written. -/
def memWrite (s : State) (sp : Space) (a : Nat) (bs : List Byte) : Cmd State :=
  if a + bs.length ≤ sp.size then .ok (s.setSpace sp ((s.space sp).writeRun a bs))
  else .error (.faulted (.outsideSpace sp a))

/-! ## Patch store and registers -/

/-- `PSTORE[i]` read. The commands name only slots 0..39 (R20). -/
def State.slot (s : State) (i : Nat) : Patch := s.pstore[i]?.getD (defaultPatch s.cfg)

/-- `PSTORE[i] <- p`. -/
def State.setSlot (s : State) (i : Nat) (p : Patch) : State := { s with pstore := s.pstore.setIfInBounds i p }

/-- `PSTORE[i] <- ps[0]`, `PSTORE[i+1] <- ps[1]`, … (43_framer.md R161). -/
def State.setSlots (s : State) : Nat → List Patch → State
  | _, [] => s
  | i, p :: ps => (s.setSlot i p).setSlots (i + 1) ps

/-- `RES <- v` (R23). -/
def State.setRes (s : State) (v : Half) : State := { s with res := v }

/-- `IN_LEN <- n` (R25). -/
def State.setInLen (s : State) (n : Nat) : State := { s with inLen := BitVec.ofNat 16 n }

/-- `OUT_LEN <- n` (R26). -/
def State.setOutLen (s : State) (n : Nat) : State := { s with outLen := BitVec.ofNat 16 n }

/-- The frame registers, written by a `DECODE` that succeeds (R28). -/
def State.setFrame (s : State) (chan dtype : Byte) (n : Nat) : State :=
  { s with chan := chan, dtype := dtype, pcount := BitVec.ofNat 8 n }

/-- `reset()` as a command runs it (70_reset_and_hazards.md R193): every register, LB and the patch store take the values of
R34. The contents of IN and OUT "are not reset"; the configuration and the host's pending writes are not the block's to
reset. -/
def State.softReset (s : State) : State :=
  { State.powerOn s.cfg with inb := s.inb, outb := s.outb, hostq := s.hostq }

end Sys2Proof.Machine
end

