-- ==== Sys2Proof/Machine/Operands.lean ====
section
/-! DEFINITION. Operand assembly (30_encoding.md R54) and the operand checks of R58 and 60_exceptions.md R172: every
operand form a command has. -/

namespace Sys2Proof.Machine

/-- Operand A as a slot: `if s > 39: raise BAD_OPERAND(1, s)`. -/
def slotOperand (a : Byte) : Cmd Nat := do
  require (zext a < slots) (badA (zext a))
  pure (zext a)

/-- Operand A as a logical offset: `if o > 101: raise BAD_OPERAND(1, o)`. -/
def offsetOperand (a : Byte) : Cmd Nat := do
  require (zext a < patchLen) (badA (zext a))
  pure (zext a)

/-- Operand B as an instance index of a kind: `if k > 3` (ENV) or `if k > 2` (LFO, OSC)`: raise BAD_OPERAND(2, k)`. -/
def instanceOperand (g : Kind) (b : Half) : Cmd Nat := do
  require (zext b < g.count) (badB (zext b))
  pure (zext b)

/-- Operand B as an index below a length: `if i >= len: raise BAD_OPERAND(2, i)`. -/
def indexOperand (b : Half) (len : Nat) : Cmd Nat := do
  require (zext b < len) (badB (zext b))
  pure (zext b)

/-- Operand B as a new length: `if n > len: raise BAD_OPERAND(2, n)`. -/
def lengthOperand (b : Half) (len : Nat) : Cmd Nat := do
  require (zext b ≤ len) (badB (zext b))
  pure (zext b)

/-- Operand F as a field id: `if id is not a field id: raise BAD_OPERAND(2, id)`. -/
def fieldOperand (c : Config) (f : Byte) : Cmd FieldRef :=
  match c.field? (zext f) with
  | some r => .ok r
  | none => raise (badB (zext f))

/-- `V` of `SETF`: `sext_8(V)` for an SGN field, `zext_8(V)` otherwise (R54, R90). -/
def fieldValue (f : FieldSpec) (v : Byte) : Int :=
  match f.cls with
  | .sgn => sext v
  | _ => (zext v : Int)

/-- `check(id, v)` (40_field_access.md R86): a value outside `FIELD_RANGE` raises, "never clamped". -/
def check (f : FieldSpec) (id : Nat) (v : Int) (p : Nat) : Except Err Unit :=
  if f.inRange v then .ok () else .error (rangeErr id p)

end Sys2Proof.Machine
end

