-- ==== Sys2Proof/Machine/RangeCodec.lean ====
section
/-! DEFINITION. The range codec of 41_range_codec.md: the sign-offset mapping and its two commands. -/

namespace Sys2Proof.Machine

/-- `d2w(v)` (R111), with the subcode and the position its caller gives. -/
def d2w (sub pos : Nat) (v : Int) : Except Err Nat :=
  if v < -63 ∨ v > 63 then .error (rangeErr sub pos)
  else if v < 0 then .ok (128 + v).toNat
  else .ok v.toNat

/-- `w2d(w)` (R112): above 127 is tested before 64 (R177). -/
def w2d (policy : W2dHighPolicy) (sub pos w : Nat) : Except Err Int :=
  if w > 127 then
    match policy with
    | .rangeError => .error (rangeErr sub pos)
  else if w = 64 then .error (invalidCodeErr sub pos)
  else if w < 64 then .ok (w : Int)
  else .ok ((w : Int) - 128)

/-- `D2W v` (R113): the display value is `sext_8(A)`; errors carry `SUB = 0xFF`, `POS = 0`. -/
def execD2w (a : Byte) (s : State) : Host.Outcome State Fault Refusal :=
  complete s do
    let w ← lift (d2w 0xFF 0 (sext a))
    pure (s.setRes (BitVec.ofNat 16 w))

/-- `W2D w` (R114): `RES <- wrap_16(w2d(w))`. -/
def execW2d (a : Byte) (s : State) : Host.Outcome State Fault Refusal :=
  complete s do
    let v ← lift (w2d s.cfg.w2dHigh 0xFF 0 (zext a))
    pure (s.setRes (wrap 16 v))

end Sys2Proof.Machine
end

