-- ==== Sys2Proof/Machine/BitPacker.lean ====
section
/-! DEFINITION. The bit-packer of 42_bit_packer.md: coded values, pack_g and unpack_g over the field tables, the name, the
patch run, and the PACK and UNPACK commands. -/

namespace Sys2Proof.Machine

/-! ## Coded values (R120) -/

/-- `enc(id, v)`: the unsigned value a field puts in its slices. `d2w` cannot fail on a value in range; the position it would
report is the model's (assumption 7). -/
def encField (f : FieldSpec) (id pos : Nat) (v : Int) : Except Err Nat :=
  match f.cls with
  | .sgn => d2w id pos v
  | _ => .ok v.toNat

/-- `dec(id, u)`: the inverse of `enc` on a slice value, then the range check. -/
def decField (c : Config) (f : FieldSpec) (id pos u : Nat) : Except Err Int :=
  match f.cls with
  | .sgn => do
    let v ← w2d c.w2dHigh id pos u
    check f id v pos
    pure v
  | _ => do
    check f id (u : Int) pos
    pure (u : Int)

/-! ## pack_g (R121) -/

/-- `out[n] <- out[n] | (u[vh:vl] << lo)`. -/
def placeSlice (u : Nat) (out : List Byte) (sl : Slice) : List Byte :=
  out.modify sl.byte (· ||| BitVec.ofNat 8 (bits u sl.vh sl.vl <<< sl.lo))

/-- Every slice of one field. -/
def placeField (f : FieldSpec) (u : Nat) (out : List Byte) : List Byte :=
  f.slices.foldl (placeSlice u) out

/-- The fields in `j` order; `id` is the id of the first of them and `base` the logical offset of the run. -/
def packFields (base : Nat) : List FieldSpec → Record → Nat → List Byte → Except Err (List Byte)
  | f :: fs, v :: vs, id, out => do
    let u ← encField f id (base + f.firstByte) v
    packFields base fs vs (id + 1) (placeField f u out)
  | _, _, _, out => .ok out

/-- `pack_g(rec)` for instance `k` of a kind. -/
def packGroup (c : Config) (g : Kind) (k : Nat) (r : Record) : Except Err (List Byte) :=
  packFields (g.base k) (c.fields g) r (g.idBase k) (List.replicate g.runLen 0)

/-! ## unpack_g (R122 to R125) -/

/-- The coded value in a field's slices: `u <- u | (bytes[n][hi:lo] << vl)`. -/
def gatherField (f : FieldSpec) (bytes : List Byte) : Nat :=
  f.slices.foldl (fun u sl => u ||| bits (zext (bytes.getD sl.byte 0)) sl.hi sl.lo <<< sl.vl) 0

/-- The fields in `j` order; "the first failing field gives the error", at its first slice's offset (R124). -/
def unpackFields (c : Config) (bytes : List Byte) (base : Nat) : List FieldSpec → Nat → Except Err Record
  | [], _ => .ok []
  | f :: fs, id => do
    let v ← decField c f id (base + f.firstByte) (gatherField f bytes)
    let vs ← unpackFields c bytes base fs (id + 1)
    pure (v :: vs)

/-- The bits of byte `n` that some slice covers. -/
def usedBits (fs : List FieldSpec) (n : Nat) : Nat :=
  (fs.flatMap (·.slices)).foldl
    (fun m sl => if sl.byte = n then m ||| (2 ^ (sl.hi + 1) - 2 ^ sl.lo) else m) 0

/-- `UNUSED_BITS_POLICY = reject` (R125): a nonzero unused bit raises `FormatError(SUB = 6)` at its byte's offset, the
lowest offset first (assumption 6). `n` is the index of the first byte of the list in the run. -/
def checkUnused (fs : List FieldSpec) (base : Nat) : Nat → List Byte → Except Err Unit
  | _, [] => .ok ()
  | n, b :: bs =>
    if zext b ||| usedBits fs n = usedBits fs n then checkUnused fs base (n + 1) bs
    else .error (unusedBitSet (base + n))

/-- `unpack_g(bytes, base)` for instance `k` of a kind. -/
def unpackGroup (c : Config) (g : Kind) (k : Nat) (bytes : List Byte) : Except Err Record :=
  match c.unused with
  | .ignore => unpackFields c bytes (g.base k) (c.fields g) (g.idBase k)
  | .reject =>
    match c.unusedFirst with
    | true => do
      checkUnused (c.fields g) (g.base k) 0 bytes
      unpackFields c bytes (g.base k) (c.fields g) (g.idBase k)
    | false => do
      let r ← unpackFields c bytes (g.base k) (c.fields g) (g.idBase k)
      checkUnused (c.fields g) (g.base k) 0 bytes
      pure r

/-! ## Name (R131) -/

/-- `a..z -> A..Z`; every other byte is unchanged (D19). -/
def upperByte (b : Byte) : Byte := if 0x61 ≤ b ∧ b ≤ 0x7A then b - 0x20 else b

/-- `norm(name)`: upper-cased, right-padded with spaces if short, truncated if long. -/
def norm (name : List Byte) : List Byte :=
  (name.map upperByte ++ List.replicate nameLen 0x20).take nameLen

/-! ## Patch run (R144, R145) -/

/-- The runs of the listed instances of a kind, one after the other. -/
def packGroups (c : Config) (p : Patch) (g : Kind) : List Nat → Except Err (List Byte)
  | [] => .ok []
  | k :: ks => do
    let b ← packGroup c g k (p.group g k)
    let bs ← packGroups c p g ks
    pure (b ++ bs)

/-- `serialize(p)`: the 102-byte run. -/
def serialize (c : Config) (p : Patch) : Except Err (List Byte) := do
  let env ← packGroups c p .env [0, 1, 2, 3]
  let lfo ← packGroups c p .lfo [0, 1, 2]
  let osc ← packGroups c p .osc [0, 1, 2]
  let misc ← packGroups c p .misc [0]
  pure (norm p.name ++ env ++ lfo ++ osc ++ misc)

/-- `b[base .. base+L-1]`, the run of instance `k` of a kind in a patch run. -/
def groupRun (b : List Byte) (g : Kind) (k : Nat) : List Byte := (b.drop (g.base k)).take g.runLen

/-- `unpack_g` on the run of instance `k` of a kind. -/
def unpackAt (c : Config) (b : List Byte) (g : Kind) (k : Nat) : Except Err Record :=
  unpackGroup c g k (groupRun b g k)

/-- `deserialize(b[0..101])`: the name, then ENV0..ENV3, LFO0..LFO2, OSC0..OSC2 and MISC (R124). Any error ends it and
returns no patch. -/
def deserialize (c : Config) (b : List Byte) : Except Err Patch := do
  let e0 ← unpackAt c b .env 0
  let e1 ← unpackAt c b .env 1
  let e2 ← unpackAt c b .env 2
  let e3 ← unpackAt c b .env 3
  let l0 ← unpackAt c b .lfo 0
  let l1 ← unpackAt c b .lfo 1
  let l2 ← unpackAt c b .lfo 2
  let o0 ← unpackAt c b .osc 0
  let o1 ← unpackAt c b .osc 1
  let o2 ← unpackAt c b .osc 2
  let m ← unpackAt c b .misc 0
  pure { name := b.take nameLen, env := #v[e0, e1, e2, e3], lfo := #v[l0, l1, l2], osc := #v[o0, o1, o2], misc := m }

/-! ## Commands -/

/-- Pack instance `k` of a kind of slot `i` into its place in LB. -/
def packInto (s : State) (g : Kind) (i k : Nat) : Cmd State := do
  let bs ← lift (packGroup s.cfg g k ((s.slot i).group g k))
  memWrite s .lb (g.base k) bs

/-- Unpack the run of instance `k` of a kind from LB into slot `i`. -/
def unpackFrom (s : State) (g : Kind) (i k : Nat) : Cmd State := do
  let bs ← memRead s .lb (g.base k) g.runLen
  let r ← lift (unpackGroup s.cfg g k bs)
  pure (s.setSlot i ((s.slot i).setGroup g k r))

/-- `PACK_NAME s` (R132). -/
def execPackName (a : Byte) (s : State) : Host.Outcome State Fault Refusal :=
  complete s do
    let i ← slotOperand a
    memWrite s .lb 0 (norm (s.slot i).name)

/-- `PACK_ENV s, k` (R134). -/
def execPackEnv (a : Byte) (k : Half) (s : State) : Host.Outcome State Fault Refusal :=
  complete s do
    let i ← slotOperand a
    let n ← instanceOperand .env k
    packInto s .env i n

/-- `PACK_LFO s, k` (R135). -/
def execPackLfo (a : Byte) (k : Half) (s : State) : Host.Outcome State Fault Refusal :=
  complete s do
    let i ← slotOperand a
    let n ← instanceOperand .lfo k
    packInto s .lfo i n

/-- `PACK_OSC s, k` (R136). -/
def execPackOsc (a : Byte) (k : Half) (s : State) : Host.Outcome State Fault Refusal :=
  complete s do
    let i ← slotOperand a
    let n ← instanceOperand .osc k
    packInto s .osc i n

/-- `PACK_MISC s` (R137). -/
def execPackMisc (a : Byte) (s : State) : Host.Outcome State Fault Refusal :=
  complete s do
    let i ← slotOperand a
    packInto s .misc i 0

/-- `PACK_PATCH s` (R138). -/
def execPackPatch (a : Byte) (s : State) : Host.Outcome State Fault Refusal :=
  complete s do
    let i ← slotOperand a
    let bs ← lift (serialize s.cfg (s.slot i))
    memWrite s .lb 0 bs

/-- `UNPACK_NAME s` (R133): the six bytes verbatim. -/
def execUnpackName (a : Byte) (s : State) : Host.Outcome State Fault Refusal :=
  complete s do
    let i ← slotOperand a
    let bs ← memRead s .lb 0 nameLen
    pure (s.setSlot i { s.slot i with name := bs })

/-- `UNPACK_ENV s, k` (R139). -/
def execUnpackEnv (a : Byte) (k : Half) (s : State) : Host.Outcome State Fault Refusal :=
  complete s do
    let i ← slotOperand a
    let n ← instanceOperand .env k
    unpackFrom s .env i n

/-- `UNPACK_LFO s, k` (R140). -/
def execUnpackLfo (a : Byte) (k : Half) (s : State) : Host.Outcome State Fault Refusal :=
  complete s do
    let i ← slotOperand a
    let n ← instanceOperand .lfo k
    unpackFrom s .lfo i n

/-- `UNPACK_OSC s, k` (R141). -/
def execUnpackOsc (a : Byte) (k : Half) (s : State) : Host.Outcome State Fault Refusal :=
  complete s do
    let i ← slotOperand a
    let n ← instanceOperand .osc k
    unpackFrom s .osc i n

/-- `UNPACK_MISC s` (R142). -/
def execUnpackMisc (a : Byte) (s : State) : Host.Outcome State Fault Refusal :=
  complete s do
    let i ← slotOperand a
    unpackFrom s .misc i 0

/-- `UNPACK_PATCH s` (R143): atomic, the whole slot or nothing. -/
def execUnpackPatch (a : Byte) (s : State) : Host.Outcome State Fault Refusal :=
  complete s do
    let i ← slotOperand a
    let bs ← memRead s .lb 0 patchLen
    let p ← lift (deserialize s.cfg bs)
    pure (s.setSlot i p)

end Sys2Proof.Machine
end

