-- ==== Sys2Proof/Machine/FieldAccess.lean ====
section
/-! DEFINITION. The access commands of 40_field_access.md: patch fields, names, the logical buffer, and the input and
output buffers. -/

namespace Sys2Proof.Machine

/-! ## Patch fields -/

/-- `SETF s, id, v` (R90). -/
def execSetf (a f v : Byte) (s : State) : Host.Outcome State Fault Refusal :=
  complete s do
    let i ← slotOperand a
    let r ← fieldOperand s.cfg f
    lift (check r.spec (zext f) (fieldValue r.spec v) i)
    pure (s.setSlot i ((s.slot i).setField r (fieldValue r.spec v)))

/-- `GETF s, id` (R91): `RES <- wrap_16(PSTORE[s].field(id))`. -/
def execGetf (a f : Byte) (s : State) : Host.Outcome State Fault Refusal :=
  complete s do
    let i ← slotOperand a
    let r ← fieldOperand s.cfg f
    pure (s.setRes (wrap 16 ((s.slot i).field r)))

/-- `LDDEF s` (R92): `PSTORE[s] <- DEFAULT_PATCH`. -/
def execLddef (a : Byte) (s : State) : Host.Outcome State Fault Refusal :=
  complete s do
    let i ← slotOperand a
    pure (s.setSlot i (defaultPatch s.cfg))

/-! ## Names -/

/-- `NAMECLR s` (R93): `PSTORE[s].name <- []`. -/
def execNameclr (a : Byte) (s : State) : Host.Outcome State Fault Refusal :=
  complete s do
    let i ← slotOperand a
    pure (s.setSlot i { s.slot i with name := [] })

/-- `NAMEADD s, c` (R94): the name is full when `len(PSTORE[s].name) == NAME_MAX`. -/
def execNameadd (a v : Byte) (s : State) : Host.Outcome State Fault Refusal :=
  complete s do
    let i ← slotOperand a
    require ((s.slot i).name.length != nameMax) (atCapacity nameMax)
    pure (s.setSlot i { s.slot i with name := (s.slot i).name ++ [v] })

/-- `GETNAME s, i` (R95). -/
def execGetname (a : Byte) (b : Half) (s : State) : Host.Outcome State Fault Refusal :=
  complete s do
    let i ← slotOperand a
    let n ← indexOperand b (s.slot i).name.length
    pure (s.setRes (((s.slot i).name.getD n 0).setWidth 16))

/-- `GETNLEN s` (R96). -/
def execGetnlen (a : Byte) (s : State) : Host.Outcome State Fault Refusal :=
  complete s do
    let i ← slotOperand a
    pure (s.setRes (BitVec.ofNat 16 (s.slot i).name.length))

/-! ## Logical buffer -/

/-- `SETB o, b` (R97). -/
def execSetb (a v : Byte) (s : State) : Host.Outcome State Fault Refusal :=
  complete s do
    let o ← offsetOperand a
    memWrite s .lb o [v]

/-- `GETB o` (R98). -/
def execGetb (a : Byte) (s : State) : Host.Outcome State Fault Refusal :=
  complete s do
    let o ← offsetOperand a
    let b ← memReadByte s .lb o
    pure (s.setRes (b.setWidth 16))

/-! ## Input and output buffers -/

/-- `PUTIN b` (R99): writes at `IN_LEN` and adds 1 to it. -/
def execPutin (a : Byte) (s : State) : Host.Outcome State Fault Refusal :=
  complete s do
    require (zext s.inLen != inMax) (atCapacity (zext s.inLen))
    let t ← memWrite s .inp (zext s.inLen) [a]
    pure (t.setInLen (zext s.inLen + 1))

/-- `POKEIN b, i` (R100). -/
def execPokein (a : Byte) (b : Half) (s : State) : Host.Outcome State Fault Refusal :=
  complete s do
    let i ← indexOperand b (zext s.inLen)
    memWrite s .inp i [a]

/-- `TRIMIN n` (R101). -/
def execTrimin (b : Half) (s : State) : Host.Outcome State Fault Refusal :=
  complete s do
    let n ← lengthOperand b (zext s.inLen)
    pure (s.setInLen n)

/-- `CLRIN` (R102): `IN_LEN <- 0`. -/
def execClrin (s : State) : Host.Outcome State Fault Refusal :=
  complete s (pure (s.setInLen 0))

/-- `GETIN i` (R103). -/
def execGetin (b : Half) (s : State) : Host.Outcome State Fault Refusal :=
  complete s do
    let i ← indexOperand b (zext s.inLen)
    let v ← memReadByte s .inp i
    pure (s.setRes (v.setWidth 16))

/-- `GETOUT i` (R104). -/
def execGetout (b : Half) (s : State) : Host.Outcome State Fault Refusal :=
  complete s do
    let i ← indexOperand b (zext s.outLen)
    let v ← memReadByte s .out i
    pure (s.setRes (v.setWidth 16))

/-- `XFER` (R105): `IN[0..OUT_LEN-1] <- OUT[0..OUT_LEN-1]`, `IN_LEN <- OUT_LEN`. -/
def execXfer (s : State) : Host.Outcome State Fault Refusal :=
  complete s do
    let bs ← memRead s .out 0 (zext s.outLen)
    let t ← memWrite s .inp 0 bs
    pure (t.setInLen (zext s.outLen))

end Sys2Proof.Machine
end

