-- ==== Sys2Proof/Machine/Framer.lean ====
section
/-! DEFINITION. The framer of 43_framer.md: nibble expansion and contraction, ENCODE and DECODE. -/

namespace Sys2Proof.Machine

/-! ## Nibbles -/

/-- `expand(b) = (b & 0x0F, b >> 4)`, low nibble first (R150, R37). -/
def expand (b : Byte) : Byte × Byte := (b &&& 0x0F, b >>> 4)

/-- `contract(lo, hi)` with `lo` at wire index `p` (R151); under `reject` the low byte is tested first. -/
def contract (policy : NibblePolicy) (lo hi : Byte) (p : Nat) : Except Err Byte :=
  match policy with
  | .reject =>
    if zext lo > 0x0F then .error (nibbleRange p)
    else if zext hi > 0x0F then .error (nibbleRange (p + 1))
    else .ok (BitVec.ofNat 8 (zext lo + zext hi <<< 4))
  | .wrap8 => .ok (BitVec.ofNat 8 (zext lo + zext hi <<< 4))

/-- `NIBX b` (R152): `RES <- (hi << 8) | lo`. -/
def execNibx (a : Byte) (s : State) : Host.Outcome State Fault Refusal :=
  complete s (pure (s.setRes ((expand a).2 ++ (expand a).1)))

/-- `NIBC lo, hi` (R153), with wire positions 0 and 1. -/
def execNibc (a v : Byte) (s : State) : Host.Outcome State Fault Refusal :=
  complete s do
    let b ← lift (contract s.cfg.nibble a v 0)
    pure (s.setRes (b.setWidth 16))

/-! ## ENCODE -/

/-- The header bytes (30_encoding.md R59). -/
def header : List Byte := [0xF0, 0x0F, 0x02]

/-- The footer byte (R59). -/
def footer : Byte := 0xF7

/-- The dump type and the frame's patch count for a patch count `n > 0` (R154). -/
def dumpFor (n : Nat) : Byte × Nat := if n = 1 then (0x01, 1) else (0x02, bankN)

/-- Patch `i` of a frame built from `n` patches: the slot, or a fresh default patch, which reads no state (R156). -/
def framePatch (s : State) (n i : Nat) : Patch := if i < n then s.slot i else defaultPatch s.cfg

/-- The wire index of logical offset `q` of patch `i` (20_memory.md R51). -/
def wireIndex (i q : Nat) : Nat := 5 + 204 * i + 2 * q

/-- The two wire bytes of every logical byte of a run, in order (R155). -/
def expandRun : List Byte → List Byte
  | [] => []
  | b :: bs => (expand b).1 :: (expand b).2 :: expandRun bs

/-- The payload of `m` patches from patch `i` on (R155). -/
def payload (s : State) (n : Nat) : Nat → Nat → Except Err (List Byte)
  | 0, _ => .ok []
  | m + 1, i => do
    let r ← (serialize s.cfg (framePatch s n i)).mapError (fun e => { e with pos := wireIndex i e.pos })
    let rest ← payload s n m (i + 1)
    pure (expandRun r ++ rest)

/-- The whole frame: header, channel, dump type, payload, footer (R36, R51, R155). -/
def frame (s : State) (ch : Byte) (n : Nat) : Except Err (List Byte) := do
  let p ← payload s n (dumpFor n).2 0
  pure (header ++ [ch, (dumpFor n).1] ++ p ++ [footer])

/-- `ENCODE ch, n` (R155): writes OUT and OUT_LEN only. -/
def execEncode (a : Byte) (b : Half) (s : State) : Host.Outcome State Fault Refusal :=
  complete s do
    require (zext b != 0) zeroPatches
    let f ← lift (frame s a (zext b))
    let t ← memWrite s .out 0 f
    pure (t.setOutLen f.length)

/-! ## DECODE (R158, R159) -/

/-- `take()`: the byte at the cursor, and the cursor after it. -/
def take (s : State) (c : Nat) : Cmd (Byte × Nat) := do
  require (c < zext s.inLen) (truncated (zext s.inLen))
  let b ← memReadByte s .inp c
  pure (b, c + 1)

/-- The header bytes still to be read, the first at index `k`. -/
def takeHeader (s : State) : List Byte → Nat → Cmd Nat
  | [], c => .ok c
  | h :: hs, c => do
    let (b, c') ← take s c
    require (b == h) (badHeader c)
    takeHeader s hs c'

/-- `m` nibble pairs: "Both bytes of a pair are taken before `contract` checks them". -/
def takePairs (s : State) : Nat → Nat → Cmd (List Byte × Nat)
  | 0, c => .ok ([], c)
  | m + 1, c => do
    let (lo, c1) ← take s c
    let (hi, c2) ← take s c1
    let b ← lift (contract s.cfg.nibble lo hi c)
    let (bs, c3) ← takePairs s m c2
    pure (b :: bs, c3)

/-- `m` patches, the first being patch `i`: all 204 wire bytes of a patch are contracted before it is deserialized (R159). -/
def takePatches (s : State) : Nat → Nat → Nat → Cmd (List Patch × Nat)
  | 0, _, c => .ok ([], c)
  | m + 1, i, c => do
    let (r, c1) ← takePairs s patchLen c
    let p ← lift ((deserialize s.cfg r).mapError (fun e => { e with pos := wireIndex i e.pos }))
    let (ps, c2) ← takePatches s m (i + 1) c1
    pure (p :: ps, c2)

/-- The patch count a dump-type byte selects (30_encoding.md R60). -/
def patchCount (dt : Byte) : Cmd Nat :=
  if dt = 0x01 then .ok 1 else if dt = 0x02 then .ok bankN else raise badDumpType

/-- `TRAILING_POLICY` at the cursor after the footer (R160). -/
def checkTrailing (s : State) (c : Nat) : Cmd Unit :=
  match s.cfg.trailing with
  | .ignore => .ok ()
  | .reject => require (zext s.inLen ≤ c) (trailing c)

/-- The parsed frame: channel, dump type and patches. -/
def parseFrame (s : State) : Cmd (Byte × Byte × List Patch) := do
  let c ← takeHeader s header 0
  let (ch, c) ← take s c
  let (dt, c) ← take s c
  let n ← patchCount dt
  let (ps, c) ← takePatches s n 0 c
  let (b, c') ← take s c
  require (b == footer) (badFooter c)
  checkTrailing s c'
  pure (ch, dt, ps)

/-- `DECODE` (R158): the slots and the frame registers are written only when the whole frame has parsed (R161). -/
def execDecode (s : State) : Host.Outcome State Fault Refusal :=
  complete s do
    let (ch, dt, ps) ← parseFrame s
    pure ((s.setSlots 0 ps).setFrame ch dt ps.length)

end Sys2Proof.Machine
end

