-- ==== Sys2Proof/Machine/System.lean ====
section
/-! DEFINITION. The system commands of 44_system.md: NOP and SRST. -/

namespace Sys2Proof.Machine

/-- `NOP` (R166): no operation but the STATUS write. -/
def execNop (s : State) : Host.Outcome State Fault Refusal :=
  complete s (pure s)

/-- `SRST` (R167): `reset()`, STICKY included. -/
def execSrst (s : State) : Host.Outcome State Fault Refusal :=
  complete s (pure s.softReset)

end Sys2Proof.Machine
end

