-- ==== Sys2Proof/Machine/Dispatch.lean ====
section
/-! DEFINITION. The meaning of every command: one arm per constructor of `Instr`. -/

namespace Sys2Proof.Machine

def exec (i : Instr) (s : State) : Host.Outcome State Fault Refusal :=
  match i with
  | .nop => Sys2Proof.Machine.execNop s
  | .srst => Sys2Proof.Machine.execSrst s
  | .d2w a => Sys2Proof.Machine.execD2w a s
  | .w2d a => Sys2Proof.Machine.execW2d a s
  | .nibx a => Sys2Proof.Machine.execNibx a s
  | .nibc a v => Sys2Proof.Machine.execNibc a v s
  | .setf a f v => Sys2Proof.Machine.execSetf a f v s
  | .getf a f => Sys2Proof.Machine.execGetf a f s
  | .lddef a => Sys2Proof.Machine.execLddef a s
  | .nameclr a => Sys2Proof.Machine.execNameclr a s
  | .nameadd a v => Sys2Proof.Machine.execNameadd a v s
  | .getname a b => Sys2Proof.Machine.execGetname a b s
  | .getnlen a => Sys2Proof.Machine.execGetnlen a s
  | .setb a v => Sys2Proof.Machine.execSetb a v s
  | .getb a => Sys2Proof.Machine.execGetb a s
  | .putin a => Sys2Proof.Machine.execPutin a s
  | .pokein a b => Sys2Proof.Machine.execPokein a b s
  | .trimin b => Sys2Proof.Machine.execTrimin b s
  | .clrin => Sys2Proof.Machine.execClrin s
  | .getin b => Sys2Proof.Machine.execGetin b s
  | .getout b => Sys2Proof.Machine.execGetout b s
  | .xfer => Sys2Proof.Machine.execXfer s
  | .packName a => Sys2Proof.Machine.execPackName a s
  | .packEnv a k => Sys2Proof.Machine.execPackEnv a k s
  | .packLfo a k => Sys2Proof.Machine.execPackLfo a k s
  | .packOsc a k => Sys2Proof.Machine.execPackOsc a k s
  | .packMisc a => Sys2Proof.Machine.execPackMisc a s
  | .packPatch a => Sys2Proof.Machine.execPackPatch a s
  | .unpackName a => Sys2Proof.Machine.execUnpackName a s
  | .unpackEnv a k => Sys2Proof.Machine.execUnpackEnv a k s
  | .unpackLfo a k => Sys2Proof.Machine.execUnpackLfo a k s
  | .unpackOsc a k => Sys2Proof.Machine.execUnpackOsc a k s
  | .unpackMisc a => Sys2Proof.Machine.execUnpackMisc a s
  | .unpackPatch a => Sys2Proof.Machine.execUnpackPatch a s
  | .encode a b => Sys2Proof.Machine.execEncode a b s
  | .decode => Sys2Proof.Machine.execDecode s

end Sys2Proof.Machine
end

