-- ==== Sys2Proof/Machine/HostPort.lean ====
section
/-! DEFINITION. The host register port of 10_state.md R29 and R30. -/

namespace Sys2Proof.Machine

/-- The address of `CMD` (R29). -/
def cmdAddr : BitVec 4 := 0xF

/-- A host read of the register port (R29): no side effect, so a function of the state. The registers of R29's table at
0x0..0x9, 0 at 0xA..0xE, "Bits above a register's width read as 0"; none for `CMD`, which is write-only (assumption 9). -/
def portRead (s : State) (a : BitVec 4) : Option Half :=
  match a.toNat with
  | 0x0 => some s.res
  | 0x1 => some (s.err.setWidth 16)
  | 0x2 => some (s.sub.setWidth 16)
  | 0x3 => some s.pos
  | 0x4 => some (if s.sticky then 1 else 0)
  | 0x5 => some (s.chan.setWidth 16)
  | 0x6 => some (s.dtype.setWidth 16)
  | 0x7 => some (s.pcount.setWidth 16)
  | 0x8 => some s.inLen
  | 0x9 => some s.outLen
  | 0xF => none
  | _ => some 0

/-- The host's next port write to be made, placed before those it already has pending. -/
def State.pushWrite (s : State) (a : BitVec 4) (w : Word) : State := { s with hostq := ⟨a, w⟩ :: s.hostq }

/-- The state with the host's next write taken off the queue. -/
def State.popWrite (s : State) : State := { s with hostq := s.hostq.tail }

end Sys2Proof.Machine
end

