-- ==== Sys2Proof/WellFormed.lean ====
section
/-! DEFINITION. What must hold before the machine runs. The one ill-formed term of this hardware is a
configuration: "constructed with `minimum > maximum`" or with "a default outside the range" must be refused (R87, R89, I5),
a `MISC_LAYOUT` must be consistent with R119, a range must lie inside its slice's coded range, and `MODSRC_CODE` must
be a bijection (92_eei_decisions.md, parameters).

A command has no check here: its operands have the widths of its format (Syntax.lean). -/

namespace Sys2Proof

/-- The coded range of a field: what its slices can carry (R18, R120). -/
def FieldSpec.codedRange (f : FieldSpec) : Int × Int :=
  match f.cls with
  | .sgn => (-63, 63)
  | _ => (0, 2 ^ f.width - 1)

/-- R87: `mn <= FIELD_DEFAULT(id) <= mx`, with the range inside the coded range. -/
def FieldSpec.rangeOk (c : Config) (f : FieldSpec) : Bool :=
  f.codedRange.1 ≤ f.min && f.min ≤ c.default f && c.default f ≤ f.max && f.max ≤ f.codedRange.2

/-- R119 for one slice of a field of width `w` in a run of length `len`: `hi - lo = vh - vl`, inside the byte, the value
and the run. -/
def Slice.ok (len w : Nat) (sl : Slice) : Bool :=
  sl.byte < len && sl.hi < 8 && sl.lo ≤ sl.hi && sl.vl ≤ sl.vh && sl.vh < w && sl.hi - sl.lo == sl.vh - sl.vl

/-- Two slices share no bit of the run. -/
def Slice.disjoint (a b : Slice) : Bool :=
  a.byte != b.byte || a.hi < b.lo || b.hi < a.lo

/-- A field of one slice, which carries its whole coded value: "A field of width `w` with one slice has `vh = w-1` and
`vl = 0`", and only the LFO source has two (R119). -/
def FieldSpec.oneSliceOk (len : Nat) (f : FieldSpec) : Bool :=
  match f.slices with
  | [sl] => sl.ok len f.width && sl.vl == 0 && sl.vh + 1 == f.width
  | _ => false

/-- Every element of a list is disjoint from every later one. -/
def slicesDisjoint : List Slice → Bool
  | [] => true
  | a :: rest => rest.all (Slice.disjoint a) && slicesDisjoint rest

/-- R119 for a `MISC_LAYOUT`: every field has one well placed slice, and "the slices of a group never overlap". -/
def layoutOk (len : Nat) (fs : List FieldSpec) : Bool :=
  fs.all (FieldSpec.oneSliceOk len) && slicesDisjoint (fs.flatMap (·.slices))

/-- The class and the width of every field are those of R17, whatever its range, default and place. -/
def sameFields (fs std : List FieldSpec) : Bool :=
  fs.map (fun f => (f.cls, f.width)) == std.map (fun f => (f.cls, f.width))

/-- The slices too are those of the table: only `MISC_LAYOUT` is a parameter (R7). -/
def sameSlices (fs std : List FieldSpec) : Bool :=
  fs.map (·.slices) == std.map (·.slices)

/-- `MODSRC_CODE` is a bijection of the 16 sources onto 0..15. -/
def modsrcOk (l : List ModSource) : Bool :=
  l.length == 16 && stdModsrc.all (l.contains ·)

/-- A configuration that the block may have (R7, R87, R89, R119). -/
def Config.wf (c : Config) : Bool :=
  modsrcOk c.modsrc &&
  sameFields c.envFields stdEnvFields && sameSlices c.envFields stdEnvFields &&
  sameFields c.lfoFields stdLfoFields && sameSlices c.lfoFields stdLfoFields &&
  sameFields c.oscFields stdOscFields && sameSlices c.oscFields stdOscFields &&
  sameFields c.miscFields stdMiscFields && layoutOk 14 c.miscFields &&
  c.envFields.all (FieldSpec.rangeOk c) && c.lfoFields.all (FieldSpec.rangeOk c) &&
  c.oscFields.all (FieldSpec.rangeOk c) && c.miscFields.all (FieldSpec.rangeOk c)

end Sys2Proof
end

