-- ==== Sys2Proof/Machine/Step.lean ====
section
/-! DEFINITION. One step: the host's next port write (10_state.md R29, R30), or nothing when the block is idle
(60_exceptions.md R192). -/

namespace Sys2Proof.Machine

/-- A word written to `CMD` executes as one command, or raises `ILLEGAL_CMD` (R30, R56, R57). -/
def runWord (w : Word) (s : State) : Host.Outcome State Fault Refusal :=
  match decode w with
  | .ok i => exec i s
  | .error e => illegal e s

/-- One step of the machine. With no write pending the block is idle and "every piece of its state holds its value" (R192). A
write to an address other than 0xF "has no effect" (R29). A configuration that must be refused runs nothing (R87, R89). -/
def step (s : State) : Host.Outcome State Fault Refusal :=
  match s.hostq with
  | [] => .next s
  | p :: _ =>
    if s.cfg.wf then
      if p.addr = cmdAddr then runWord p.word s.popWrite else .next s.popWrite
    else .refused .badConfig

/-- `s` with the word `w` as the host's next write to `CMD`: the very next step executes it (R30, assumption 1). -/
def State.withFetchWord (s : State) (nbits w : Nat) : State :=
  s.pushWrite cmdAddr (BitVec.ofNat 32 (w % 2 ^ nbits))

end Sys2Proof.Machine
end

