-- ==== Sys2Proof/Safety.lean ====
section
/-! DEFINITION. What counts as a good state and a safe step, in the terms claims use. -/

namespace Sys2Proof.Machine

/-- Every slot holds in-range fields and a name that fits (10_state.md R21). -/
abbrev State.StoreOk (s : State) : Prop := ∀ i : Fin 40, (s.pstore[i]).ok s.cfg = true

/-- The byte spaces are in canonical form, and the lengths are those R25 and R26 allow: `OUT_LEN` is 0 or the length of a
frame. -/
abbrev State.SpacesOk (s : State) : Prop :=
  Memory.wf inMax s.inb = true ∧ Memory.wf outMax s.outb = true ∧ Memory.wf patchLen s.lb = true ∧
  zext s.inLen ≤ inMax ∧ (s.outLen = 0 ∨ s.outLen = 210 ∨ s.outLen = 8166)

/-- STATUS as a command can leave it: code 7 is never written (R171, I8), no error means no subcode and position, and an
error means STICKY (R175). -/
abbrev State.StatusOk (s : State) : Prop :=
  s.err ≠ 7 ∧ (s.err = errNone → s.sub = 0 ∧ s.pos = 0) ∧ (s.err ≠ errNone → s.sticky = true)

/-- The frame registers: none decoded since reset, a single dump, or a bank (R28, 43_framer.md R162). -/
abbrev State.FrameOk (s : State) : Prop :=
  (s.dtype = 0 ∧ s.pcount = 0 ∧ s.chan = 0) ∨ (s.dtype = 0x01 ∧ s.pcount = 1) ∨ (s.dtype = 0x02 ∧ s.pcount = 40)

/-- The invariant of the block. -/
abbrev State.Inv (s : State) : Prop :=
  s.cfg.wf = true ∧ s.StoreOk ∧ s.SpacesOk ∧ s.StatusOk ∧ s.FrameOk

/-- A step that neither faults nor is refused. -/
def State.Safe (s : State) : Prop := ∃ t, step s = .next t

end Sys2Proof.Machine
end

