-- ==== Sys2Proof/Certificates/Slice0/Obligations.lean ====
section
/-! DEFINITION. The statements for the provers, one `def Obligations.<Name> : Prop` each. They are written in the words of the
spec's rules: STATUS after a command, byte formulas of the layout tables, wire indices of the frame map. -/

namespace Sys2Proof.Claims

open Sys2Proof.Machine

/-! ## STATUS (R175) -/

/-- `ERR <- 0; SUB <- 0; POS <- 0`, `STICKY` unchanged. -/
def done (s : State) : State := { s with err := 0, sub := 0, pos := 0 }

/-- `ERR <- e; SUB <- sub; POS <- pos; STICKY <- 1`. -/
def failed (s : State) (e sub pos : Nat) : State :=
  { s with err := BitVec.ofNat 3 e, sub := BitVec.ofNat 8 sub, pos := BitVec.ofNat 16 pos, sticky := true }

/-- `s` with the patch of slot `i` replaced. -/
def withPatch (s : State) (i : Nat) (p : Patch) : State := { s with pstore := s.pstore.setIfInBounds i p }

/-- A list of commands, each run from the state the one before it left (R46). -/
def execAll : List Instr → State → Host.Outcome State Fault Refusal
  | [], s => .next s
  | i :: is, s =>
    match exec i s with
    | .next t => execAll is t
    | .fault f => .fault f
    | .refused r => .refused r

/-- A list of commands, stopping after the first that reports an error. -/
def execUntilError : List Instr → State → State
  | [], s => s
  | i :: is, s =>
    match exec i s with
    | .next t => if t.err = 0 then execUntilError is t else t
    | _ => s

/-! ## Encodings (R53, R55) -/

/-- The assigned opcodes. -/
def assigned : List Nat :=
  [0x00, 0x01, 0x10, 0x11, 0x12, 0x13] ++ [0x20, 0x21, 0x22, 0x23, 0x24, 0x25, 0x26, 0x27] ++
  [0x28, 0x29, 0x2A, 0x2B, 0x2C, 0x2D, 0x2E, 0x2F] ++ [0x30, 0x31, 0x32, 0x33, 0x34, 0x35] ++
  [0x38, 0x39, 0x3A, 0x3B, 0x3C, 0x3D] ++ [0x40, 0x41]

/-- The reserved bits of an assigned opcode's format, which must be 0: A and B for format N, B for A, A for B, B[15:8] for
AB8, B[7:0] for AF, none for AB, AK and AFV. -/
def reservedBits (opc : Nat) : Word :=
  if opc ∈ [0x00, 0x01, 0x2C, 0x2F, 0x41] then 0x00FFFFFF
  else if opc ∈ [0x2B, 0x2D, 0x2E] then 0x00FF0000
  else if opc ∈ [0x13, 0x24, 0x27] then 0x0000FF00
  else if opc = 0x21 then 0x000000FF
  else if opc ∈ [0x20, 0x25, 0x2A, 0x31, 0x32, 0x33, 0x39, 0x3A, 0x3B, 0x40] then 0
  else 0x0000FFFF

/-! ## Group runs by byte (R126, R127, R129, R130)

`b n` is byte `n` of the run as a number; a record is the list of a group's values in `j` order. -/

/-- Value `j` of a record. -/
def val (r : Record) (j : Nat) : Int := r.getD j 0

/-- The seven wire bits of an SGN value: 7-bit two's complement (R116). -/
def wire7 (v : Int) : Int := v % 128

/-- The display value of a wire value other than 64 (R116). -/
def display7 (w : Nat) : Int := if w < 64 then (w : Int) else (w : Int) - 128

/-- The envelope run. -/
def envRun (r : Record) : List Int :=
  [2 * wire7 (val r 0), 2 * wire7 (val r 1), 2 * wire7 (val r 2), val r 3, val r 4, val r 5, val r 6,
   4 * val r 7, val r 8, val r 9]

/-- The LFO run; a record without aux values (R128, policy `drop`) has 0 there. -/
def lfoRun (r : Record) : List Int :=
  [64 * val r 0 + val r 1, 64 * (val r 2 / 4) + val r 6, 64 * (val r 2 % 4) + val r 7,
   128 * val r 3 + 64 * val r 4 + val r 5]

/-- The oscillator run. -/
def oscRun (r : Record) : List Int :=
  [val r 0, 8 * val r 1, 16 * val r 3 + val r 2, 2 * wire7 (val r 4), 2 * wire7 (val r 5), val r 6,
   128 * val r 7 + 2 * val r 8, 16 * val r 10 + val r 9, 2 * wire7 (val r 11), 2 * wire7 (val r 12)]

/-- The MISC run. -/
def miscRun (r : Record) : List Int :=
  [128 * val r 1 + wire7 (val r 0), 128 * val r 3 + val r 2, 128 * val r 5 + 64 * val r 6 + val r 4,
   16 * val r 8 + val r 7, 2 * wire7 (val r 9), 2 * wire7 (val r 10), 128 * val r 12 + val r 11,
   16 * val r 13 + val r 14, 2 * wire7 (val r 15), 128 * val r 17 + 64 * val r 18 + val r 16,
   128 * val r 20 + val r 19, 128 * val r 22 + val r 21, 128 * val r 24 + val r 23, 128 * val r 26 + val r 25]

/-- The record of an envelope run. -/
def envRecord (b : Nat → Nat) : Record :=
  [display7 (b 0 / 2), display7 (b 1 / 2), display7 (b 2 / 2), b 3, b 4, b 5, b 6, (b 7 / 4 : Nat), b 8, b 9]

/-- The record of an LFO run, aux1 and aux2 last. -/
def lfoRecord (b : Nat → Nat) : Record :=
  [(b 0 / 64 : Nat), (b 0 % 64 : Nat), (4 * (b 1 / 64) + b 2 / 64 : Nat), (b 3 / 128 : Nat), (b 3 / 64 % 2 : Nat),
   (b 3 % 64 : Nat), (b 1 % 64 : Nat), (b 2 % 64 : Nat)]

/-- What of an LFO record is held: under `drop`, "aux1 and aux2 do not exist" (R128); that the record then has six values is
the model's reading (assumption 11, DEDUCED). -/
def lfoHeld (p : LfoAuxPolicy) (r : Record) : Record :=
  match p with
  | .preserve => r
  | .drop => r.take 6

/-- The record of an oscillator run. -/
def oscRecord (b : Nat → Nat) : Record :=
  [(b 0 : Nat), (b 1 / 8 : Nat), (b 2 % 16 : Nat), (b 2 / 16 : Nat), display7 (b 3 / 2), display7 (b 4 / 2), (b 5 : Nat),
   (b 6 / 128 : Nat), (b 6 / 2 % 64 : Nat), (b 7 % 16 : Nat), (b 7 / 16 : Nat), display7 (b 8 / 2), display7 (b 9 / 2)]

/-- The record of a MISC run. -/
def miscRecord (b : Nat → Nat) : Record :=
  [display7 (b 0 % 128), (b 0 / 128 : Nat), (b 1 % 128 : Nat), (b 1 / 128 : Nat), (b 2 % 64 : Nat), (b 2 / 128 : Nat),
   (b 2 / 64 % 2 : Nat), (b 3 % 16 : Nat), (b 3 / 16 : Nat), display7 (b 4 / 2), display7 (b 5 / 2), (b 6 % 128 : Nat),
   (b 6 / 128 : Nat), (b 7 / 16 : Nat), (b 7 % 16 : Nat), display7 (b 8 / 2), (b 9 % 64 : Nat), (b 9 / 128 : Nat),
   (b 9 / 64 % 2 : Nat), (b 10 % 128 : Nat), (b 10 / 128 : Nat), (b 11 % 128 : Nat), (b 11 / 128 : Nat),
   (b 12 % 128 : Nat), (b 12 / 128 : Nat), (b 13 % 128 : Nat), (b 13 / 128 : Nat)]

/-- The first entry (wire value, field id, logical offset) of a list whose wire value is the reserved 64 (R64, R124). -/
def firstReserved (l : List (Nat × Nat × Nat)) : Option (Nat × Nat × Nat) := l.find? (fun t => t.1 == 64)

/-- Byte `n` of the run of LB that starts at `base`, as a number. -/
def lbByte (s : State) (base n : Nat) : Nat := (s.lb.read (base + n)).toNat

/-- LB after a run is written at `base`: `run` there, every other byte as it was. -/
def LbIs (m : Memory) (s : State) (base : Nat) (run : List Int) : Prop :=
  ∀ x, m.read x = if base ≤ x ∧ x < base + run.length then BitVec.ofInt 8 (run.getD (x - base) 0) else s.lb.read x

/-- The unused bits of logical byte `o` (R65), the misc layout being that of R130. -/
def unusedBits (o : Nat) : Byte :=
  if o < 6 then 0
  else if o < 46 then (if (o - 6) % 10 ∈ [0, 1, 2] then 0x01 else if (o - 6) % 10 = 7 then 0x03 else 0)
  else if o < 58 then 0
  else if o < 88 then (if (o - 58) % 10 = 1 then 0x07 else if (o - 58) % 10 ∈ [3, 4, 6, 8, 9] then 0x01 else 0)
  else (if o - 88 ∈ [4, 5, 8] then 0x01 else 0)

/-- Some slice of the table covers bit `i` of byte `n` of the group run. -/
def Used (fs : List FieldSpec) (n i : Nat) : Prop := ∃ f ∈ fs, ∃ sl ∈ f.slices, sl.byte = n ∧ sl.lo ≤ i ∧ i ≤ sl.hi

/-! ## Frames (R51, R158) -/

/-- IN opens with the header, and its dump type selects `n` patches (R59, R60). -/
def FrameHead (s : State) (n : Nat) : Prop :=
  s.inb.read 0 = 0xF0 ∧ s.inb.read 1 = 0x0F ∧ s.inb.read 2 = 0x02 ∧
  ((s.inb.read 4 = 0x01 ∧ n = 1) ∨ (s.inb.read 4 = 0x02 ∧ n = 40))

/-- Wire byte `j` of the payload is a nibble, or the policy accepts every byte (R151). -/
def NibbleOk (s : State) (j : Nat) : Prop := s.cfg.nibble = .wrap8 ∨ (s.inb.read (5 + j)).toNat ≤ 0x0F

/-- The 102 logical bytes of patch `i` of the frame in IN: `lo + (hi << 4)` of each wire pair (R51, R151). -/
def wireRun (s : State) (i : Nat) : List Byte :=
  (List.range 102).map fun o =>
    BitVec.ofNat 8 ((s.inb.read (5 + 204 * i + 2 * o)).toNat + 16 * (s.inb.read (6 + 204 * i + 2 * o)).toNat)

/-- Patch `i` of a frame built from the first `n` slots: the slot, or the default patch (R155, R156). -/
def patchFor (s : State) (n i : Nat) : Patch :=
  if h : i < n ∧ i < 40 then s.pstore[i]'h.2 else defaultPatch s.cfg

/-! ## What a host cannot see (R25, R26) -/

/-- Two states that differ at most in the bytes of IN from `IN_LEN` on and of OUT from `OUT_LEN` on. -/
def SameVisible (s t : State) : Prop :=
  t = { s with inb := t.inb, outb := t.outb } ∧
  (∀ x, x < s.inLen.toNat → t.inb.read x = s.inb.read x) ∧ ∀ x, x < s.outLen.toNat → t.outb.read x = s.outb.read x

end Sys2Proof.Claims

section

open Sys2Proof Sys2Proof.Machine Sys2Proof.Claims

/-! ## Reset, status and the step -/

/-- R34: every value after power-on reset, the default patch written out. With IN and OUT empty no byte of them can be read. -/
def Obligations.ResetLeaves : Prop :=
  (∀ i : Fin 40, State.reset.pstore[i] =
    { name := [0x20, 0x20, 0x20, 0x20, 0x20, 0x20]
      env := Vector.replicate 4 [0, 0, 0, 0, 0, 0, 0, 0, 0, 0]
      lfo := Vector.replicate 3 [0, 0, 15, 0, 0, 0, 0, 0]
      osc := Vector.replicate 3 [0, 0, 15, 15, 0, 0, 0, 0, 0, 15, 15, 0, 0]
      misc := [0, 0, 0, 0, 0, 0, 0, 15, 15, 0, 0, 0, 0, 0, 15, 0, 0, 0, 0, 0, 0, 0, 0, 0, 0, 0, 0] }) ∧
  (∀ o, o < 102 → State.reset.lb.read o = 0) ∧
  State.reset.inLen = 0 ∧ State.reset.outLen = 0 ∧ State.reset.res = 0 ∧
  State.reset.err = 0 ∧ State.reset.sub = 0 ∧ State.reset.pos = 0 ∧ State.reset.sticky = false ∧
  State.reset.chan = 0 ∧ State.reset.dtype = 0 ∧ State.reset.pcount = 0 ∧
  (∀ b, exec (.getin b) State.reset = .next (failed State.reset 6 2 b.toNat)) ∧
  (∀ b, exec (.getout b) State.reset = .next (failed State.reset 6 2 b.toNat))

/-- R17, R18, R22, R32 for the parameters of R7: which field each id names, and the class, width, range and default of
every field. -/
def Obligations.FieldTable : Prop :=
  (∀ k, k < 4 → ∀ j, j < 10 → Config.standard.field? (0x00 + 16 * k + j) = (stdEnvFields[j]?).map fun f => ⟨.env, k, j, f⟩) ∧
  (∀ k, k < 3 → ∀ j, j < 8 → Config.standard.field? (0x40 + 8 * k + j) = (stdLfoFields[j]?).map fun f => ⟨.lfo, k, j, f⟩) ∧
  (∀ k, k < 3 → ∀ j, j < 13 → Config.standard.field? (0x60 + 16 * k + j) = (stdOscFields[j]?).map fun f => ⟨.osc, k, j, f⟩) ∧
  (∀ j, j < 27 → Config.standard.field? (0xA0 + j) = (stdMiscFields[j]?).map fun f => ⟨.misc, 0, j, f⟩) ∧
  (∀ id, id < 256 →
    (¬∃ k j, k < 4 ∧ j < 10 ∧ id = 0x00 + 16 * k + j) → (¬∃ k j, k < 3 ∧ j < 8 ∧ id = 0x40 + 8 * k + j) →
    (¬∃ k j, k < 3 ∧ j < 13 ∧ id = 0x60 + 16 * k + j) → (¬∃ j, j < 27 ∧ id = 0xA0 + j) →
    Config.standard.field? id = none) ∧
  stdEnvFields.map (fun f => (f.cls, f.width, f.min, f.max, Config.standard.default f)) =
    [(.sgn, 7, -63, 63, 0), (.sgn, 7, -63, 63, 0), (.sgn, 7, -63, 63, 0), (.raw, 8, 0, 255, 0), (.raw, 8, 0, 255, 0),
     (.raw, 8, 0, 255, 0), (.raw, 8, 0, 255, 0), (.raw, 6, 0, 63, 0), (.raw, 8, 0, 255, 0), (.raw, 8, 0, 255, 0)] ∧
  stdLfoFields.map (fun f => (f.cls, f.width, f.min, f.max, Config.standard.default f)) =
    [(.raw, 2, 0, 3, 0), (.raw, 6, 0, 63, 0), (.src, 4, 0, 15, 15), (.bool, 1, 0, 1, 0), (.bool, 1, 0, 1, 0),
     (.raw, 6, 0, 63, 0), (.aux, 6, 0, 63, 0), (.aux, 6, 0, 63, 0)] ∧
  stdOscFields.map (fun f => (f.cls, f.width, f.min, f.max, Config.standard.default f)) =
    [(.raw, 8, 0, 255, 0), (.raw, 5, 0, 31, 0), (.src, 4, 0, 15, 15), (.src, 4, 0, 15, 15), (.sgn, 7, -63, 63, 0),
     (.sgn, 7, -63, 63, 0), (.raw, 8, 0, 255, 0), (.bool, 1, 0, 1, 0), (.raw, 6, 0, 63, 0), (.src, 4, 0, 15, 15),
     (.src, 4, 0, 15, 15), (.sgn, 7, -63, 63, 0), (.sgn, 7, -63, 63, 0)] ∧
  stdMiscFields.map (fun f => (f.cls, f.width, f.min, f.max, Config.standard.default f)) =
    [(.sgn, 7, -63, 63, 0), (.bool, 1, 0, 1, 0), (.raw, 7, 0, 127, 0), (.bool, 1, 0, 1, 0), (.aux, 6, 0, 63, 0),
     (.bool, 1, 0, 1, 0), (.bool, 1, 0, 1, 0), (.src, 4, 0, 15, 15), (.src, 4, 0, 15, 15), (.sgn, 7, -63, 63, 0),
     (.sgn, 7, -63, 63, 0), (.raw, 7, 0, 127, 0), (.bool, 1, 0, 1, 0), (.raw, 4, 0, 15, 0), (.src, 4, 0, 15, 15),
     (.sgn, 7, -63, 63, 0), (.raw, 6, 0, 63, 0), (.bool, 1, 0, 1, 0), (.bool, 1, 0, 1, 0), (.raw, 7, 0, 127, 0),
     (.bool, 1, 0, 1, 0), (.raw, 7, 0, 127, 0), (.bool, 1, 0, 1, 0), (.raw, 7, 0, 127, 0), (.bool, 1, 0, 1, 0),
     (.raw, 7, 0, 127, 0), (.bool, 1, 0, 1, 0)] ∧
  Config.standard.modsrc =
    [.lfo1, .lfo2, .lfo3, .env1, .env2, .env3, .env4, .velocity, .velocityNonlinear, .keyboard1, .keyboard2, .wheel,
     .pedal, .external, .aftertouch, .off]

/-- R149: the default run. -/
def Obligations.DefaultRun : Prop :=
  serialize Config.standard (defaultPatch Config.standard) = .ok
    ([0x20, 0x20, 0x20, 0x20, 0x20, 0x20] ++ List.replicate 40 0x00 ++
      [0x00, 0xC0, 0xC0, 0x00] ++ [0x00, 0xC0, 0xC0, 0x00] ++ [0x00, 0xC0, 0xC0, 0x00] ++
      [0x00, 0x00, 0xFF, 0x00, 0x00, 0x00, 0x00, 0xFF, 0x00, 0x00] ++
      [0x00, 0x00, 0xFF, 0x00, 0x00, 0x00, 0x00, 0xFF, 0x00, 0x00] ++
      [0x00, 0x00, 0xFF, 0x00, 0x00, 0x00, 0x00, 0xFF, 0x00, 0x00] ++
      [0x00, 0x00, 0x00, 0xFF, 0x00, 0x00, 0x00, 0x0F, 0x00, 0x00, 0x00, 0x00, 0x00, 0x00])

/-- R29: the register read port, and a host write to an address other than 0xF. -/
def Obligations.PortMap : Prop :=
  (∀ s, portRead s 0x0 = some s.res ∧ portRead s 0x1 = some (BitVec.ofNat 16 s.err.toNat) ∧
    portRead s 0x2 = some (BitVec.ofNat 16 s.sub.toNat) ∧ portRead s 0x3 = some s.pos ∧
    portRead s 0x4 = some (BitVec.ofNat 16 s.sticky.toNat) ∧ portRead s 0x5 = some (BitVec.ofNat 16 s.chan.toNat) ∧
    portRead s 0x6 = some (BitVec.ofNat 16 s.dtype.toNat) ∧ portRead s 0x7 = some (BitVec.ofNat 16 s.pcount.toNat) ∧
    portRead s 0x8 = some s.inLen ∧ portRead s 0x9 = some s.outLen ∧
    (∀ a ∈ [0xA, 0xB, 0xC, 0xD, 0xE], portRead s a = some 0) ∧ portRead s 0xF = none) ∧
  (∀ s p rest, s.cfg.wf = true → s.hostq = p :: rest → p.addr ≠ 0xF → step s = .next { s with hostq := rest })

/-- R30, R58: the word at the head of the host's queue, written to `CMD`, is decoded and executed as one command; a word that is
no command is refused with `ILLEGAL_CMD`; `withFetchWord` places such a write; with nothing written the block is idle. -/
def Obligations.StepRunsDecoded : Prop :=
  (∀ s w rest i, s.cfg.wf = true → s.hostq = ⟨0xF, w⟩ :: rest → decode w = .ok i →
    step s = exec i { s with hostq := rest }) ∧
  (∀ s w rest e, s.cfg.wf = true → s.hostq = ⟨0xF, w⟩ :: rest → decode w = .error e →
    step s = .next (failed { s with hostq := rest } 5 (match e with | .unassigned _ => 0 | .reservedField _ => 1)
      (w.toNat / 2 ^ 24))) ∧
  (∀ s w i, s.cfg.wf = true → w < 2 ^ 32 → decode (BitVec.ofNat 32 w) = .ok i → step (s.withFetchWord 32 w) = exec i s) ∧
  (∀ s, s.hostq = [] → step s = .next s)

/-- R175, R176: what any word written to `CMD` does to STATUS, and that a command which reports an error changes nothing
else. -/
def Obligations.StatusDiscipline : Prop :=
  ∀ w s t, runWord w s = .next t →
    (t.err = 0 → t.sub = 0 ∧ t.pos = 0 ∧ (w ≠ 0x01000000 → t.sticky = s.sticky) ∧ (w = 0x01000000 → t.sticky = false)) ∧
    (t.err ≠ 0 → t = { s with err := t.err, sub := t.sub, pos := t.pos, sticky := true })

/-! ## Decoding -/

/-- R52 to R55: decode reads back every operand of every encoded command. -/
def Obligations.DecodeEncode : Prop := ∀ i, decode (encode i) = .ok i

/-- R53, R55, R57: a word that decodes is the word of the command it decodes to, so no bit of it is dropped. -/
def Obligations.EncodeDecode : Prop := ∀ w i, decode w = .ok i → encode i = w

/-- R56, R57, R173: an unassigned opcode, and an assigned one with a nonzero reserved field. -/
def Obligations.IllegalWords : Prop :=
  (∀ w s, w.toNat / 2 ^ 24 ∉ assigned → runWord w s = .next (failed s 5 0 (w.toNat / 2 ^ 24))) ∧
  (∀ w s, w.toNat / 2 ^ 24 ∈ assigned → w &&& reservedBits (w.toNat / 2 ^ 24) ≠ 0 →
    runWord w s = .next (failed s 5 1 (w.toNat / 2 ^ 24))) ∧
  (∀ w, w.toNat / 2 ^ 24 ∈ assigned → w &&& reservedBits (w.toNat / 2 ^ 24) = 0 → ∃ i, decode w = .ok i)

/-- Words written out in the spec's examples; each follows from the opcode map R55, the formats R53 and R69. -/
def Obligations.DecodeSampleWords : Prop :=
  decode 0x00000000 = .ok .nop ∧ decode 0x10FB0000 = .ok (.d2w 0xFB) ∧ decode 0x117B0000 = .ok (.w2d 0x7B) ∧
  decode 0x12A70000 = .ok (.nibx 0xA7) ∧ decode 0x1307000A = .ok (.nibc 7 10) ∧
  decode 0x200000EC = .ok (.setf 0 0 0xEC) ∧ decode 0x24000061 = .ok (.nameadd 0 0x61) ∧
  decode 0x27060080 = .ok (.setb 6 0x80) ∧ decode 0x29F00000 = .ok (.putin 0xF0) ∧
  decode 0x2A0000D1 = .ok (.pokein 0 209) ∧ decode 0x2B000064 = .ok (.trimin 100) ∧
  decode 0x31000003 = .ok (.packEnv 0 3) ∧ decode 0x3D020000 = .ok (.unpackPatch 2) ∧
  decode 0x40030001 = .ok (.encode 3 1) ∧ decode 0x41000000 = .ok .decode

/-! ## System commands -/

/-- R166: NOP changes STATUS only; its word with any other bit set is illegal. -/
def Obligations.NopOnlyStatus : Prop :=
  (∀ s, decode 0x00000000 = .ok .nop ∧ exec .nop s = .next (done s)) ∧
  (∀ w s, w.toNat / 2 ^ 24 = 0x00 → w ≠ 0x00000000 → runWord w s = .next (failed s 5 1 0x00))

/-- R167, R193: SRST gives every piece of state its reset value, keeps the contents of IN and OUT, and leaves what power-on
leaves; a word 0x01xxxxxx with another bit set does not reset. -/
def Obligations.SoftReset : Prop :=
  (∀ s, decode 0x01000000 = .ok .srst ∧ ∃ t, exec .srst s = .next t ∧
    (∀ i : Fin 40, t.pstore[i] = defaultPatch s.cfg) ∧ (∀ o, o < 102 → t.lb.read o = 0) ∧
    t.inLen = 0 ∧ t.outLen = 0 ∧ t.res = 0 ∧ t.err = 0 ∧ t.sub = 0 ∧ t.pos = 0 ∧ t.sticky = false ∧
    t.chan = 0 ∧ t.dtype = 0 ∧ t.pcount = 0 ∧ t.inb = s.inb ∧ t.outb = s.outb ∧ t.cfg = s.cfg ∧ t.hostq = s.hostq) ∧
  (∀ s, s.cfg = Config.standard →
    exec .srst s = .next { State.reset with inb := s.inb, outb := s.outb, hostq := s.hostq }) ∧
  (∀ w s, w.toNat / 2 ^ 24 = 0x01 → w ≠ 0x01000000 → runWord w s = .next (failed s 5 1 0x01))

/-! ## Range codec -/

/-- R111, R112, R115, R116: the sign codec, its errors, and that it is a bijection of -63..63 onto 0..127 without 64 which
is 7-bit two's complement. -/
def Obligations.SignCodec : Prop :=
  (∀ sub pos v, -63 ≤ v → v ≤ 63 → ∃ w, d2w sub pos v = .ok w ∧ w ≤ 127 ∧ w ≠ 64 ∧
    (w : Int) = (if v < 0 then 128 + v else v) ∧ w = (BitVec.ofInt 7 v).toNat ∧
    ∀ p sub' pos', w2d p sub' pos' w = .ok v) ∧
  (∀ sub pos v, v < -63 ∨ 63 < v → d2w sub pos v = .error ⟨.range, sub, pos⟩) ∧
  (∀ p sub pos w, w ≤ 127 → w ≠ 64 → ∃ v, w2d p sub pos w = .ok v ∧ -63 ≤ v ∧ v ≤ 63 ∧
    v = (if w < 64 then (w : Int) else (w : Int) - 128) ∧ v = (BitVec.ofNat 7 w).toInt ∧
    ∀ sub' pos', d2w sub' pos' v = .ok w) ∧
  (∀ p sub pos, w2d p sub pos 64 = .error ⟨.invalidCode, sub, pos⟩) ∧
  (∀ p sub pos w, 127 < w → w2d p sub pos w = .error ⟨.range, sub, pos⟩)

/-- R113: D2W. -/
def Obligations.D2wResult : Prop := ∀ s a,
  decode (0x10#8 ++ a ++ 0#16) = .ok (.d2w a) ∧
  (-63 ≤ a.toInt → a.toInt ≤ 63 →
    exec (.d2w a) s = .next (done { s with res := BitVec.ofInt 16 (if a.toInt < 0 then 128 + a.toInt else a.toInt) })) ∧
  (a.toInt < -63 ∨ 63 < a.toInt → exec (.d2w a) s = .next (failed s 1 0xFF 0))

/-- R114: W2D. -/
def Obligations.W2dResult : Prop := ∀ s a,
  decode (0x11#8 ++ a ++ 0#16) = .ok (.w2d a) ∧
  (a.toNat < 64 → exec (.w2d a) s = .next (done { s with res := BitVec.ofNat 16 a.toNat })) ∧
  (64 < a.toNat → a.toNat ≤ 127 →
    exec (.w2d a) s = .next (done { s with res := BitVec.ofInt 16 ((a.toNat : Int) - 128) })) ∧
  (a.toNat = 64 → exec (.w2d a) s = .next (failed s 4 0xFF 0)) ∧
  (127 < a.toNat → exec (.w2d a) s = .next (failed s 1 0xFF 0))

/-! ## Patch fields -/

/-- R90, R86, R88: SETF writes the named field of the named slot, and nothing else; a bad slot, a bad id and a value outside
the field's range are refused in that order. -/
def Obligations.SetfResult : Prop := ∀ s a f v,
  decode (0x20#8 ++ a ++ f ++ v) = .ok (.setf a f v) ∧
  (40 ≤ a.toNat → exec (.setf a f v) s = .next (failed s 6 1 a.toNat)) ∧
  (a.toNat < 40 → s.cfg.field? f.toNat = none → exec (.setf a f v) s = .next (failed s 6 2 f.toNat)) ∧
  (∀ r x, a.toNat < 40 → s.cfg.field? f.toNat = some r →
    x = (if r.spec.cls = .sgn then v.toInt else (v.toNat : Int)) →
    (x < r.spec.min ∨ r.spec.max < x → exec (.setf a f v) s = .next (failed s 1 f.toNat a.toNat)) ∧
    (∀ h : a.toNat < 40, s.StoreOk → r.spec.min ≤ x → x ≤ r.spec.max →
      ∃ p, exec (.setf a f v) s = .next (done (withPatch s a.toNat p)) ∧ p.ok s.cfg = true ∧
        p.name = s.pstore[a.toNat].name ∧ p.field r = x ∧
        ∀ id r', s.cfg.field? id = some r' → id ≠ f.toNat → p.field r' = s.pstore[a.toNat].field r'))

/-- R91: GETF. -/
def Obligations.GetfResult : Prop := ∀ s a f,
  decode (0x21#8 ++ a ++ f ++ 0#8) = .ok (.getf a f) ∧
  (40 ≤ a.toNat → exec (.getf a f) s = .next (failed s 6 1 a.toNat)) ∧
  (a.toNat < 40 → s.cfg.field? f.toNat = none → exec (.getf a f) s = .next (failed s 6 2 f.toNat)) ∧
  (∀ (h : a.toNat < 40) r, s.cfg.field? f.toNat = some r →
    exec (.getf a f) s = .next (done { s with res := BitVec.ofInt 16 (s.pstore[a.toNat].field r) }))

/-- R92: LDDEF. -/
def Obligations.LddefResult : Prop := ∀ s a,
  decode (0x22#8 ++ a ++ 0#16) = .ok (.lddef a) ∧
  (40 ≤ a.toNat → exec (.lddef a) s = .next (failed s 6 1 a.toNat)) ∧
  (a.toNat < 40 → exec (.lddef a) s = .next (done (withPatch s a.toNat (defaultPatch s.cfg)))) ∧
  (defaultPatch s.cfg).name = [0x20, 0x20, 0x20, 0x20, 0x20, 0x20]

/-! ## Names -/

/-- R93, R94: NAMECLR and NAMEADD. -/
def Obligations.NameWrites : Prop := ∀ s a v,
  decode (0x23#8 ++ a ++ 0#16) = .ok (.nameclr a) ∧ decode (0x24#8 ++ a ++ 0#8 ++ v) = .ok (.nameadd a v) ∧
  (40 ≤ a.toNat → exec (.nameclr a) s = .next (failed s 6 1 a.toNat) ∧
    exec (.nameadd a v) s = .next (failed s 6 1 a.toNat)) ∧
  (∀ h : a.toNat < 40,
    exec (.nameclr a) s = .next (done (withPatch s a.toNat { s.pstore[a.toNat] with name := [] })) ∧
    (s.pstore[a.toNat].name.length = 32 → exec (.nameadd a v) s = .next (failed s 6 3 32)) ∧
    (s.pstore[a.toNat].name.length ≠ 32 → exec (.nameadd a v) s =
      .next (done (withPatch s a.toNat { s.pstore[a.toNat] with name := s.pstore[a.toNat].name ++ [v] }))))

/-- R95, R96: GETNAME and GETNLEN. -/
def Obligations.NameReads : Prop := ∀ s a b,
  decode (0x25#8 ++ a ++ b) = .ok (.getname a b) ∧ decode (0x26#8 ++ a ++ 0#16) = .ok (.getnlen a) ∧
  (40 ≤ a.toNat → exec (.getname a b) s = .next (failed s 6 1 a.toNat) ∧
    exec (.getnlen a) s = .next (failed s 6 1 a.toNat)) ∧
  (∀ h : a.toNat < 40,
    (∀ hb : b.toNat < s.pstore[a.toNat].name.length, exec (.getname a b) s =
      .next (done { s with res := BitVec.ofNat 16 (s.pstore[a.toNat].name[b.toNat]).toNat })) ∧
    (s.pstore[a.toNat].name.length ≤ b.toNat → exec (.getname a b) s = .next (failed s 6 2 b.toNat)) ∧
    exec (.getnlen a) s = .next (done { s with res := BitVec.ofNat 16 s.pstore[a.toNat].name.length }))

/-! ## Logical buffer -/

/-- R97, R98: SETB and GETB. -/
def Obligations.LogicalByte : Prop := ∀ s a v,
  decode (0x27#8 ++ a ++ 0#8 ++ v) = .ok (.setb a v) ∧ decode (0x28#8 ++ a ++ 0#16) = .ok (.getb a) ∧
  (102 ≤ a.toNat → exec (.setb a v) s = .next (failed s 6 1 a.toNat) ∧
    exec (.getb a) s = .next (failed s 6 1 a.toNat)) ∧
  (a.toNat < 102 → ∃ m, exec (.setb a v) s = .next (done { s with lb := m }) ∧
    ∀ x, m.read x = if x = a.toNat then v else s.lb.read x) ∧
  (a.toNat < 102 → exec (.getb a) s = .next (done { s with res := BitVec.ofNat 16 (s.lb.read a.toNat).toNat }))

/-! ## Input and output buffers -/

/-- R99: PUTIN. -/
def Obligations.PutinResult : Prop := ∀ s a,
  decode (0x29#8 ++ a ++ 0#16) = .ok (.putin a) ∧
  (s.inLen.toNat = 8192 → exec (.putin a) s = .next (failed s 6 3 8192)) ∧
  (s.inLen.toNat < 8192 →
    ∃ m, exec (.putin a) s = .next (done { s with inb := m, inLen := BitVec.ofNat 16 (s.inLen.toNat + 1) }) ∧
      ∀ x, m.read x = if x = s.inLen.toNat then a else s.inb.read x)

/-- R100: POKEIN. -/
def Obligations.PokeinResult : Prop := ∀ s a b,
  decode (0x2A#8 ++ a ++ b) = .ok (.pokein a b) ∧
  (s.inLen.toNat ≤ b.toNat → exec (.pokein a b) s = .next (failed s 6 2 b.toNat)) ∧
  (s.inLen.toNat ≤ 8192 → b.toNat < s.inLen.toNat →
    ∃ m, exec (.pokein a b) s = .next (done { s with inb := m }) ∧
      ∀ x, m.read x = if x = b.toNat then a else s.inb.read x)

/-- R101, R102: TRIMIN and CLRIN. -/
def Obligations.InLength : Prop := ∀ s b,
  decode (0x2B#8 ++ 0#8 ++ b) = .ok (.trimin b) ∧ decode 0x2C000000 = .ok .clrin ∧
  (s.inLen.toNat < b.toNat → exec (.trimin b) s = .next (failed s 6 2 b.toNat)) ∧
  (b.toNat ≤ s.inLen.toNat → exec (.trimin b) s = .next (done { s with inLen := b })) ∧
  exec .clrin s = .next (done { s with inLen := 0 })

/-- R103: GETIN. -/
def Obligations.GetinResult : Prop := ∀ s b,
  decode (0x2D#8 ++ 0#8 ++ b) = .ok (.getin b) ∧
  (s.inLen.toNat ≤ b.toNat → exec (.getin b) s = .next (failed s 6 2 b.toNat)) ∧
  (s.inLen.toNat ≤ 8192 → b.toNat < s.inLen.toNat →
    exec (.getin b) s = .next (done { s with res := BitVec.ofNat 16 (s.inb.read b.toNat).toNat }))

/-- R104: GETOUT. -/
def Obligations.GetoutResult : Prop := ∀ s b,
  decode (0x2E#8 ++ 0#8 ++ b) = .ok (.getout b) ∧
  (s.outLen.toNat ≤ b.toNat → exec (.getout b) s = .next (failed s 6 2 b.toNat)) ∧
  (s.outLen.toNat ≤ 8166 → b.toNat < s.outLen.toNat →
    exec (.getout b) s = .next (done { s with res := BitVec.ofNat 16 (s.outb.read b.toNat).toNat }))

/-- R105: XFER. -/
def Obligations.XferResult : Prop := ∀ s, decode 0x2F000000 = .ok .xfer ∧
  (s.outLen.toNat ≤ 8166 →
    ∃ m, exec .xfer s = .next (done { s with inb := m, inLen := s.outLen }) ∧
      ∀ x, m.read x = if x < s.outLen.toNat then s.outb.read x else s.inb.read x)

/-- R25, R26: no command can tell two states apart that differ only in bytes of IN at or above `IN_LEN` and bytes of OUT at
or above `OUT_LEN`. -/
def Obligations.HiddenBytesUnobservable : Prop := ∀ i s s' t,
  SameVisible s s' → exec i s = .next t → ∃ t', exec i s' = .next t' ∧ SameVisible t t'

/-! ## Bit-packer -/

/-- R132, R131: PACK_NAME writes the upper-cased name, padded with spaces or cut to six bytes, at offsets 0..5. -/
def Obligations.PackName : Prop := ∀ s a,
  decode (0x30#8 ++ a ++ 0#16) = .ok (.packName a) ∧
  (40 ≤ a.toNat → exec (.packName a) s = .next (failed s 6 1 a.toNat)) ∧
  (∀ h : a.toNat < 40, ∃ m, exec (.packName a) s = .next (done { s with lb := m }) ∧
    ∀ x, m.read x =
      if x < 6 then
        (match s.pstore[a.toNat].name[x]? with
        | some c => if 0x61 ≤ c.toNat ∧ c.toNat ≤ 0x7A then BitVec.ofNat 8 (c.toNat - 0x20) else c
        | none => 0x20)
      else s.lb.read x)

/-- R134, R126: PACK_ENV, byte by byte. -/
def Obligations.PackEnv : Prop := ∀ s a k,
  decode (0x31#8 ++ a ++ k) = .ok (.packEnv a k) ∧
  (40 ≤ a.toNat → exec (.packEnv a k) s = .next (failed s 6 1 a.toNat)) ∧
  (a.toNat < 40 → 4 ≤ k.toNat → exec (.packEnv a k) s = .next (failed s 6 2 k.toNat)) ∧
  (∀ (h : a.toNat < 40) (hk : k.toNat < 4), s.StoreOk → s.cfg.envFields = stdEnvFields →
    ∃ m, exec (.packEnv a k) s = .next (done { s with lb := m }) ∧
      LbIs m s (6 + 10 * k.toNat) (envRun (s.pstore[a.toNat].env[k.toNat])))

/-- R135, R127, R128: PACK_LFO, byte by byte, under either aux policy. That a record has no aux values under `drop`, and 0 is
written there, is the model's reading of R128 (assumption 11). -/
def Obligations.PackLfo : Prop := ∀ s a k,
  decode (0x32#8 ++ a ++ k) = .ok (.packLfo a k) ∧
  (40 ≤ a.toNat → exec (.packLfo a k) s = .next (failed s 6 1 a.toNat)) ∧
  (a.toNat < 40 → 3 ≤ k.toNat → exec (.packLfo a k) s = .next (failed s 6 2 k.toNat)) ∧
  (∀ (h : a.toNat < 40) (hk : k.toNat < 3), s.StoreOk → s.cfg.lfoFields = stdLfoFields →
    ∃ m, exec (.packLfo a k) s = .next (done { s with lb := m }) ∧
      LbIs m s (46 + 4 * k.toNat) (lfoRun (s.pstore[a.toNat].lfo[k.toNat])))

/-- R136, R129: PACK_OSC, byte by byte. -/
def Obligations.PackOsc : Prop := ∀ s a k,
  decode (0x33#8 ++ a ++ k) = .ok (.packOsc a k) ∧
  (40 ≤ a.toNat → exec (.packOsc a k) s = .next (failed s 6 1 a.toNat)) ∧
  (a.toNat < 40 → 3 ≤ k.toNat → exec (.packOsc a k) s = .next (failed s 6 2 k.toNat)) ∧
  (∀ (h : a.toNat < 40) (hk : k.toNat < 3), s.StoreOk → s.cfg.oscFields = stdOscFields →
    ∃ m, exec (.packOsc a k) s = .next (done { s with lb := m }) ∧
      LbIs m s (58 + 10 * k.toNat) (oscRun (s.pstore[a.toNat].osc[k.toNat])))

/-- R137, R130: PACK_MISC, byte by byte. -/
def Obligations.PackMisc : Prop := ∀ s a,
  decode (0x34#8 ++ a ++ 0#16) = .ok (.packMisc a) ∧
  (40 ≤ a.toNat → exec (.packMisc a) s = .next (failed s 6 1 a.toNat)) ∧
  (∀ h : a.toNat < 40, s.StoreOk → s.cfg.miscFields = stdMiscFields →
    ∃ m, exec (.packMisc a) s = .next (done { s with lb := m }) ∧ LbIs m s 88 (miscRun s.pstore[a.toNat].misc))

/-- R138: PACK_PATCH writes the serialized slot into all of LB, which is what PACK_NAME and the eleven group packs do one after
the other. -/
def Obligations.PackPatchIsTheSequence : Prop := ∀ s a,
  decode (0x35#8 ++ a ++ 0#16) = .ok (.packPatch a) ∧
  (40 ≤ a.toNat → exec (.packPatch a) s = .next (failed s 6 1 a.toNat)) ∧
  (∀ h : a.toNat < 40, s.Inv →
    (∃ m bs, serialize s.cfg s.pstore[a.toNat] = .ok bs ∧ bs.length = 102 ∧
      exec (.packPatch a) s = .next (done { s with lb := m }) ∧
      ∀ x, m.read x = if x < 102 then bs.getD x 0 else s.lb.read x) ∧
    exec (.packPatch a) s = execAll
      [.packName a, .packEnv a 0, .packEnv a 1, .packEnv a 2, .packEnv a 3, .packLfo a 0, .packLfo a 1, .packLfo a 2,
       .packOsc a 0, .packOsc a 1, .packOsc a 2, .packMisc a] s)

/-- R133: UNPACK_NAME takes the six bytes as they are. -/
def Obligations.UnpackName : Prop := ∀ s a,
  decode (0x38#8 ++ a ++ 0#16) = .ok (.unpackName a) ∧
  (40 ≤ a.toNat → exec (.unpackName a) s = .next (failed s 6 1 a.toNat)) ∧
  (∀ h : a.toNat < 40, exec (.unpackName a) s =
    .next (done (withPatch s a.toNat { s.pstore[a.toNat] with
      name := [s.lb.read 0, s.lb.read 1, s.lb.read 2, s.lb.read 3, s.lb.read 4, s.lb.read 5] })))

/-- R139, R126: UNPACK_ENV, value by value; the first level that holds 64 is the error. -/
def Obligations.UnpackEnv : Prop := ∀ s a k,
  decode (0x39#8 ++ a ++ k) = .ok (.unpackEnv a k) ∧
  (40 ≤ a.toNat → exec (.unpackEnv a k) s = .next (failed s 6 1 a.toNat)) ∧
  (a.toNat < 40 → 4 ≤ k.toNat → exec (.unpackEnv a k) s = .next (failed s 6 2 k.toNat)) ∧
  (∀ (h : a.toNat < 40) (_ : k.toNat < 4) (base : Nat) (b : Nat → Nat), s.cfg.envFields = stdEnvFields →
    s.cfg.unused = .ignore → base = 6 + 10 * k.toNat → b = lbByte s base →
    match firstReserved [(b 0 / 2, 16 * k.toNat + 0, base + 0), (b 1 / 2, 16 * k.toNat + 1, base + 1),
        (b 2 / 2, 16 * k.toNat + 2, base + 2)] with
    | some (_, id, off) => exec (.unpackEnv a k) s = .next (failed s 4 id off)
    | none => exec (.unpackEnv a k) s = .next (done (withPatch s a.toNat
        { s.pstore[a.toNat] with env := s.pstore[a.toNat].env.setIfInBounds k.toNat (envRecord b) })))

/-- R140, R127, R128: UNPACK_LFO, value by value; the data raises no error. Under `drop` the two aux values are not held, which
is the model's reading of R128 (assumption 11). -/
def Obligations.UnpackLfo : Prop := ∀ s a k,
  decode (0x3A#8 ++ a ++ k) = .ok (.unpackLfo a k) ∧
  (40 ≤ a.toNat → exec (.unpackLfo a k) s = .next (failed s 6 1 a.toNat)) ∧
  (a.toNat < 40 → 3 ≤ k.toNat → exec (.unpackLfo a k) s = .next (failed s 6 2 k.toNat)) ∧
  (∀ (h : a.toNat < 40) r, k.toNat < 3 → s.cfg.lfoFields = stdLfoFields → s.cfg.unused = .ignore →
    r = lfoHeld s.cfg.lfoAux (lfoRecord (lbByte s (46 + 4 * k.toNat))) →
    exec (.unpackLfo a k) s = .next (done (withPatch s a.toNat
      { s.pstore[a.toNat] with lfo := s.pstore[a.toNat].lfo.setIfInBounds k.toNat r })))

/-- R141, R129: UNPACK_OSC, value by value; the first amount that holds 64 is the error. -/
def Obligations.UnpackOsc : Prop := ∀ s a k,
  decode (0x3B#8 ++ a ++ k) = .ok (.unpackOsc a k) ∧
  (40 ≤ a.toNat → exec (.unpackOsc a k) s = .next (failed s 6 1 a.toNat)) ∧
  (a.toNat < 40 → 3 ≤ k.toNat → exec (.unpackOsc a k) s = .next (failed s 6 2 k.toNat)) ∧
  (∀ (h : a.toNat < 40) (_ : k.toNat < 3) (base id : Nat) (b : Nat → Nat), s.cfg.oscFields = stdOscFields →
    s.cfg.unused = .ignore → base = 58 + 10 * k.toNat → id = 0x60 + 16 * k.toNat → b = lbByte s base →
    match firstReserved [(b 3 / 2, id + 4, base + 3), (b 4 / 2, id + 5, base + 4), (b 8 / 2, id + 11, base + 8),
        (b 9 / 2, id + 12, base + 9)] with
    | some (_, id', off) => exec (.unpackOsc a k) s = .next (failed s 4 id' off)
    | none => exec (.unpackOsc a k) s = .next (done (withPatch s a.toNat
        { s.pstore[a.toNat] with osc := s.pstore[a.toNat].osc.setIfInBounds k.toNat (oscRecord b) })))

/-- R142, R130: UNPACK_MISC, value by value; the first SGN field that holds 64 is the error. -/
def Obligations.UnpackMisc : Prop := ∀ s a,
  decode (0x3C#8 ++ a ++ 0#16) = .ok (.unpackMisc a) ∧
  (40 ≤ a.toNat → exec (.unpackMisc a) s = .next (failed s 6 1 a.toNat)) ∧
  (∀ (h : a.toNat < 40) (b : Nat → Nat), s.cfg.miscFields = stdMiscFields → s.cfg.unused = .ignore → b = lbByte s 88 →
    match firstReserved [(b 0 % 128, 0xA0, 88), (b 4 / 2, 0xA9, 92), (b 5 / 2, 0xAA, 93), (b 8 / 2, 0xAF, 96)] with
    | some (_, id, off) => exec (.unpackMisc a) s = .next (failed s 4 id off)
    | none => exec (.unpackMisc a) s =
        .next (done (withPatch s a.toNat { s.pstore[a.toNat] with misc := miscRecord b })))

/-- R143, R145: UNPACK_PATCH is UNPACK_NAME and the eleven group unpacks one after the other, but all or nothing: at the
first error it reports that error and writes no part of the slot; where the 102 bytes of LB deserialize, the slot takes that
patch. -/
def Obligations.UnpackPatchIsTheAtomicSequence : Prop := ∀ s a,
  decode (0x3D#8 ++ a ++ 0#16) = .ok (.unpackPatch a) ∧
  (40 ≤ a.toNat → exec (.unpackPatch a) s = .next (failed s 6 1 a.toNat)) ∧
  (∀ u, a.toNat < 40 →
    u = execUntilError
      [.unpackName a, .unpackEnv a 0, .unpackEnv a 1, .unpackEnv a 2, .unpackEnv a 3, .unpackLfo a 0, .unpackLfo a 1,
       .unpackLfo a 2, .unpackOsc a 0, .unpackOsc a 1, .unpackOsc a 2, .unpackMisc a] s →
    (u.err = 0 → exec (.unpackPatch a) s = .next u) ∧
    (u.err ≠ 0 → exec (.unpackPatch a) s = .next { s with err := u.err, sub := u.sub, pos := u.pos, sticky := true })) ∧
  (∀ p, a.toNat < 40 → deserialize s.cfg ((List.range 102).map s.lb.read) = .ok p →
    exec (.unpackPatch a) s = .next (done (withPatch s a.toNat p)))

/-- R125: packing writes every unused bit as 0; under `ignore` an unused bit has no effect; under `reject` a set one raises
`FormatError` with subcode 6 at its byte's offset, where the fields themselves decode. -/
def Obligations.UnusedBits : Prop := ∀ c g k, c.wf = true →
  (∀ r bs n i, packGroup c g k r = .ok bs → recordOk (c.fields g) r = true → i < 8 → ¬Used (c.fields g) n i →
    (bs.getD n 0).getLsbD i = false) ∧
  (c.unused = .ignore → ∀ bs bs', bs.length = g.runLen → bs'.length = g.runLen →
    (∀ n i, Used (c.fields g) n i → (bs.getD n 0).getLsbD i = (bs'.getD n 0).getLsbD i) →
    unpackGroup c g k bs = unpackGroup c g k bs') ∧
  (c.unused = .reject → ∀ bs, bs.length = g.runLen →
    ((∀ n i, (bs.getD n 0).getLsbD i = true → Used (c.fields g) n i) →
      unpackGroup c g k bs = unpackGroup { c with unused := .ignore } g k bs) ∧
    (∀ r, unpackGroup { c with unused := .ignore } g k bs = .ok r →
      (∃ n i, (bs.getD n 0).getLsbD i = true ∧ ¬Used (c.fields g) n i) →
      ∃ n i, (bs.getD n 0).getLsbD i = true ∧ ¬Used (c.fields g) n i ∧
        unpackGroup c g k bs = .error ⟨.format, 6, g.base k + n⟩))

/-- R146: a group record in range unpacks from its packed run to itself, and a patch to itself with its name normalised,
under every admitted configuration. -/
def Obligations.RecordRoundTrip : Prop := ∀ c, c.wf = true →
  (∀ g k r, recordOk (c.fields g) r = true →
    ∃ bs, packGroup c g k r = .ok bs ∧ bs.length = g.runLen ∧ unpackGroup c g k bs = .ok r) ∧
  (∀ p, p.ok c = true → ∃ bs, serialize c p = .ok bs ∧ bs.length = 102 ∧
    deserialize c bs = .ok { p with name := norm p.name })

/-- R148 as R131 and R144 give it: serializing an accepted run gives its bytes back with the unused bits of R65 cleared and
the letters a..z of the name upper-cased. R148's own words leave the name out (assumption 16). -/
def Obligations.ByteRoundTrip : Prop := ∀ c b p,
  c.wf = true → c.lfoAux = .preserve → c.miscFields = stdMiscFields → b.length = 102 → deserialize c b = .ok p →
  ∃ b', serialize c p = .ok b' ∧ b'.length = 102 ∧ ∀ o, o < 102 →
    b'.getD o 0 =
      if o < 6 then
        (if 0x61 ≤ (b.getD o 0).toNat ∧ (b.getD o 0).toNat ≤ 0x7A then BitVec.ofNat 8 ((b.getD o 0).toNat - 0x20)
         else b.getD o 0)
      else b.getD o 0 &&& ~~~unusedBits o

/-! ## Framer -/

/-- R152, R150, R151: NIBX, and that contraction under `reject` is the exact inverse of expansion. -/
def Obligations.NibbleExpand : Prop :=
  (∀ s a, decode (0x12#8 ++ a ++ 0#16) = .ok (.nibx a) ∧
    exec (.nibx a) s = .next (done { s with res := BitVec.ofNat 16 (256 * (a.toNat / 16) + a.toNat % 16) })) ∧
  (∀ b p, contract .reject (expand b).1 (expand b).2 p = .ok b ∧ (expand b).1.toNat = b.toNat % 16 ∧
    (expand b).2.toNat = b.toNat / 16) ∧
  (∀ lo hi p b, contract .reject lo hi p = .ok b → expand b = (lo, hi))

/-- R153, R151: NIBC under both policies; the low byte is tested first. -/
def Obligations.NibbleContract : Prop := ∀ s a v,
  decode (0x13#8 ++ a ++ 0#8 ++ v) = .ok (.nibc a v) ∧
  (a.toNat ≤ 0x0F → v.toNat ≤ 0x0F →
    exec (.nibc a v) s = .next (done { s with res := BitVec.ofNat 16 (a.toNat + 16 * v.toNat) })) ∧
  (s.cfg.nibble = .reject → 0x0F < a.toNat → exec (.nibc a v) s = .next (failed s 2 4 0)) ∧
  (s.cfg.nibble = .reject → a.toNat ≤ 0x0F → 0x0F < v.toNat → exec (.nibc a v) s = .next (failed s 2 4 1)) ∧
  (s.cfg.nibble = .wrap8 →
    exec (.nibc a v) s = .next (done { s with res := BitVec.ofNat 16 ((a.toNat + 16 * v.toNat) % 256) }))

/-- R155, R154, R156, R165: ENCODE, every byte of the frame it writes, and that it writes nothing else. -/
def Obligations.EncodeFrame : Prop := ∀ s ch n,
  decode (0x40#8 ++ ch ++ n) = .ok (.encode ch n) ∧
  (n.toNat = 0 → exec (.encode ch n) s = .next (failed s 3 1 0)) ∧
  (∀ N, n.toNat ≠ 0 → s.Inv → N = (if n.toNat = 1 then 1 else 40) →
    ∃ (m : Memory) (r : Nat → List Byte),
      exec (.encode ch n) s = .next (done { s with outb := m, outLen := BitVec.ofNat 16 (6 + 204 * N) }) ∧
      (∀ i, i < N → serialize s.cfg (patchFor s n.toNat i) = .ok (r i) ∧ (r i).length = 102) ∧
      m.read 0 = 0xF0 ∧ m.read 1 = 0x0F ∧ m.read 2 = 0x02 ∧ m.read 3 = ch ∧
      m.read 4 = (if n.toNat = 1 then 0x01 else 0x02) ∧
      (∀ i o, i < N → o < 102 →
        m.read (5 + 204 * i + 2 * o) = BitVec.ofNat 8 (((r i).getD o 0).toNat % 16) ∧
        m.read (6 + 204 * i + 2 * o) = BitVec.ofNat 8 (((r i).getD o 0).toNat / 16)) ∧
      m.read (5 + 204 * N) = 0xF7 ∧ ∀ x, 6 + 204 * N ≤ x → m.read x = s.outb.read x)

/-- R158, R160, R161: a frame that parses is committed: the patches to slots 0..N-1, the frame registers, and nothing
else. -/
def Obligations.DecodeAccepts : Prop := ∀ s n (ps : Nat → Patch),
  decode 0x41000000 = .ok .decode ∧
  (FrameHead s n → 6 + 204 * n ≤ s.inLen.toNat → s.inLen.toNat ≤ 8192 → (∀ j, j < 204 * n → NibbleOk s j) →
    (∀ i, i < n → deserialize s.cfg (wireRun s i) = .ok (ps i)) → s.inb.read (5 + 204 * n) = 0xF7 →
    (s.cfg.trailing = .ignore ∨ s.inLen.toNat = 6 + 204 * n) →
    exec .decode s = .next (done { s with
      pstore := Vector.ofFn fun i : Fin 40 => if i.val < n then ps i.val else s.pstore[i]
      chan := s.inb.read 3, dtype := s.inb.read 4, pcount := BitVec.ofNat 8 n }))

/-- R158, R159: the errors DECODE meets before the payload, in wire order: a wrong header byte, the end of IN, a dump type
other than 1 and 2. -/
def Obligations.DecodeHeaderErrors : Prop := ∀ s, s.inLen.toNat ≤ 8192 →
  (∀ k, k < 3 → k < s.inLen.toNat → (∀ j, j < k → s.inb.read j = [0xF0, 0x0F, 0x02].getD j 0) →
    s.inb.read k ≠ [0xF0, 0x0F, 0x02].getD k 0 → exec .decode s = .next (failed s 2 1 k)) ∧
  (s.inLen.toNat ≤ 4 → (∀ j, j < 3 → j < s.inLen.toNat → s.inb.read j = [0xF0, 0x0F, 0x02].getD j 0) →
    exec .decode s = .next (failed s 2 2 s.inLen.toNat)) ∧
  (5 ≤ s.inLen.toNat → (∀ j, j < 3 → s.inb.read j = [0xF0, 0x0F, 0x02].getD j 0) → s.inb.read 4 ≠ 0x01 →
    s.inb.read 4 ≠ 0x02 → exec .decode s = .next (failed s 2 3 4))

/-- R158, R159: IN ends before the frame does. -/
def Obligations.DecodeTruncated : Prop := ∀ s n (ps : Nat → Patch),
  FrameHead s n → 5 ≤ s.inLen.toNat → s.inLen.toNat < 6 + 204 * n →
  (∀ j, 5 + 2 * (j / 2) + 1 < s.inLen.toNat → j < 204 * n → NibbleOk s j) →
  (∀ i, i < n → 5 + 204 * (i + 1) ≤ s.inLen.toNat → deserialize s.cfg (wireRun s i) = .ok (ps i)) →
  exec .decode s = .next (failed s 2 2 s.inLen.toNat)

/-- R158, R159, R151: the first payload byte above 0x0F, both bytes of its pair being in IN. -/
def Obligations.DecodeBadNibble : Prop := ∀ s n j (ps : Nat → Patch),
  FrameHead s n → s.inLen.toNat ≤ 8192 → s.cfg.nibble = .reject → j < 204 * n → 5 + 2 * (j / 2) + 1 < s.inLen.toNat →
  (∀ j', j' < j → (s.inb.read (5 + j')).toNat ≤ 0x0F) → 0x0F < (s.inb.read (5 + j)).toNat →
  (∀ i, i < j / 204 → deserialize s.cfg (wireRun s i) = .ok (ps i)) →
  exec .decode s = .next (failed s 2 4 (5 + j))

/-- R158, R159: a patch whose run does not deserialize; the position is that of the low nibble of the logical byte. -/
def Obligations.DecodeBadField : Prop := ∀ s n i (ps : Nat → Patch) e,
  FrameHead s n → s.inLen.toNat ≤ 8192 → i < n → 5 + 204 * (i + 1) ≤ s.inLen.toNat →
  (∀ j, j < 204 * (i + 1) → NibbleOk s j) → (∀ i', i' < i → deserialize s.cfg (wireRun s i') = .ok (ps i')) →
  deserialize s.cfg (wireRun s i) = .error e →
  exec .decode s = .next (failed s e.kind.code.toNat e.sub (5 + 204 * i + 2 * e.pos))

/-- R158, R159, R160: every patch decodes and the footer is wrong, or a byte follows the footer under `reject`. -/
def Obligations.DecodeBadEnd : Prop := ∀ s n (ps : Nat → Patch),
  FrameHead s n → 6 + 204 * n ≤ s.inLen.toNat → s.inLen.toNat ≤ 8192 → (∀ j, j < 204 * n → NibbleOk s j) →
  (∀ i, i < n → deserialize s.cfg (wireRun s i) = .ok (ps i)) →
  (s.inb.read (5 + 204 * n) ≠ 0xF7 → exec .decode s = .next (failed s 2 5 (5 + 204 * n))) ∧
  (s.inb.read (5 + 204 * n) = 0xF7 → s.cfg.trailing = .reject → 6 + 204 * n < s.inLen.toNat →
    exec .decode s = .next (failed s 2 7 (6 + 204 * n)))

/-- R162: a DECODE that reports no error has read exactly the bytes of one frame of 1 or 40 patches. -/
def Obligations.DecodeMultiplexer : Prop := ∀ s t,
  exec .decode s = .next t → t.err = 0 →
  ∃ n, FrameHead s n ∧ 6 + 204 * n ≤ s.inLen.toNat ∧ s.inb.read (5 + 204 * n) = 0xF7 ∧
    t.pcount = BitVec.ofNat 8 n ∧ t.dtype = s.inb.read 4 ∧ t.chan = s.inb.read 3 ∧
    (∀ i : Fin 40, i.val < n → deserialize s.cfg (wireRun s i.val) = .ok t.pstore[i]) ∧
    (∀ i : Fin 40, n ≤ i.val → t.pstore[i] = s.pstore[i])

/-- R163: single-dump round trip, under every admitted configuration. -/
def Obligations.SingleDumpRoundTrip : Prop := ∀ s ch, s.Inv →
  ∃ t1 t2 t3, exec (.encode ch 1) s = .next t1 ∧ exec .xfer t1 = .next t2 ∧ exec .decode t2 = .next t3 ∧
    t3.err = 0 ∧ t3.pcount = 1 ∧ t3.dtype = 0x01 ∧ t3.chan = ch ∧
    t3.pstore[0] = { s.pstore[0] with name := norm s.pstore[0].name } ∧
    ∀ i : Fin 40, i.val ≠ 0 → t3.pstore[i] = s.pstore[i]

/-- R164: bank round trip, under every admitted configuration. -/
def Obligations.BankRoundTrip : Prop := ∀ s ch n, s.Inv → 2 ≤ n.toNat →
  ∃ t1 t2 t3, exec (.encode ch n) s = .next t1 ∧ exec .xfer t1 = .next t2 ∧ exec .decode t2 = .next t3 ∧
    t3.err = 0 ∧ t3.pcount = 40 ∧ t3.dtype = 0x02 ∧ t3.chan = ch ∧
    ∀ i : Fin 40, t3.pstore[i] =
      if i.val < n.toNat then { s.pstore[i] with name := norm s.pstore[i].name } else defaultPatch s.cfg

/-- R165: the frame decodes under every policy, and encoding again writes the same frame. -/
def Obligations.ReencodeStable : Prop := ∀ s ch n, s.Inv → n.toNat ≠ 0 →
  ∃ t1 t2 t3 t4, exec (.encode ch n) s = .next t1 ∧ exec .xfer t1 = .next t2 ∧ exec .decode t2 = .next t3 ∧
    t3.err = 0 ∧ exec (.encode ch n) t3 = .next t4 ∧ t4.outb = t1.outb ∧ t4.outLen = t1.outLen

/-! ## The whole machine -/

/-- R21 and the model's own invariants (Safety.lean) hold after reset. -/
def Obligations.ResetInv : Prop := State.reset.Inv

/-- R21, R25, R26, R28, R171: every step keeps the invariant. -/
def Obligations.StepKeepsInv : Prop := ∀ s t : State, s.Inv → step s = .next t → t.Inv

/-- R13, R178, R196: from a state that meets the invariant no step faults and none is refused. -/
def Obligations.InvStepAnswers : Prop := ∀ s : State, s.Inv → s.Safe

/-- R23, R25 to R28, R35, R87: what each command may write besides STATUS; SRST apart, which resets. -/
def Obligations.WriteSets : Prop := ∀ i s t, exec i s = .next t → t.cfg = s.cfg ∧ t.hostq = s.hostq ∧ (i ≠ .srst →
  (t.res ≠ s.res → (∃ a, i = .d2w a ∨ i = .w2d a ∨ i = .nibx a ∨ i = .getnlen a ∨ i = .getb a) ∨
    (∃ a v, i = .nibc a v ∨ i = .getf a v) ∨ (∃ a b, i = .getname a b) ∨ ∃ b, i = .getin b ∨ i = .getout b) ∧
  (t.pstore ≠ s.pstore → i = .decode ∨
    (∃ a, i = .lddef a ∨ i = .nameclr a ∨ i = .unpackName a ∨ i = .unpackMisc a ∨ i = .unpackPatch a) ∨
    (∃ a f v, i = .setf a f v) ∨ (∃ a v, i = .nameadd a v) ∨
    ∃ a k, i = .unpackEnv a k ∨ i = .unpackLfo a k ∨ i = .unpackOsc a k) ∧
  (t.lb ≠ s.lb → (∃ a v, i = .setb a v) ∨ (∃ a, i = .packName a ∨ i = .packMisc a ∨ i = .packPatch a) ∨
    ∃ a k, i = .packEnv a k ∨ i = .packLfo a k ∨ i = .packOsc a k) ∧
  (t.inb ≠ s.inb → i = .xfer ∨ (∃ a, i = .putin a) ∨ ∃ a b, i = .pokein a b) ∧
  (t.inLen ≠ s.inLen → i = .xfer ∨ i = .clrin ∨ (∃ a, i = .putin a) ∨ ∃ b, i = .trimin b) ∧
  (t.outb ≠ s.outb ∨ t.outLen ≠ s.outLen → ∃ a b, i = .encode a b) ∧
  (t.chan ≠ s.chan ∨ t.dtype ≠ s.dtype ∨ t.pcount ≠ s.pcount → i = .decode ∧ t.err = 0))

end
end

