-- ==== Sys2Proof/Laws/PerInstr.lean ====
section
/-! SUPPORT. Per command: a word is identified by `(word & mask) == match` with `match = OPC << 24` and the mask of its
format (30_encoding.md R53, R55). -/

namespace Sys2Proof

/-! ## The masks of the formats -/

theorem byte_and_ff (x : Byte) : x &&& 255#8 = x := BitVec.and_allOnes
theorem half_and_ffff (x : Half) : x &&& 65535#16 = x := BitVec.and_allOnes

theorem wordAB_mask (op a : Byte) (b : Half) : wordAB op a b &&& Format.ab.mask = wordAB op 0 0 := by
  have h : Format.ab.mask = (255#8 ++ 0#8 ++ 0#16 : Word) := rfl
  rw [h]
  simp only [wordAB]
  erw [BitVec.and_append, BitVec.and_append, byte_and_ff, BitVec.and_zero, BitVec.and_zero]
  rfl

theorem wordA_mask (op a : Byte) : wordA op a &&& Format.a.mask = wordAB op 0 0 := by
  have h : Format.a.mask = (255#8 ++ 0#8 ++ 65535#16 : Word) := rfl
  rw [h]
  simp only [wordA, wordAB]
  erw [BitVec.and_append, BitVec.and_append, byte_and_ff, BitVec.and_zero, half_and_ffff]
  rfl

theorem wordB_mask (op : Byte) (b : Half) : wordB op b &&& Format.b.mask = wordAB op 0 0 := by
  have h : Format.b.mask = (255#8 ++ 255#8 ++ 0#16 : Word) := rfl
  rw [h]
  simp only [wordB, wordAB]
  erw [BitVec.and_append, BitVec.and_append, byte_and_ff, byte_and_ff, BitVec.and_zero]
  rfl

theorem wordN_mask (op : Byte) : wordN op &&& Format.n.mask = wordAB op 0 0 := by
  have h : Format.n.mask = BitVec.allOnes 32 := rfl
  rw [h, BitVec.and_allOnes]
  revert op
  decide +kernel

/-- Four zero bytes apart, a word whose low half is zero. -/
theorem word4_zero (op : Byte) : (op ++ (0 : Byte) ++ (0 : Byte) ++ (0 : Byte) : Word) = wordAB op 0 0 := by
  revert op
  decide +kernel

theorem wordAB8_mask (op a v : Byte) : wordAB8 op a v &&& Format.ab8.mask = wordAB op 0 0 := by
  have h : Format.ab8.mask = (255#8 ++ 0#8 ++ 255#8 ++ 0#8 : Word) := rfl
  rw [h, ← word4_zero]
  simp only [wordAB8]
  erw [BitVec.and_append, BitVec.and_append, BitVec.and_append, byte_and_ff, BitVec.and_zero, byte_and_ff,
    BitVec.and_zero]
  rfl

theorem wordAF_mask (op a f : Byte) : wordAF op a f &&& Format.af.mask = wordAB op 0 0 := by
  have h : Format.af.mask = (255#8 ++ 0#8 ++ 0#8 ++ 255#8 : Word) := rfl
  rw [h, ← word4_zero]
  simp only [wordAF]
  erw [BitVec.and_append, BitVec.and_append, BitVec.and_append, byte_and_ff, BitVec.and_zero, BitVec.and_zero,
    byte_and_ff]
  rfl

theorem wordAFV_mask (op a f v : Byte) : wordAFV op a f v &&& Format.afv.mask = wordAB op 0 0 := by
  have h : Format.afv.mask = (255#8 ++ 0#8 ++ 0#8 ++ 0#8 : Word) := rfl
  rw [h, ← word4_zero]
  simp only [wordAFV]
  erw [BitVec.and_append, BitVec.and_append, BitVec.and_append, byte_and_ff, BitVec.and_zero, BitVec.and_zero,
    BitVec.and_zero]
  rfl

end Sys2Proof

namespace Sys2Proof.Laws.MatchMask

/-- The word of a command, masked as its format says, is its opcode in bits 31:24 and zeros below. -/
def Statement (i : Instr) : Prop := encode i &&& i.format.mask = wordAB i.opcode 0 0

theorem nop : Statement .nop := wordN_mask _
theorem srst : Statement .srst := wordN_mask _
theorem d2w (a : Byte) : Statement (.d2w a) := wordA_mask _ _
theorem w2d (a : Byte) : Statement (.w2d a) := wordA_mask _ _
theorem nibx (a : Byte) : Statement (.nibx a) := wordA_mask _ _
theorem nibc (a v : Byte) : Statement (.nibc a v) := wordAB8_mask _ _ _
theorem setf (a f v : Byte) : Statement (.setf a f v) := wordAFV_mask _ _ _ _
theorem getf (a f : Byte) : Statement (.getf a f) := wordAF_mask _ _ _
theorem lddef (a : Byte) : Statement (.lddef a) := wordA_mask _ _
theorem nameclr (a : Byte) : Statement (.nameclr a) := wordA_mask _ _
theorem nameadd (a v : Byte) : Statement (.nameadd a v) := wordAB8_mask _ _ _
theorem getname (a : Byte) (b : Half) : Statement (.getname a b) := wordAB_mask _ _ _
theorem getnlen (a : Byte) : Statement (.getnlen a) := wordA_mask _ _
theorem setb (a v : Byte) : Statement (.setb a v) := wordAB8_mask _ _ _
theorem getb (a : Byte) : Statement (.getb a) := wordA_mask _ _
theorem putin (a : Byte) : Statement (.putin a) := wordA_mask _ _
theorem pokein (a : Byte) (b : Half) : Statement (.pokein a b) := wordAB_mask _ _ _
theorem trimin (b : Half) : Statement (.trimin b) := wordB_mask _ _
theorem clrin : Statement .clrin := wordN_mask _
theorem getin (b : Half) : Statement (.getin b) := wordB_mask _ _
theorem getout (b : Half) : Statement (.getout b) := wordB_mask _ _
theorem xfer : Statement .xfer := wordN_mask _
theorem packName (a : Byte) : Statement (.packName a) := wordA_mask _ _
theorem packEnv (a : Byte) (k : Half) : Statement (.packEnv a k) := wordAB_mask _ _ _
theorem packLfo (a : Byte) (k : Half) : Statement (.packLfo a k) := wordAB_mask _ _ _
theorem packOsc (a : Byte) (k : Half) : Statement (.packOsc a k) := wordAB_mask _ _ _
theorem packMisc (a : Byte) : Statement (.packMisc a) := wordA_mask _ _
theorem packPatch (a : Byte) : Statement (.packPatch a) := wordA_mask _ _
theorem unpackName (a : Byte) : Statement (.unpackName a) := wordA_mask _ _
theorem unpackEnv (a : Byte) (k : Half) : Statement (.unpackEnv a k) := wordAB_mask _ _ _
theorem unpackLfo (a : Byte) (k : Half) : Statement (.unpackLfo a k) := wordAB_mask _ _ _
theorem unpackOsc (a : Byte) (k : Half) : Statement (.unpackOsc a k) := wordAB_mask _ _ _
theorem unpackMisc (a : Byte) : Statement (.unpackMisc a) := wordA_mask _ _
theorem unpackPatch (a : Byte) : Statement (.unpackPatch a) := wordA_mask _ _
theorem encode (a : Byte) (b : Half) : Statement (.encode a b) := wordAB_mask _ _ _
theorem decode : Statement .decode := wordN_mask _

end Sys2Proof.Laws.MatchMask
end

