-- ==== Sys2Proof/Laws/Encoding.lean ====
section
/-! SUPPORT. The fields of a command word: what each assembled word holds in them, and a word put together from its fields. -/

namespace Sys2Proof

/-! ## A word and its fields -/

/-- A word is its opcode, its operand A and its operand B. -/
theorem word_eq_fields (w : Word) : wordAB (opcOf w) (aOf w) (bOf w) = w := by
  unfold wordAB opcOf aOf bOf
  apply BitVec.eq_of_getLsbD_eq
  intro i hi
  have hi' : i < 32 := hi
  erw [BitVec.getLsbD_append, BitVec.getLsbD_append]
  by_cases h1 : i < 16
  · simp [h1]
  · by_cases h2 : i - 16 < 8
    · simp [h1, h2]; congr 1; omega
    · have h3 : i - 16 - 8 < 8 := by omega
      simp [h1, h2, h3]; congr 1; omega

/-- Operand B is its two bytes. -/
theorem bOf_eq_fields (w : Word) : (fOf w ++ vOf w : Half) = bOf w := by
  unfold fOf vOf bOf
  apply BitVec.eq_of_getLsbD_eq
  intro i hi
  have hi' : i < 16 := hi
  erw [BitVec.getLsbD_append]
  by_cases h1 : i < 8
  · simp [h1, hi']
  · have h3 : i - 8 < 8 := by omega
    simp [h1, h3, hi']; congr 1; omega

@[simp] theorem opcOf_wordAB (op a : Byte) (b : Half) : opcOf (wordAB op a b) = op := by
  unfold wordAB opcOf
  apply BitVec.eq_of_getLsbD_eq
  intro i hi
  have h1 : ¬24 + i < 16 := by omega
  have h2 : ¬24 + i - 16 < 8 := by omega
  have h3 : 24 + i - 16 - 8 = i := by omega
  rw [BitVec.getLsbD_extractLsb']
  erw [BitVec.getLsbD_append, BitVec.getLsbD_append]
  simp [hi, h1, h2, h3]

@[simp] theorem aOf_wordAB (op a : Byte) (b : Half) : aOf (wordAB op a b) = a := by
  unfold wordAB aOf
  apply BitVec.eq_of_getLsbD_eq
  intro i hi
  rw [BitVec.getLsbD_extractLsb']
  erw [BitVec.getLsbD_append, BitVec.getLsbD_append]
  simp [hi]

@[simp] theorem bOf_wordAB (op a : Byte) (b : Half) : bOf (wordAB op a b) = b := by
  unfold wordAB bOf
  apply BitVec.eq_of_getLsbD_eq
  intro i hi
  rw [BitVec.getLsbD_extractLsb']
  erw [BitVec.getLsbD_append, BitVec.getLsbD_append]
  simp [hi]

theorem fOf_eq_of_bOf (w : Word) : fOf w = (bOf w).extractLsb' 8 8 := by
  unfold fOf bOf
  apply BitVec.eq_of_getLsbD_eq
  intro i hi
  simp [hi]

theorem vOf_eq_of_bOf (w : Word) : vOf w = (bOf w).extractLsb' 0 8 := by
  unfold vOf bOf
  apply BitVec.eq_of_getLsbD_eq
  intro i hi
  simp [hi]

/-! ## The word forms as one form -/

theorem wordA_eq (op a : Byte) : wordA op a = wordAB op a 0 := rfl
theorem wordB_eq (op : Byte) (b : Half) : wordB op b = wordAB op 0 b := rfl
theorem wordN_eq (op : Byte) : wordN op = wordAB op 0 0 := by
  revert op
  decide +kernel

theorem word4_eq (op a f v : Byte) : (op ++ a ++ f ++ v : Word) = wordAB op a (f ++ v) := by
  have h : (op ++ a ++ f ++ v).toNat = ((op ++ a) ++ (f ++ v)).toNat := by
    simp only [BitVec.toNat_append, Nat.shiftLeft_or_distrib, ← Nat.shiftLeft_add, Nat.or_assoc]
  exact BitVec.eq_of_toNat_eq h

theorem wordAB8_eq (op a v : Byte) : wordAB8 op a v = wordAB op a ((0 : Byte) ++ v) := word4_eq op a 0 v
theorem wordAF_eq (op a f : Byte) : wordAF op a f = wordAB op a (f ++ (0 : Byte)) := word4_eq op a f 0
theorem wordAFV_eq (op a f v : Byte) : wordAFV op a f v = wordAB op a (f ++ v) := word4_eq op a f v

@[simp] theorem high_append (f v : Byte) : (f ++ v : Half).extractLsb' 8 8 = f := by
  apply BitVec.eq_of_getLsbD_eq
  intro i hi
  rw [BitVec.getLsbD_extractLsb']
  erw [BitVec.getLsbD_append]
  simp [hi]

@[simp] theorem low_append (f v : Byte) : (f ++ v : Half).extractLsb' 0 8 = v := by
  apply BitVec.eq_of_getLsbD_eq
  intro i hi
  rw [BitVec.getLsbD_extractLsb']
  erw [BitVec.getLsbD_append]
  simp [hi]

@[simp] theorem fOf_wordAB (op a f v : Byte) : fOf (wordAB op a (f ++ v)) = f := by
  rw [fOf_eq_of_bOf, bOf_wordAB, high_append]

@[simp] theorem vOf_wordAB (op a f v : Byte) : vOf (wordAB op a (f ++ v)) = v := by
  rw [vOf_eq_of_bOf, bOf_wordAB, low_append]

/-- The opcode as a number is the word's top byte. -/
theorem opcOf_toNat (w : Word) : (opcOf w).toNat = w.toNat / 2 ^ 24 := by
  have : w.toNat < 2 ^ 32 := w.isLt
  simp only [opcOf, BitVec.extractLsb'_toNat, Nat.shiftRight_eq_div_pow]
  omega

/-! ## Decoding -/

/-- A word decodes to the command of its opcode when its reserved bits are 0. -/
theorem decode_of_format {w : Word} {f : Format} {i : Instr} (h1 : formatOf (opcOf w) = some f)
    (h2 : commandOf w = some i) (h3 : w &&& f.reserved = 0) : decode w = .ok i := by
  unfold decode
  rw [h1, h2]
  exact if_pos h3

/-- The three ways decoding can end. -/
theorem decode_cases (w : Word) :
    (∃ f i, formatOf (opcOf w) = some f ∧ commandOf w = some i ∧ w &&& f.reserved = 0 ∧ decode w = .ok i) ∨
    (∃ f i, formatOf (opcOf w) = some f ∧ commandOf w = some i ∧ w &&& f.reserved ≠ 0 ∧
      decode w = .error (.reservedField (opcOf w))) ∨
    ((formatOf (opcOf w) = none ∨ commandOf w = none) ∧ decode w = .error (.unassigned (opcOf w))) := by
  unfold decode
  split
  · rename_i f i h1 h2
    by_cases h : w &&& f.reserved = 0
    · exact .inl ⟨f, i, h1, h2, h, if_pos h⟩
    · exact .inr (.inl ⟨f, i, h1, h2, h, if_neg h⟩)
  · rename_i h
    refine .inr (.inr ⟨?_, rfl⟩)
    rcases hf : formatOf (opcOf w) with _ | f
    · exact .inl rfl
    · rcases hc : commandOf w with _ | i
      · exact .inr rfl
      · exact absurd hc (h f i hf)

/-- The reserved bits of an encoded command are 0. -/
theorem encode_reserved {i : Instr} (h : Sys2Proof.Laws.MatchMask.Statement i) :
    encode i &&& i.format.reserved = 0 := by
  have h' : encode i &&& i.format.mask = wordAB i.opcode 0 0 := h
  unfold Format.reserved
  rw [← BitVec.and_assoc, h']
  generalize i.opcode = op
  revert op
  decide +kernel

end Sys2Proof
end

