-- ==== Sys2Proof/Laws/Memory.lean ====
section
/-! SUPPORT. The laws of a byte space: what a read gives after a write, and that every write keeps the canonical form. -/

namespace Sys2Proof.Machine

/-! ## Reading -/

@[simp] theorem Memory.read_nil (a : Nat) : Memory.read [] a = 0x00 := rfl

theorem Memory.read_append (m n : Memory) (a : Nat) :
    Memory.read (m ++ n) a = if ∃ c ∈ m, c.1 = a then Memory.read m a else Memory.read n a := by
  induction m with
  | nil => simp
  | cons c m ih =>
    obtain ⟨k, b⟩ := c
    by_cases h : k = a
    · simp [Memory.read, h]
    · simp [Memory.read, h, ih]

theorem Memory.read_of_not_mem (m : Memory) (a : Nat) (h : ∀ c ∈ m, c.1 ≠ a) : Memory.read m a = 0x00 := by
  induction m with
  | nil => rfl
  | cons c m ih =>
    obtain ⟨k, b⟩ := c
    have h1 : k ≠ a := h (k, b) (by simp)
    simp only [Memory.read, h1, if_false]
    exact ih fun c hc => h c (by simp [hc])

/-- Dropping cells at other addresses does not change what an address reads. -/
theorem Memory.read_filter (m : Memory) (p : Host.Cell → Bool) (a : Nat) (h : ∀ b, p (a, b) = true) :
    Memory.read (m.filter p) a = Memory.read m a := by
  induction m with
  | nil => rfl
  | cons c m ih =>
    obtain ⟨k, b⟩ := c
    by_cases hk : k = a
    · subst hk; simp [Memory.read, h]
    · by_cases hp : p (k, b) <;> simp [Memory.read, hk, hp, ih]

theorem Memory.mem_cells {a : Nat} {bs : List Byte} {c : Host.Cell} (h : c ∈ Memory.cells a bs) :
    a ≤ c.1 ∧ c.1 < a + bs.length := by
  induction bs generalizing a with
  | nil => simp [Memory.cells] at h
  | cons b bs ih =>
    rw [Memory.cells] at h
    split at h
    · have := ih h; simp; omega
    · rcases List.mem_cons.1 h with rfl | h
      · simp
      · have := ih h; simp; omega

theorem Memory.read_cells (a : Nat) (bs : List Byte) (x : Nat) :
    Memory.read (Memory.cells a bs) x = if a ≤ x then bs.getD (x - a) 0 else 0 := by
  induction bs generalizing a with
  | nil => simp [Memory.cells]
  | cons b bs ih =>
    rw [Memory.cells]
    rcases Nat.lt_trichotomy x a with h | h | h
    · have h1 : ¬a ≤ x := by omega
      have h2 : ¬a + 1 ≤ x := by omega
      have h3 : ¬a = x := by omega
      split <;> simp [Memory.read, ih, h2, h3]
    · subst h
      split
      · rename_i hb; simp [ih, hb, Memory.blank]
      · simp [Memory.read]
    · have h1 : a ≤ x := by omega
      have h2 : a + 1 ≤ x := by omega
      have h3 : ¬a = x := by omega
      have h4 : x - a = (x - (a + 1)) + 1 := by omega
      split <;> simp [Memory.read, ih, h2, h3, h4]

/-- What an address reads after a run is written: the run inside it, the old byte everywhere else. -/
theorem Memory.read_writeRun (m : Memory) (a : Nat) (bs : List Byte) (x : Nat) :
    (m.writeRun a bs).read x = if a ≤ x ∧ x < a + bs.length then bs.getD (x - a) 0 else m.read x := by
  have hlow : Memory.read (m.filter (fun c => c.1 < a)) x = if x < a then m.read x else 0 := by
    split
    · rename_i h; exact Memory.read_filter m _ x (by simp [h])
    · rename_i h
      refine Memory.read_of_not_mem _ _ fun c hc => ?_
      have := (List.mem_filter.1 hc).2
      simp at this; omega
  have hhigh : Memory.read (m.filter (fun c => a + bs.length ≤ c.1)) x
      = if a + bs.length ≤ x then m.read x else 0 := by
    split
    · rename_i h; exact Memory.read_filter m _ x (by simp [h])
    · rename_i h
      refine Memory.read_of_not_mem _ _ fun c hc => ?_
      have := (List.mem_filter.1 hc).2
      simp at this; omega
  rw [Memory.writeRun, Memory.read_append, Memory.read_append, hlow, hhigh, Memory.read_cells]
  by_cases h1 : x < a
  · have h2 : ¬(a ≤ x ∧ x < a + bs.length) := by omega
    have h4 : ∀ c ∈ Memory.cells a bs, c.1 ≠ x := fun c hc => by have := Memory.mem_cells hc; omega
    have h5 : ¬a + bs.length ≤ x := by omega
    by_cases hm : ∃ c ∈ m.filter (fun c => c.1 < a), c.1 = x
    · simp only [hm, if_true, h1, h2, if_false]
    · have h6 : m.read x = 0 := by
        rw [← Memory.read_filter m (fun c => c.1 < a) x (by simp [h1])]
        exact Memory.read_of_not_mem _ _ fun c hc e => hm ⟨c, hc, e⟩
      have h7 : ¬∃ c ∈ Memory.cells a bs, c.1 = x := fun ⟨c, hc, e⟩ => h4 c hc e
      simp only [hm, h7, h2, h5, if_false, h6]
  · have hm : ¬∃ c ∈ m.filter (fun c => c.1 < a), c.1 = x := by
      rintro ⟨c, hc, rfl⟩
      have := (List.mem_filter.1 hc).2
      simp at this; omega
    simp only [hm, if_false]
    by_cases h2 : x < a + bs.length
    · have h3 : a ≤ x ∧ x < a + bs.length := by omega
      have h4 : ¬a + bs.length ≤ x := by omega
      by_cases hc : ∃ c ∈ Memory.cells a bs, c.1 = x
      · simp only [hc, if_true, h3, and_self]
      · have h5 : Memory.read (Memory.cells a bs) x = 0 :=
          Memory.read_of_not_mem _ _ fun c hc' e => hc ⟨c, hc', e⟩
        rw [Memory.read_cells, if_pos h3.1] at h5
        simp only [hc, if_false, h4, h3, and_self, if_true, h5]
    · have h3 : ¬(a ≤ x ∧ x < a + bs.length) := by omega
      have h4 : a + bs.length ≤ x := by omega
      have hc : ¬∃ c ∈ Memory.cells a bs, c.1 = x := by
        rintro ⟨c, hc, rfl⟩; have := Memory.mem_cells hc; omega
      simp only [hc, h3, h4, if_false, if_true]

/-- One byte written. -/
theorem Memory.read_write (m : Memory) (a : Nat) (b : Byte) (x : Nat) :
    (m.write a b).read x = if x = a then b else m.read x := by
  rw [Memory.write, Memory.read_writeRun]
  by_cases h : x = a
  · subst h; simp
  · have : ¬(a ≤ x ∧ x < a + [b].length) := by simp; omega
    simp only [this, h, if_false]

/-! ## Reading a run -/

@[simp] theorem Memory.length_readRun (m : Memory) (a n : Nat) : (m.readRun a n).length = n := by
  induction n generalizing a with
  | zero => rfl
  | succ n ih => simp [Memory.readRun, ih]

/-- Byte `i` of a run that is read is the byte at its address. -/
theorem Memory.getElem?_readRun (m : Memory) (a n i : Nat) :
    (m.readRun a n)[i]? = if i < n then some (m.read (a + i)) else none := by
  induction n generalizing a i with
  | zero => simp [Memory.readRun]
  | succ n ih =>
    cases i with
    | zero => simp [Memory.readRun]
    | succ i => simp [Memory.readRun, ih, Nat.add_assoc, Nat.add_comm 1 i]

theorem Memory.getD_readRun (m : Memory) (a n i : Nat) (h : i < n) :
    (m.readRun a n).getD i 0 = m.read (a + i) := by
  rw [List.getD_eq_getElem?_getD, Memory.getElem?_readRun, if_pos h, Option.getD_some]

@[simp] theorem Memory.getElem_readRun (m : Memory) (a n i : Nat) (h : i < (m.readRun a n).length) :
    (m.readRun a n)[i] = m.read (a + i) := by
  have h' : i < n := by simpa using h
  have := Memory.getElem?_readRun m a n i
  rw [List.getElem?_eq_getElem h, if_pos h'] at this
  exact Option.some.inj this

/-- Two spaces that read the same give the same run. -/
theorem Memory.readRun_congr {m m' : Memory} {a n : Nat} (h : ∀ i < n, m.read (a + i) = m'.read (a + i)) :
    m.readRun a n = m'.readRun a n := by
  apply List.ext_getElem?
  intro i
  rw [Memory.getElem?_readRun, Memory.getElem?_readRun]
  split
  · rename_i hi; rw [h i hi]
  · rfl

/-- A run reads back what was written. -/
theorem Memory.readRun_writeRun (m : Memory) (a : Nat) (bs : List Byte) :
    (m.writeRun a bs).readRun a bs.length = bs := by
  apply List.ext_getElem?
  intro i
  rw [Memory.getElem?_readRun]
  split
  · rename_i h
    rw [Memory.read_writeRun]
    have : a ≤ a + i ∧ a + i < a + bs.length := by omega
    simp [this, h]
  · rename_i h
    simp [List.getElem?_eq_none (Nat.le_of_not_lt h)]

/-! ## Canonical form -/

theorem Memory.wfFrom_mono {size a b : Nat} {m : Memory} (h : b ≤ a) (hm : Memory.wfFrom size a m = true) :
    Memory.wfFrom size b m = true := by
  cases m with
  | nil => rfl
  | cons c m =>
    obtain ⟨k, v⟩ := c
    simp only [Memory.wfFrom, Bool.and_eq_true, decide_eq_true_eq, bne_iff_ne] at hm ⊢
    exact ⟨⟨⟨by omega, hm.1.1.2⟩, hm.1.2⟩, hm.2⟩

/-- Every cell of a canonical space lies from its start on and inside its size. -/
theorem Memory.wfFrom_mem {size a : Nat} {m : Memory} (hm : Memory.wfFrom size a m = true) {c : Host.Cell} (hc : c ∈ m) :
    a ≤ c.1 ∧ c.1 < size := by
  induction m generalizing a with
  | nil => simp at hc
  | cons d m ih =>
    obtain ⟨k, v⟩ := d
    simp only [Memory.wfFrom, Bool.and_eq_true, decide_eq_true_eq, bne_iff_ne] at hm
    rcases List.mem_cons.1 hc with rfl | hc
    · exact ⟨hm.1.1.1, hm.1.1.2⟩
    · have := ih hm.2 hc; omega

theorem Memory.wfFrom_filter {size a : Nat} {m : Memory} (p : Host.Cell → Bool) (hm : Memory.wfFrom size a m = true) :
    Memory.wfFrom size a (m.filter p) = true := by
  induction m generalizing a with
  | nil => rfl
  | cons d m ih =>
    obtain ⟨k, v⟩ := d
    simp only [Memory.wfFrom, Bool.and_eq_true, decide_eq_true_eq, bne_iff_ne] at hm
    by_cases hp : p (k, v)
    · simp only [List.filter_cons_of_pos hp, Memory.wfFrom, Bool.and_eq_true, decide_eq_true_eq, bne_iff_ne]
      exact ⟨hm.1, ih hm.2⟩
    · rw [List.filter_cons_of_neg hp]
      exact Memory.wfFrom_mono (by omega) (ih hm.2)

/-- Two canonical stretches, the second from `b` on and the first below it. -/
theorem Memory.wfFrom_append {size a b : Nat} {m n : Memory} (hm : Memory.wfFrom size a m = true)
    (hlt : ∀ c ∈ m, c.1 < b) (hab : a ≤ b) (hn : Memory.wfFrom size b n = true) :
    Memory.wfFrom size a (m ++ n) = true := by
  induction m generalizing a with
  | nil => exact Memory.wfFrom_mono hab hn
  | cons d m ih =>
    obtain ⟨k, v⟩ := d
    simp only [List.cons_append, Memory.wfFrom, Bool.and_eq_true, decide_eq_true_eq, bne_iff_ne] at hm ⊢
    have hk : k < b := hlt (k, v) (by simp)
    exact ⟨hm.1, ih hm.2 (fun c hc => hlt c (by simp [hc])) (by omega)⟩

/-- The cells at or above an address, as a stretch that starts there. -/
theorem Memory.wfFrom_above {size a b : Nat} {m : Memory} (hm : Memory.wfFrom size a m = true)
    (h : ∀ c ∈ m, b ≤ c.1) : Memory.wfFrom size b m = true := by
  cases m with
  | nil => rfl
  | cons d m =>
    obtain ⟨k, v⟩ := d
    simp only [Memory.wfFrom, Bool.and_eq_true, decide_eq_true_eq, bne_iff_ne] at hm ⊢
    exact ⟨⟨⟨h (k, v) (by simp), hm.1.1.2⟩, hm.1.2⟩, hm.2⟩

theorem Memory.wfFrom_cells {size : Nat} (a : Nat) (bs : List Byte) (h : a + bs.length ≤ size) :
    Memory.wfFrom size a (Memory.cells a bs) = true := by
  induction bs generalizing a with
  | nil => rfl
  | cons b bs ih =>
    have hl : a + 1 + bs.length ≤ size := by simp at h; omega
    rw [Memory.cells]
    split
    · exact Memory.wfFrom_mono (by omega) (ih (a + 1) hl)
    · rename_i hb
      simp only [Memory.wfFrom, Bool.and_eq_true, decide_eq_true_eq, bne_iff_ne]
      exact ⟨⟨⟨Nat.le_refl a, by omega⟩, hb⟩, ih (a + 1) hl⟩

/-- Writing a run inside the space keeps the canonical form. -/
theorem Memory.wf_writeRun {size : Nat} {m : Memory} (hm : Memory.wf size m = true) (a : Nat) (bs : List Byte)
    (h : a + bs.length ≤ size) : Memory.wf size (m.writeRun a bs) = true := by
  have hlow : ∀ c ∈ m.filter (fun c => c.1 < a), c.1 < a := fun c hc => by
    simpa using (List.mem_filter.1 hc).2
  have hhigh : ∀ c ∈ m.filter (fun c => a + bs.length ≤ c.1), a + bs.length ≤ c.1 := fun c hc => by
    simpa using (List.mem_filter.1 hc).2
  refine Memory.wfFrom_append (b := a) (Memory.wfFrom_filter _ hm) hlow (Nat.zero_le a) ?_
  refine Memory.wfFrom_append (b := a + bs.length) (Memory.wfFrom_cells a bs h) (fun c hc => (Memory.mem_cells hc).2)
    (by omega) ?_
  exact Memory.wfFrom_above (Memory.wfFrom_filter _ hm) hhigh

/-- Writing one byte inside the space keeps the canonical form. -/
theorem Memory.wf_write {size : Nat} {m : Memory} (hm : Memory.wf size m = true) (a : Nat) (b : Byte) (h : a < size) :
    Memory.wf size (m.write a b) = true :=
  Memory.wf_writeRun hm a [b] (by simp; omega)

/-- Canonical spaces that read the same are equal data. -/
theorem Memory.wfFrom_ext {size a : Nat} {m n : Memory} (hm : Memory.wfFrom size a m = true)
    (hn : Memory.wfFrom size a n = true) (h : ∀ x, m.read x = n.read x) : m = n := by
  induction m generalizing a n with
  | nil =>
    cases n with
    | nil => rfl
    | cons d n =>
      obtain ⟨k, v⟩ := d
      simp only [Memory.wfFrom, Bool.and_eq_true, decide_eq_true_eq, bne_iff_ne] at hn
      have := h k
      simp [Memory.read] at this
      exact absurd this.symm hn.1.2
  | cons c m ih =>
    obtain ⟨k, v⟩ := c
    have hm' := hm
    simp only [Memory.wfFrom, Bool.and_eq_true, decide_eq_true_eq, bne_iff_ne] at hm'
    cases n with
    | nil =>
      have := h k
      simp [Memory.read] at this
      exact absurd this hm'.1.2
    | cons d n =>
      obtain ⟨k', v'⟩ := d
      have hn' := hn
      simp only [Memory.wfFrom, Bool.and_eq_true, decide_eq_true_eq, bne_iff_ne] at hn'
      have hk : k = k' := by
        by_contra hne
        rcases Nat.lt_or_gt_of_ne hne with hlt | hlt
        · have := h k
          rw [Memory.read, if_pos rfl, Memory.read_of_not_mem _ k] at this
          · exact hm'.1.2 this
          · intro c hc
            rcases List.mem_cons.1 hc with rfl | hc
            · simpa using Ne.symm hne
            · have := Memory.wfFrom_mem hn'.2 hc; omega
        · have := h k'
          rw [Memory.read_of_not_mem _ k', Memory.read, if_pos rfl] at this
          · exact hn'.1.2 this.symm
          · intro c hc
            rcases List.mem_cons.1 hc with rfl | hc
            · exact hne
            · have := Memory.wfFrom_mem hm'.2 hc; omega
      subst hk
      have hv : v = v' := by have := h k; simpa [Memory.read] using this
      subst hv
      congr 1
      refine ih hm'.2 hn'.2 fun x => ?_
      by_cases hx : k = x
      · subst hx
        rw [Memory.read_of_not_mem m k, Memory.read_of_not_mem n k]
        · intro c hc; have := Memory.wfFrom_mem hn'.2 hc; omega
        · intro c hc; have := Memory.wfFrom_mem hm'.2 hc; omega
      · have := h x
        simpa [Memory.read, hx] using this

/-- Canonical spaces that read the same are equal data. -/
theorem Memory.ext_of_wf {size : Nat} {m n : Memory} (hm : Memory.wf size m = true) (hn : Memory.wf size n = true)
    (h : ∀ x, m.read x = n.read x) : m = n :=
  Memory.wfFrom_ext hm hn h

end Sys2Proof.Machine
end

