-- ==== Sys2Proof/Laws/State.lean ====
section
/-! SUPPORT. One lemma per field per update of the state, true by rfl, so that no later proof unfolds a record update. -/

namespace Sys2Proof.Machine

/-! ## statusOk -/

@[simp] theorem State.statusOk_pstore (s : State) : (s.statusOk).pstore = s.pstore := rfl
@[simp] theorem State.statusOk_lb (s : State) : (s.statusOk).lb = s.lb := rfl
@[simp] theorem State.statusOk_inb (s : State) : (s.statusOk).inb = s.inb := rfl
@[simp] theorem State.statusOk_inLen (s : State) : (s.statusOk).inLen = s.inLen := rfl
@[simp] theorem State.statusOk_outb (s : State) : (s.statusOk).outb = s.outb := rfl
@[simp] theorem State.statusOk_outLen (s : State) : (s.statusOk).outLen = s.outLen := rfl
@[simp] theorem State.statusOk_res (s : State) : (s.statusOk).res = s.res := rfl
@[simp] theorem State.statusOk_err (s : State) : (s.statusOk).err = errNone := rfl
@[simp] theorem State.statusOk_sub (s : State) : (s.statusOk).sub = 0 := rfl
@[simp] theorem State.statusOk_pos (s : State) : (s.statusOk).pos = 0 := rfl
@[simp] theorem State.statusOk_sticky (s : State) : (s.statusOk).sticky = s.sticky := rfl
@[simp] theorem State.statusOk_chan (s : State) : (s.statusOk).chan = s.chan := rfl
@[simp] theorem State.statusOk_dtype (s : State) : (s.statusOk).dtype = s.dtype := rfl
@[simp] theorem State.statusOk_pcount (s : State) : (s.statusOk).pcount = s.pcount := rfl
@[simp] theorem State.statusOk_cfg (s : State) : (s.statusOk).cfg = s.cfg := rfl
@[simp] theorem State.statusOk_hostq (s : State) : (s.statusOk).hostq = s.hostq := rfl

/-! ## statusErr -/

@[simp] theorem State.statusErr_pstore (s : State) (e : Err) : (s.statusErr e).pstore = s.pstore := rfl
@[simp] theorem State.statusErr_lb (s : State) (e : Err) : (s.statusErr e).lb = s.lb := rfl
@[simp] theorem State.statusErr_inb (s : State) (e : Err) : (s.statusErr e).inb = s.inb := rfl
@[simp] theorem State.statusErr_inLen (s : State) (e : Err) : (s.statusErr e).inLen = s.inLen := rfl
@[simp] theorem State.statusErr_outb (s : State) (e : Err) : (s.statusErr e).outb = s.outb := rfl
@[simp] theorem State.statusErr_outLen (s : State) (e : Err) : (s.statusErr e).outLen = s.outLen := rfl
@[simp] theorem State.statusErr_res (s : State) (e : Err) : (s.statusErr e).res = s.res := rfl
@[simp] theorem State.statusErr_err (s : State) (e : Err) : (s.statusErr e).err = e.kind.code := rfl
@[simp] theorem State.statusErr_sub (s : State) (e : Err) : (s.statusErr e).sub = BitVec.ofNat 8 e.sub := rfl
@[simp] theorem State.statusErr_pos (s : State) (e : Err) : (s.statusErr e).pos = BitVec.ofNat 16 e.pos := rfl
@[simp] theorem State.statusErr_sticky (s : State) (e : Err) : (s.statusErr e).sticky = true := rfl
@[simp] theorem State.statusErr_chan (s : State) (e : Err) : (s.statusErr e).chan = s.chan := rfl
@[simp] theorem State.statusErr_dtype (s : State) (e : Err) : (s.statusErr e).dtype = s.dtype := rfl
@[simp] theorem State.statusErr_pcount (s : State) (e : Err) : (s.statusErr e).pcount = s.pcount := rfl
@[simp] theorem State.statusErr_cfg (s : State) (e : Err) : (s.statusErr e).cfg = s.cfg := rfl
@[simp] theorem State.statusErr_hostq (s : State) (e : Err) : (s.statusErr e).hostq = s.hostq := rfl

/-! ## setSlot -/

@[simp] theorem State.setSlot_pstore (s : State) (i : Nat) (p : Patch) : (s.setSlot i p).pstore = s.pstore.setIfInBounds i p := rfl
@[simp] theorem State.setSlot_lb (s : State) (i : Nat) (p : Patch) : (s.setSlot i p).lb = s.lb := rfl
@[simp] theorem State.setSlot_inb (s : State) (i : Nat) (p : Patch) : (s.setSlot i p).inb = s.inb := rfl
@[simp] theorem State.setSlot_inLen (s : State) (i : Nat) (p : Patch) : (s.setSlot i p).inLen = s.inLen := rfl
@[simp] theorem State.setSlot_outb (s : State) (i : Nat) (p : Patch) : (s.setSlot i p).outb = s.outb := rfl
@[simp] theorem State.setSlot_outLen (s : State) (i : Nat) (p : Patch) : (s.setSlot i p).outLen = s.outLen := rfl
@[simp] theorem State.setSlot_res (s : State) (i : Nat) (p : Patch) : (s.setSlot i p).res = s.res := rfl
@[simp] theorem State.setSlot_err (s : State) (i : Nat) (p : Patch) : (s.setSlot i p).err = s.err := rfl
@[simp] theorem State.setSlot_sub (s : State) (i : Nat) (p : Patch) : (s.setSlot i p).sub = s.sub := rfl
@[simp] theorem State.setSlot_pos (s : State) (i : Nat) (p : Patch) : (s.setSlot i p).pos = s.pos := rfl
@[simp] theorem State.setSlot_sticky (s : State) (i : Nat) (p : Patch) : (s.setSlot i p).sticky = s.sticky := rfl
@[simp] theorem State.setSlot_chan (s : State) (i : Nat) (p : Patch) : (s.setSlot i p).chan = s.chan := rfl
@[simp] theorem State.setSlot_dtype (s : State) (i : Nat) (p : Patch) : (s.setSlot i p).dtype = s.dtype := rfl
@[simp] theorem State.setSlot_pcount (s : State) (i : Nat) (p : Patch) : (s.setSlot i p).pcount = s.pcount := rfl
@[simp] theorem State.setSlot_cfg (s : State) (i : Nat) (p : Patch) : (s.setSlot i p).cfg = s.cfg := rfl
@[simp] theorem State.setSlot_hostq (s : State) (i : Nat) (p : Patch) : (s.setSlot i p).hostq = s.hostq := rfl

/-! ## setRes -/

@[simp] theorem State.setRes_pstore (s : State) (v : Half) : (s.setRes v).pstore = s.pstore := rfl
@[simp] theorem State.setRes_lb (s : State) (v : Half) : (s.setRes v).lb = s.lb := rfl
@[simp] theorem State.setRes_inb (s : State) (v : Half) : (s.setRes v).inb = s.inb := rfl
@[simp] theorem State.setRes_inLen (s : State) (v : Half) : (s.setRes v).inLen = s.inLen := rfl
@[simp] theorem State.setRes_outb (s : State) (v : Half) : (s.setRes v).outb = s.outb := rfl
@[simp] theorem State.setRes_outLen (s : State) (v : Half) : (s.setRes v).outLen = s.outLen := rfl
@[simp] theorem State.setRes_res (s : State) (v : Half) : (s.setRes v).res = v := rfl
@[simp] theorem State.setRes_err (s : State) (v : Half) : (s.setRes v).err = s.err := rfl
@[simp] theorem State.setRes_sub (s : State) (v : Half) : (s.setRes v).sub = s.sub := rfl
@[simp] theorem State.setRes_pos (s : State) (v : Half) : (s.setRes v).pos = s.pos := rfl
@[simp] theorem State.setRes_sticky (s : State) (v : Half) : (s.setRes v).sticky = s.sticky := rfl
@[simp] theorem State.setRes_chan (s : State) (v : Half) : (s.setRes v).chan = s.chan := rfl
@[simp] theorem State.setRes_dtype (s : State) (v : Half) : (s.setRes v).dtype = s.dtype := rfl
@[simp] theorem State.setRes_pcount (s : State) (v : Half) : (s.setRes v).pcount = s.pcount := rfl
@[simp] theorem State.setRes_cfg (s : State) (v : Half) : (s.setRes v).cfg = s.cfg := rfl
@[simp] theorem State.setRes_hostq (s : State) (v : Half) : (s.setRes v).hostq = s.hostq := rfl

/-! ## setInLen -/

@[simp] theorem State.setInLen_pstore (s : State) (n : Nat) : (s.setInLen n).pstore = s.pstore := rfl
@[simp] theorem State.setInLen_lb (s : State) (n : Nat) : (s.setInLen n).lb = s.lb := rfl
@[simp] theorem State.setInLen_inb (s : State) (n : Nat) : (s.setInLen n).inb = s.inb := rfl
@[simp] theorem State.setInLen_inLen (s : State) (n : Nat) : (s.setInLen n).inLen = BitVec.ofNat 16 n := rfl
@[simp] theorem State.setInLen_outb (s : State) (n : Nat) : (s.setInLen n).outb = s.outb := rfl
@[simp] theorem State.setInLen_outLen (s : State) (n : Nat) : (s.setInLen n).outLen = s.outLen := rfl
@[simp] theorem State.setInLen_res (s : State) (n : Nat) : (s.setInLen n).res = s.res := rfl
@[simp] theorem State.setInLen_err (s : State) (n : Nat) : (s.setInLen n).err = s.err := rfl
@[simp] theorem State.setInLen_sub (s : State) (n : Nat) : (s.setInLen n).sub = s.sub := rfl
@[simp] theorem State.setInLen_pos (s : State) (n : Nat) : (s.setInLen n).pos = s.pos := rfl
@[simp] theorem State.setInLen_sticky (s : State) (n : Nat) : (s.setInLen n).sticky = s.sticky := rfl
@[simp] theorem State.setInLen_chan (s : State) (n : Nat) : (s.setInLen n).chan = s.chan := rfl
@[simp] theorem State.setInLen_dtype (s : State) (n : Nat) : (s.setInLen n).dtype = s.dtype := rfl
@[simp] theorem State.setInLen_pcount (s : State) (n : Nat) : (s.setInLen n).pcount = s.pcount := rfl
@[simp] theorem State.setInLen_cfg (s : State) (n : Nat) : (s.setInLen n).cfg = s.cfg := rfl
@[simp] theorem State.setInLen_hostq (s : State) (n : Nat) : (s.setInLen n).hostq = s.hostq := rfl

/-! ## setOutLen -/

@[simp] theorem State.setOutLen_pstore (s : State) (n : Nat) : (s.setOutLen n).pstore = s.pstore := rfl
@[simp] theorem State.setOutLen_lb (s : State) (n : Nat) : (s.setOutLen n).lb = s.lb := rfl
@[simp] theorem State.setOutLen_inb (s : State) (n : Nat) : (s.setOutLen n).inb = s.inb := rfl
@[simp] theorem State.setOutLen_inLen (s : State) (n : Nat) : (s.setOutLen n).inLen = s.inLen := rfl
@[simp] theorem State.setOutLen_outb (s : State) (n : Nat) : (s.setOutLen n).outb = s.outb := rfl
@[simp] theorem State.setOutLen_outLen (s : State) (n : Nat) : (s.setOutLen n).outLen = BitVec.ofNat 16 n := rfl
@[simp] theorem State.setOutLen_res (s : State) (n : Nat) : (s.setOutLen n).res = s.res := rfl
@[simp] theorem State.setOutLen_err (s : State) (n : Nat) : (s.setOutLen n).err = s.err := rfl
@[simp] theorem State.setOutLen_sub (s : State) (n : Nat) : (s.setOutLen n).sub = s.sub := rfl
@[simp] theorem State.setOutLen_pos (s : State) (n : Nat) : (s.setOutLen n).pos = s.pos := rfl
@[simp] theorem State.setOutLen_sticky (s : State) (n : Nat) : (s.setOutLen n).sticky = s.sticky := rfl
@[simp] theorem State.setOutLen_chan (s : State) (n : Nat) : (s.setOutLen n).chan = s.chan := rfl
@[simp] theorem State.setOutLen_dtype (s : State) (n : Nat) : (s.setOutLen n).dtype = s.dtype := rfl
@[simp] theorem State.setOutLen_pcount (s : State) (n : Nat) : (s.setOutLen n).pcount = s.pcount := rfl
@[simp] theorem State.setOutLen_cfg (s : State) (n : Nat) : (s.setOutLen n).cfg = s.cfg := rfl
@[simp] theorem State.setOutLen_hostq (s : State) (n : Nat) : (s.setOutLen n).hostq = s.hostq := rfl

/-! ## setFrame -/

@[simp] theorem State.setFrame_pstore (s : State) (c d : Byte) (n : Nat) : (s.setFrame c d n).pstore = s.pstore := rfl
@[simp] theorem State.setFrame_lb (s : State) (c d : Byte) (n : Nat) : (s.setFrame c d n).lb = s.lb := rfl
@[simp] theorem State.setFrame_inb (s : State) (c d : Byte) (n : Nat) : (s.setFrame c d n).inb = s.inb := rfl
@[simp] theorem State.setFrame_inLen (s : State) (c d : Byte) (n : Nat) : (s.setFrame c d n).inLen = s.inLen := rfl
@[simp] theorem State.setFrame_outb (s : State) (c d : Byte) (n : Nat) : (s.setFrame c d n).outb = s.outb := rfl
@[simp] theorem State.setFrame_outLen (s : State) (c d : Byte) (n : Nat) : (s.setFrame c d n).outLen = s.outLen := rfl
@[simp] theorem State.setFrame_res (s : State) (c d : Byte) (n : Nat) : (s.setFrame c d n).res = s.res := rfl
@[simp] theorem State.setFrame_err (s : State) (c d : Byte) (n : Nat) : (s.setFrame c d n).err = s.err := rfl
@[simp] theorem State.setFrame_sub (s : State) (c d : Byte) (n : Nat) : (s.setFrame c d n).sub = s.sub := rfl
@[simp] theorem State.setFrame_pos (s : State) (c d : Byte) (n : Nat) : (s.setFrame c d n).pos = s.pos := rfl
@[simp] theorem State.setFrame_sticky (s : State) (c d : Byte) (n : Nat) : (s.setFrame c d n).sticky = s.sticky := rfl
@[simp] theorem State.setFrame_chan (s : State) (c d : Byte) (n : Nat) : (s.setFrame c d n).chan = c := rfl
@[simp] theorem State.setFrame_dtype (s : State) (c d : Byte) (n : Nat) : (s.setFrame c d n).dtype = d := rfl
@[simp] theorem State.setFrame_pcount (s : State) (c d : Byte) (n : Nat) : (s.setFrame c d n).pcount = BitVec.ofNat 8 n := rfl
@[simp] theorem State.setFrame_cfg (s : State) (c d : Byte) (n : Nat) : (s.setFrame c d n).cfg = s.cfg := rfl
@[simp] theorem State.setFrame_hostq (s : State) (c d : Byte) (n : Nat) : (s.setFrame c d n).hostq = s.hostq := rfl

/-! ## pushWrite -/

@[simp] theorem State.pushWrite_pstore (s : State) (a : BitVec 4) (w : Word) : (s.pushWrite a w).pstore = s.pstore := rfl
@[simp] theorem State.pushWrite_lb (s : State) (a : BitVec 4) (w : Word) : (s.pushWrite a w).lb = s.lb := rfl
@[simp] theorem State.pushWrite_inb (s : State) (a : BitVec 4) (w : Word) : (s.pushWrite a w).inb = s.inb := rfl
@[simp] theorem State.pushWrite_inLen (s : State) (a : BitVec 4) (w : Word) : (s.pushWrite a w).inLen = s.inLen := rfl
@[simp] theorem State.pushWrite_outb (s : State) (a : BitVec 4) (w : Word) : (s.pushWrite a w).outb = s.outb := rfl
@[simp] theorem State.pushWrite_outLen (s : State) (a : BitVec 4) (w : Word) : (s.pushWrite a w).outLen = s.outLen := rfl
@[simp] theorem State.pushWrite_res (s : State) (a : BitVec 4) (w : Word) : (s.pushWrite a w).res = s.res := rfl
@[simp] theorem State.pushWrite_err (s : State) (a : BitVec 4) (w : Word) : (s.pushWrite a w).err = s.err := rfl
@[simp] theorem State.pushWrite_sub (s : State) (a : BitVec 4) (w : Word) : (s.pushWrite a w).sub = s.sub := rfl
@[simp] theorem State.pushWrite_pos (s : State) (a : BitVec 4) (w : Word) : (s.pushWrite a w).pos = s.pos := rfl
@[simp] theorem State.pushWrite_sticky (s : State) (a : BitVec 4) (w : Word) : (s.pushWrite a w).sticky = s.sticky := rfl
@[simp] theorem State.pushWrite_chan (s : State) (a : BitVec 4) (w : Word) : (s.pushWrite a w).chan = s.chan := rfl
@[simp] theorem State.pushWrite_dtype (s : State) (a : BitVec 4) (w : Word) : (s.pushWrite a w).dtype = s.dtype := rfl
@[simp] theorem State.pushWrite_pcount (s : State) (a : BitVec 4) (w : Word) : (s.pushWrite a w).pcount = s.pcount := rfl
@[simp] theorem State.pushWrite_cfg (s : State) (a : BitVec 4) (w : Word) : (s.pushWrite a w).cfg = s.cfg := rfl
@[simp] theorem State.pushWrite_hostq (s : State) (a : BitVec 4) (w : Word) : (s.pushWrite a w).hostq = ⟨a, w⟩ :: s.hostq := rfl

/-! ## popWrite -/

@[simp] theorem State.popWrite_pstore (s : State) : (s.popWrite).pstore = s.pstore := rfl
@[simp] theorem State.popWrite_lb (s : State) : (s.popWrite).lb = s.lb := rfl
@[simp] theorem State.popWrite_inb (s : State) : (s.popWrite).inb = s.inb := rfl
@[simp] theorem State.popWrite_inLen (s : State) : (s.popWrite).inLen = s.inLen := rfl
@[simp] theorem State.popWrite_outb (s : State) : (s.popWrite).outb = s.outb := rfl
@[simp] theorem State.popWrite_outLen (s : State) : (s.popWrite).outLen = s.outLen := rfl
@[simp] theorem State.popWrite_res (s : State) : (s.popWrite).res = s.res := rfl
@[simp] theorem State.popWrite_err (s : State) : (s.popWrite).err = s.err := rfl
@[simp] theorem State.popWrite_sub (s : State) : (s.popWrite).sub = s.sub := rfl
@[simp] theorem State.popWrite_pos (s : State) : (s.popWrite).pos = s.pos := rfl
@[simp] theorem State.popWrite_sticky (s : State) : (s.popWrite).sticky = s.sticky := rfl
@[simp] theorem State.popWrite_chan (s : State) : (s.popWrite).chan = s.chan := rfl
@[simp] theorem State.popWrite_dtype (s : State) : (s.popWrite).dtype = s.dtype := rfl
@[simp] theorem State.popWrite_pcount (s : State) : (s.popWrite).pcount = s.pcount := rfl
@[simp] theorem State.popWrite_cfg (s : State) : (s.popWrite).cfg = s.cfg := rfl
@[simp] theorem State.popWrite_hostq (s : State) : (s.popWrite).hostq = s.hostq.tail := rfl

/-! ## softReset -/

@[simp] theorem State.softReset_pstore (s : State) : (s.softReset).pstore = Vector.replicate 40 (defaultPatch s.cfg) := rfl
@[simp] theorem State.softReset_lb (s : State) : (s.softReset).lb = [] := rfl
@[simp] theorem State.softReset_inb (s : State) : (s.softReset).inb = s.inb := rfl
@[simp] theorem State.softReset_inLen (s : State) : (s.softReset).inLen = 0 := rfl
@[simp] theorem State.softReset_outb (s : State) : (s.softReset).outb = s.outb := rfl
@[simp] theorem State.softReset_outLen (s : State) : (s.softReset).outLen = 0 := rfl
@[simp] theorem State.softReset_res (s : State) : (s.softReset).res = 0 := rfl
@[simp] theorem State.softReset_err (s : State) : (s.softReset).err = 0 := rfl
@[simp] theorem State.softReset_sub (s : State) : (s.softReset).sub = 0 := rfl
@[simp] theorem State.softReset_pos (s : State) : (s.softReset).pos = 0 := rfl
@[simp] theorem State.softReset_sticky (s : State) : (s.softReset).sticky = false := rfl
@[simp] theorem State.softReset_chan (s : State) : (s.softReset).chan = 0 := rfl
@[simp] theorem State.softReset_dtype (s : State) : (s.softReset).dtype = 0 := rfl
@[simp] theorem State.softReset_pcount (s : State) : (s.softReset).pcount = 0 := rfl
@[simp] theorem State.softReset_cfg (s : State) : (s.softReset).cfg = s.cfg := rfl
@[simp] theorem State.softReset_hostq (s : State) : (s.softReset).hostq = s.hostq := rfl

/-! ## setSpace -/

@[simp] theorem State.setSpace_inp_lb (s : State) (m : Memory) : (s.setSpace .inp m).lb = s.lb := rfl
@[simp] theorem State.setSpace_inp_inb (s : State) (m : Memory) : (s.setSpace .inp m).inb = m := rfl
@[simp] theorem State.setSpace_inp_outb (s : State) (m : Memory) : (s.setSpace .inp m).outb = s.outb := rfl
@[simp] theorem State.setSpace_out_lb (s : State) (m : Memory) : (s.setSpace .out m).lb = s.lb := rfl
@[simp] theorem State.setSpace_out_inb (s : State) (m : Memory) : (s.setSpace .out m).inb = s.inb := rfl
@[simp] theorem State.setSpace_out_outb (s : State) (m : Memory) : (s.setSpace .out m).outb = m := rfl
@[simp] theorem State.setSpace_lb_lb (s : State) (m : Memory) : (s.setSpace .lb m).lb = m := rfl
@[simp] theorem State.setSpace_lb_inb (s : State) (m : Memory) : (s.setSpace .lb m).inb = s.inb := rfl
@[simp] theorem State.setSpace_lb_outb (s : State) (m : Memory) : (s.setSpace .lb m).outb = s.outb := rfl
@[simp] theorem State.setSpace_pstore (s : State) (sp : Space) (m : Memory) : (s.setSpace sp m).pstore = s.pstore := by
  cases sp <;> rfl
@[simp] theorem State.setSpace_inLen (s : State) (sp : Space) (m : Memory) : (s.setSpace sp m).inLen = s.inLen := by
  cases sp <;> rfl
@[simp] theorem State.setSpace_outLen (s : State) (sp : Space) (m : Memory) : (s.setSpace sp m).outLen = s.outLen := by
  cases sp <;> rfl
@[simp] theorem State.setSpace_res (s : State) (sp : Space) (m : Memory) : (s.setSpace sp m).res = s.res := by
  cases sp <;> rfl
@[simp] theorem State.setSpace_err (s : State) (sp : Space) (m : Memory) : (s.setSpace sp m).err = s.err := by
  cases sp <;> rfl
@[simp] theorem State.setSpace_sub (s : State) (sp : Space) (m : Memory) : (s.setSpace sp m).sub = s.sub := by
  cases sp <;> rfl
@[simp] theorem State.setSpace_pos (s : State) (sp : Space) (m : Memory) : (s.setSpace sp m).pos = s.pos := by
  cases sp <;> rfl
@[simp] theorem State.setSpace_sticky (s : State) (sp : Space) (m : Memory) : (s.setSpace sp m).sticky = s.sticky := by
  cases sp <;> rfl
@[simp] theorem State.setSpace_chan (s : State) (sp : Space) (m : Memory) : (s.setSpace sp m).chan = s.chan := by
  cases sp <;> rfl
@[simp] theorem State.setSpace_dtype (s : State) (sp : Space) (m : Memory) : (s.setSpace sp m).dtype = s.dtype := by
  cases sp <;> rfl
@[simp] theorem State.setSpace_pcount (s : State) (sp : Space) (m : Memory) : (s.setSpace sp m).pcount = s.pcount := by
  cases sp <;> rfl
@[simp] theorem State.setSpace_cfg (s : State) (sp : Space) (m : Memory) : (s.setSpace sp m).cfg = s.cfg := by
  cases sp <;> rfl
@[simp] theorem State.setSpace_hostq (s : State) (sp : Space) (m : Memory) : (s.setSpace sp m).hostq = s.hostq := by
  cases sp <;> rfl

@[simp] theorem State.space_inp (s : State) : s.space .inp = s.inb := rfl
@[simp] theorem State.space_out (s : State) : s.space .out = s.outb := rfl
@[simp] theorem State.space_lb (s : State) : s.space .lb = s.lb := rfl

/-! ## setSlots -/

@[simp] theorem State.setSlots_lb (s : State) (i : Nat) (ps : List Patch) : (s.setSlots i ps).lb = s.lb := by
  induction ps generalizing s i with
  | nil => rfl
  | cons p ps ih => simp [State.setSlots, ih]
@[simp] theorem State.setSlots_inb (s : State) (i : Nat) (ps : List Patch) : (s.setSlots i ps).inb = s.inb := by
  induction ps generalizing s i with
  | nil => rfl
  | cons p ps ih => simp [State.setSlots, ih]
@[simp] theorem State.setSlots_inLen (s : State) (i : Nat) (ps : List Patch) : (s.setSlots i ps).inLen = s.inLen := by
  induction ps generalizing s i with
  | nil => rfl
  | cons p ps ih => simp [State.setSlots, ih]
@[simp] theorem State.setSlots_outb (s : State) (i : Nat) (ps : List Patch) : (s.setSlots i ps).outb = s.outb := by
  induction ps generalizing s i with
  | nil => rfl
  | cons p ps ih => simp [State.setSlots, ih]
@[simp] theorem State.setSlots_outLen (s : State) (i : Nat) (ps : List Patch) : (s.setSlots i ps).outLen = s.outLen := by
  induction ps generalizing s i with
  | nil => rfl
  | cons p ps ih => simp [State.setSlots, ih]
@[simp] theorem State.setSlots_res (s : State) (i : Nat) (ps : List Patch) : (s.setSlots i ps).res = s.res := by
  induction ps generalizing s i with
  | nil => rfl
  | cons p ps ih => simp [State.setSlots, ih]
@[simp] theorem State.setSlots_err (s : State) (i : Nat) (ps : List Patch) : (s.setSlots i ps).err = s.err := by
  induction ps generalizing s i with
  | nil => rfl
  | cons p ps ih => simp [State.setSlots, ih]
@[simp] theorem State.setSlots_sub (s : State) (i : Nat) (ps : List Patch) : (s.setSlots i ps).sub = s.sub := by
  induction ps generalizing s i with
  | nil => rfl
  | cons p ps ih => simp [State.setSlots, ih]
@[simp] theorem State.setSlots_pos (s : State) (i : Nat) (ps : List Patch) : (s.setSlots i ps).pos = s.pos := by
  induction ps generalizing s i with
  | nil => rfl
  | cons p ps ih => simp [State.setSlots, ih]
@[simp] theorem State.setSlots_sticky (s : State) (i : Nat) (ps : List Patch) : (s.setSlots i ps).sticky = s.sticky := by
  induction ps generalizing s i with
  | nil => rfl
  | cons p ps ih => simp [State.setSlots, ih]
@[simp] theorem State.setSlots_chan (s : State) (i : Nat) (ps : List Patch) : (s.setSlots i ps).chan = s.chan := by
  induction ps generalizing s i with
  | nil => rfl
  | cons p ps ih => simp [State.setSlots, ih]
@[simp] theorem State.setSlots_dtype (s : State) (i : Nat) (ps : List Patch) : (s.setSlots i ps).dtype = s.dtype := by
  induction ps generalizing s i with
  | nil => rfl
  | cons p ps ih => simp [State.setSlots, ih]
@[simp] theorem State.setSlots_pcount (s : State) (i : Nat) (ps : List Patch) : (s.setSlots i ps).pcount = s.pcount := by
  induction ps generalizing s i with
  | nil => rfl
  | cons p ps ih => simp [State.setSlots, ih]
@[simp] theorem State.setSlots_cfg (s : State) (i : Nat) (ps : List Patch) : (s.setSlots i ps).cfg = s.cfg := by
  induction ps generalizing s i with
  | nil => rfl
  | cons p ps ih => simp [State.setSlots, ih]
@[simp] theorem State.setSlots_hostq (s : State) (i : Nat) (ps : List Patch) : (s.setSlots i ps).hostq = s.hostq := by
  induction ps generalizing s i with
  | nil => rfl
  | cons p ps ih => simp [State.setSlots, ih]

/-- Slot `j` after a run of slots is written: the patch written there, or what it held. -/
theorem State.setSlots_pstore_getElem (s : State) (i : Nat) (ps : List Patch) (j : Nat) (hj : j < 40) :
    (s.setSlots i ps).pstore[j] =
      if h : i ≤ j ∧ j < i + ps.length then ps[j - i]'(by omega) else s.pstore[j] := by
  induction ps generalizing s i with
  | nil => simp [State.setSlots]
  | cons p ps ih =>
    rw [State.setSlots, ih]
    by_cases h1 : i = j
    · subst h1; simp
    · by_cases h2 : i + 1 ≤ j ∧ j < i + 1 + ps.length
      · have h3 : i ≤ j ∧ j < i + (p :: ps).length := by simp; omega
        have h4 : j - i = (j - (i + 1)) + 1 := by omega
        simp only [h2, h3, and_self, dite_true, h4, List.getElem_cons_succ]
      · have h3 : ¬(i ≤ j ∧ j < i + (p :: ps).length) := by simp; omega
        simp only [h2, h3, dite_false]
        simp [h1]

/-! ## Slots -/

/-- A slot index in range reads the store. -/
theorem State.slot_of_lt (s : State) {i : Nat} (h : i < 40) : s.slot i = s.pstore[i] := by
  simp [State.slot, h]

/-- Reading a slot after writing one. -/
theorem State.slot_setSlot (s : State) {i j : Nat} (p : Patch) (hj : j < 40) :
    (s.setSlot i p).slot j = if i = j then p else s.slot j := by
  by_cases h : i = j <;> simp [State.slot, hj, h]

end Sys2Proof.Machine
end

