-- ==== Sys2Proof/Laws/Ops.lean ====
section
/-! SUPPORT. What each shared operation can do, said once: how a command ends, the checks, the byte spaces, the operands. -/

namespace Sys2Proof.Machine

/-! ## Ending a command -/

@[simp] theorem complete_ok (s t : State) : complete s (.ok t) = .next t.statusOk := rfl
@[simp] theorem complete_pure (s t : State) : complete s (pure t) = .next t.statusOk := rfl
@[simp] theorem complete_raise (s : State) (e : Err) : complete s (raise e) = .next (s.statusErr e) := rfl
@[simp] theorem complete_error (s : State) (e : Err) : complete s (.error (.raised e)) = .next (s.statusErr e) := rfl
@[simp] theorem complete_faulted (s : State) (f : Fault) : complete s (.error (.faulted f)) = .fault f := rfl

/-- The two ways a command can answer a next state. -/
theorem complete_eq_next {s t : State} {c : Cmd State} (h : complete s c = .next t) :
    (∃ u, c = .ok u ∧ t = u.statusOk) ∨ (∃ e, c = .error (.raised e) ∧ t = s.statusErr e) := by
  unfold complete at h
  split at h <;> cases h
  · exact .inl ⟨_, rfl, rfl⟩
  · exact .inr ⟨_, rfl, rfl⟩

/-- A command answers a next state unless its body faults. -/
theorem complete_isNext {s : State} {c : Cmd State} (h : ∀ f, c ≠ .error (.faulted f)) : ∃ t, complete s c = .next t := by
  unfold complete
  split
  · exact ⟨_, rfl⟩
  · exact ⟨_, rfl⟩
  · rename_i f; exact absurd rfl (h f)

theorem errKind_code_ne_zero (k : ErrKind) : k.code ≠ errNone := by cases k <;> decide
theorem errKind_code_ne_seven (k : ErrKind) : k.code ≠ 7 := by cases k <;> decide

/-! ## Sequencing a body -/

@[simp] theorem cmd_ok_bind {α β : Type} (a : α) (f : α → Cmd β) : ((Except.ok a : Cmd α) >>= f) = f a := rfl
@[simp] theorem cmd_error_bind {α β : Type} (e : Stop) (f : α → Cmd β) :
    ((Except.error e : Cmd α) >>= f) = .error e := rfl
@[simp] theorem cmd_ok_map {α β : Type} (a : α) (f : α → β) : (f <$> (Except.ok a : Cmd α)) = .ok (f a) := rfl
@[simp] theorem cmd_raise_map {α β : Type} (e : Err) (f : α → β) : (f <$> (raise e : Cmd α)) = raise e := rfl
@[simp] theorem cmd_raise_bind {α β : Type} (e : Err) (f : α → Cmd β) : ((raise e : Cmd α) >>= f) = raise e := rfl

/-- The value of a sequence comes from a value of each part. -/
theorem cmd_bind_eq_ok {α β : Type} {x : Cmd α} {f : α → Cmd β} {b : β} :
    (x >>= f) = .ok b ↔ ∃ a, x = .ok a ∧ f a = .ok b := by
  cases x <;> simp

/-- A sequence stops where its first part stops, or where the rest does. -/
theorem cmd_bind_eq_error {α β : Type} {x : Cmd α} {f : α → Cmd β} {e : Stop} :
    (x >>= f) = .error e ↔ x = .error e ∨ ∃ a, x = .ok a ∧ f a = .error e := by
  cases x with
  | ok a => simp
  | error e' => simp

@[simp] theorem except_ok_map {ε α β : Type} (a : α) (f : α → β) : (f <$> (Except.ok a : Except ε α)) = .ok (f a) := rfl
@[simp] theorem except_error_map {ε α β : Type} (e : ε) (f : α → β) :
    (f <$> (Except.error e : Except ε α)) = .error e := rfl
@[simp] theorem except_ok_bind {ε α β : Type} (a : α) (f : α → Except ε β) : ((Except.ok a : Except ε α) >>= f) = f a := rfl
@[simp] theorem except_error_bind {ε α β : Type} (e : ε) (f : α → Except ε β) :
    ((Except.error e : Except ε α) >>= f) = .error e := rfl

/-- The value of a sequence of codec functions comes from a value of each part. -/
theorem except_bind_eq_ok {ε α β : Type} {x : Except ε α} {f : α → Except ε β} {b : β} :
    (x >>= f) = .ok b ↔ ∃ a, x = .ok a ∧ f a = .ok b := by
  cases x <;> simp

/-- A sequence of codec functions fails where its first part fails, or where the rest does. -/
theorem except_bind_eq_error {ε α β : Type} {x : Except ε α} {f : α → Except ε β} {e : ε} :
    (x >>= f) = .error e ↔ x = .error e ∨ ∃ a, x = .ok a ∧ f a = .error e := by
  cases x <;> simp

/-! ## Checks -/

@[simp] theorem require_true (e : Err) : require true e = .ok () := rfl
@[simp] theorem require_false (e : Err) : require false e = raise e := rfl

theorem require_eq_ok {b : Bool} {e : Err} : require b e = .ok () ↔ b = true := by
  cases b <;> simp [require, raise]

theorem require_eq_error {b : Bool} {e : Err} {x : Stop} : require b e = .error x ↔ b = false ∧ x = .raised e := by
  cases b <;> simp [require, raise, eq_comm]

@[simp] theorem lift_ok {α : Type} (a : α) : lift (.ok a) = .ok a := rfl
@[simp] theorem lift_error {α : Type} (e : Err) : (lift (.error e) : Cmd α) = raise e := rfl

theorem lift_eq_ok {α : Type} {x : Except Err α} {a : α} : lift x = .ok a ↔ x = .ok a := by
  cases x <;> simp [raise]

/-- A lifted codec function raises its own error and never faults. -/
theorem lift_eq_error {α : Type} {x : Except Err α} {e : Stop} :
    lift x = .error e ↔ ∃ r, x = .error r ∧ e = .raised r := by
  cases x <;> simp [raise, eq_comm]

theorem raise_eq_error {α : Type} {e : Err} {x : Stop} : (raise e : Cmd α) = .error x ↔ x = .raised e := by
  simp [raise, eq_comm]

/-! ## Byte spaces -/

theorem memRead_of_le {s : State} {sp : Space} {a n : Nat} (h : a + n ≤ sp.size) :
    memRead s sp a n = .ok ((s.space sp).readRun a n) := by simp [memRead, h]

theorem memReadByte_of_lt {s : State} {sp : Space} {a : Nat} (h : a < sp.size) :
    memReadByte s sp a = .ok ((s.space sp).read a) := by simp [memReadByte, h]

theorem memWrite_of_le {s : State} {sp : Space} {a : Nat} {bs : List Byte} (h : a + bs.length ≤ sp.size) :
    memWrite s sp a bs = .ok (s.setSpace sp ((s.space sp).writeRun a bs)) := by simp [memWrite, h]

/-- A read answers the run of the space, inside it. -/
theorem memRead_eq_ok {s : State} {sp : Space} {a n : Nat} {bs : List Byte} :
    memRead s sp a n = .ok bs ↔ a + n ≤ sp.size ∧ bs = (s.space sp).readRun a n := by
  unfold memRead; split <;> simp_all [eq_comm]

theorem memReadByte_eq_ok {s : State} {sp : Space} {a : Nat} {b : Byte} :
    memReadByte s sp a = .ok b ↔ a < sp.size ∧ b = (s.space sp).read a := by
  unfold memReadByte; split <;> simp_all [eq_comm]

/-- A write answers the state with the run written, inside the space. -/
theorem memWrite_eq_ok {s t : State} {sp : Space} {a : Nat} {bs : List Byte} :
    memWrite s sp a bs = .ok t ↔ a + bs.length ≤ sp.size ∧ t = s.setSpace sp ((s.space sp).writeRun a bs) := by
  unfold memWrite; split <;> simp_all [eq_comm]

/-- A byte access never raises an error of the block: it answers or faults. -/
theorem memRead_eq_error {s : State} {sp : Space} {a n : Nat} {e : Stop} :
    memRead s sp a n = .error e ↔ ¬a + n ≤ sp.size ∧ e = .faulted (.outsideSpace sp a) := by
  unfold memRead; split <;> simp_all [eq_comm]

theorem memReadByte_eq_error {s : State} {sp : Space} {a : Nat} {e : Stop} :
    memReadByte s sp a = .error e ↔ ¬a < sp.size ∧ e = .faulted (.outsideSpace sp a) := by
  unfold memReadByte; split <;> simp_all [eq_comm]

theorem memWrite_eq_error {s : State} {sp : Space} {a : Nat} {bs : List Byte} {e : Stop} :
    memWrite s sp a bs = .error e ↔ ¬a + bs.length ≤ sp.size ∧ e = .faulted (.outsideSpace sp a) := by
  unfold memWrite; split <;> simp_all [eq_comm]

/-! ## Operands -/

theorem slotOperand_of_lt {a : Byte} (h : zext a < 40) : slotOperand a = .ok (zext a) := by
  simp [slotOperand, h, pure, Except.pure]

theorem slotOperand_of_ge {a : Byte} (h : 40 ≤ zext a) : slotOperand a = raise (badA (zext a)) := by
  simp [slotOperand, Nat.not_lt.2 h]

theorem offsetOperand_of_lt {a : Byte} (h : zext a < 102) : offsetOperand a = .ok (zext a) := by
  simp [offsetOperand, h, pure, Except.pure]

theorem offsetOperand_of_ge {a : Byte} (h : 102 ≤ zext a) : offsetOperand a = raise (badA (zext a)) := by
  simp [offsetOperand, Nat.not_lt.2 h]

theorem instanceOperand_of_lt {g : Kind} {b : Half} (h : zext b < g.count) : instanceOperand g b = .ok (zext b) := by
  simp [instanceOperand, h, pure, Except.pure]

theorem instanceOperand_of_ge {g : Kind} {b : Half} (h : g.count ≤ zext b) :
    instanceOperand g b = raise (badB (zext b)) := by
  simp [instanceOperand, Nat.not_lt.2 h]

theorem indexOperand_of_lt {b : Half} {n : Nat} (h : zext b < n) : indexOperand b n = .ok (zext b) := by
  simp [indexOperand, h, pure, Except.pure]

theorem indexOperand_of_ge {b : Half} {n : Nat} (h : n ≤ zext b) : indexOperand b n = raise (badB (zext b)) := by
  simp [indexOperand, Nat.not_lt.2 h]

theorem lengthOperand_of_le {b : Half} {n : Nat} (h : zext b ≤ n) : lengthOperand b n = .ok (zext b) := by
  simp [lengthOperand, h, pure, Except.pure]

theorem lengthOperand_of_gt {b : Half} {n : Nat} (h : n < zext b) : lengthOperand b n = raise (badB (zext b)) := by
  simp [lengthOperand, Nat.not_le.2 h]

theorem fieldOperand_of_some {c : Config} {f : Byte} {r : FieldRef} (h : c.field? (zext f) = some r) :
    fieldOperand c f = .ok r := by simp [fieldOperand, h]

theorem fieldOperand_of_none {c : Config} {f : Byte} (h : c.field? (zext f) = none) :
    fieldOperand c f = raise (badB (zext f)) := by simp [fieldOperand, h]

/-- An operand check answers the operand, in range, or raises. -/
theorem slotOperand_eq_ok {a : Byte} {i : Nat} : slotOperand a = .ok i ↔ zext a < 40 ∧ i = zext a := by
  rcases Nat.lt_or_ge (zext a) 40 with h | h
  · rw [slotOperand_of_lt h]; simp [h, eq_comm]
  · rw [slotOperand_of_ge h]; simp [raise]; omega

theorem slotOperand_eq_error {a : Byte} {e : Stop} :
    slotOperand a = .error e ↔ 40 ≤ zext a ∧ e = .raised (badA (zext a)) := by
  rcases Nat.lt_or_ge (zext a) 40 with h | h
  · rw [slotOperand_of_lt h]; simp; omega
  · rw [slotOperand_of_ge h]; simp [raise, h, eq_comm]

theorem offsetOperand_eq_ok {a : Byte} {i : Nat} : offsetOperand a = .ok i ↔ zext a < 102 ∧ i = zext a := by
  rcases Nat.lt_or_ge (zext a) 102 with h | h
  · rw [offsetOperand_of_lt h]; simp [h, eq_comm]
  · rw [offsetOperand_of_ge h]; simp [raise]; omega

theorem offsetOperand_eq_error {a : Byte} {e : Stop} :
    offsetOperand a = .error e ↔ 102 ≤ zext a ∧ e = .raised (badA (zext a)) := by
  rcases Nat.lt_or_ge (zext a) 102 with h | h
  · rw [offsetOperand_of_lt h]; simp; omega
  · rw [offsetOperand_of_ge h]; simp [raise, h, eq_comm]

theorem instanceOperand_eq_ok {g : Kind} {b : Half} {i : Nat} :
    instanceOperand g b = .ok i ↔ zext b < g.count ∧ i = zext b := by
  rcases Nat.lt_or_ge (zext b) g.count with h | h
  · rw [instanceOperand_of_lt h]; simp [h, eq_comm]
  · rw [instanceOperand_of_ge h]; simp [raise]; omega

theorem instanceOperand_eq_error {g : Kind} {b : Half} {e : Stop} :
    instanceOperand g b = .error e ↔ g.count ≤ zext b ∧ e = .raised (badB (zext b)) := by
  rcases Nat.lt_or_ge (zext b) g.count with h | h
  · rw [instanceOperand_of_lt h]; simp; omega
  · rw [instanceOperand_of_ge h]; simp [raise, h, eq_comm]

theorem indexOperand_eq_ok {b : Half} {n i : Nat} : indexOperand b n = .ok i ↔ zext b < n ∧ i = zext b := by
  rcases Nat.lt_or_ge (zext b) n with h | h
  · rw [indexOperand_of_lt h]; simp [h, eq_comm]
  · rw [indexOperand_of_ge h]; simp [raise]; omega

theorem indexOperand_eq_error {b : Half} {n : Nat} {e : Stop} :
    indexOperand b n = .error e ↔ n ≤ zext b ∧ e = .raised (badB (zext b)) := by
  rcases Nat.lt_or_ge (zext b) n with h | h
  · rw [indexOperand_of_lt h]; simp; omega
  · rw [indexOperand_of_ge h]; simp [raise, h, eq_comm]

theorem lengthOperand_eq_ok {b : Half} {n i : Nat} : lengthOperand b n = .ok i ↔ zext b ≤ n ∧ i = zext b := by
  rcases Nat.lt_or_ge n (zext b) with h | h
  · rw [lengthOperand_of_gt h]; simp [raise]; omega
  · rw [lengthOperand_of_le h]; simp [h, eq_comm]

theorem lengthOperand_eq_error {b : Half} {n : Nat} {e : Stop} :
    lengthOperand b n = .error e ↔ n < zext b ∧ e = .raised (badB (zext b)) := by
  rcases Nat.lt_or_ge n (zext b) with h | h
  · rw [lengthOperand_of_gt h]; simp [raise, h, eq_comm]
  · rw [lengthOperand_of_le h]; simp; omega

theorem fieldOperand_eq_ok {c : Config} {f : Byte} {r : FieldRef} :
    fieldOperand c f = .ok r ↔ c.field? (zext f) = some r := by
  unfold fieldOperand; split <;> simp_all [raise]

theorem fieldOperand_eq_error {c : Config} {f : Byte} {e : Stop} :
    fieldOperand c f = .error e ↔ c.field? (zext f) = none ∧ e = .raised (badB (zext f)) := by
  cases h : c.field? (zext f) with
  | some r => rw [fieldOperand_of_some h]; simp
  | none => rw [fieldOperand_of_none h]; simp [raise, eq_comm]

theorem check_eq_ok {f : FieldSpec} {id p : Nat} {v : Int} : check f id v p = .ok () ↔ f.inRange v = true := by
  unfold check; split <;> simp_all

theorem check_eq_error {f : FieldSpec} {id p : Nat} {v : Int} {e : Err} :
    check f id v p = .error e ↔ f.inRange v = false ∧ e = rangeErr id p := by
  cases h : f.inRange v <;> simp [check, h, eq_comm]

end Sys2Proof.Machine
end

