-- ==== Sys2Proof/Laws/Packer.lean ====
section
/-! SUPPORT. The bit-packer, bit by bit: which bit of a run a slice writes, that fields with disjoint slices do not disturb
one another, and that a field read back from its slices is the field that was placed. -/

namespace Sys2Proof

/-! ## Slices -/

/-- Whether a slice covers bit `b` of byte `n`. -/
def Slice.hits (sl : Slice) (n b : Nat) : Bool := sl.byte == n && sl.lo ≤ b && b ≤ sl.hi

theorem Slice.hits_eq_true {sl : Slice} {n b : Nat} :
    sl.hits n b = true ↔ sl.byte = n ∧ sl.lo ≤ b ∧ b ≤ sl.hi := by simp [Slice.hits, and_assoc]

theorem Slice.ok_iff {len w : Nat} {sl : Slice} : sl.ok len w = true ↔
    sl.byte < len ∧ sl.hi < 8 ∧ sl.lo ≤ sl.hi ∧ sl.vl ≤ sl.vh ∧ sl.vh < w ∧ sl.hi - sl.lo = sl.vh - sl.vl := by
  simp [Slice.ok, and_assoc]

theorem Slice.disjoint_iff {a b : Slice} : a.disjoint b = true ↔ a.byte ≠ b.byte ∨ a.hi < b.lo ∨ b.hi < a.lo := by
  simp [Slice.disjoint, or_assoc]

theorem Slice.disjoint_symm {a b : Slice} (h : a.disjoint b = true) : b.disjoint a = true := by
  rw [Slice.disjoint_iff] at h ⊢; omega

/-- Disjoint slices cover no common bit. -/
theorem Slice.not_hits_of_disjoint {a b : Slice} {n i : Nat} (h : a.disjoint b = true) (ha : a.hits n i = true) :
    b.hits n i = false := by
  rw [Slice.disjoint_iff] at h
  rw [Slice.hits_eq_true] at ha
  rw [Bool.eq_false_iff, ne_eq, Slice.hits_eq_true]
  omega

theorem slicesDisjoint_iff {l : List Slice} : slicesDisjoint l = true ↔ l.Pairwise (fun a b => a.disjoint b = true) := by
  induction l with
  | nil => simp [slicesDisjoint]
  | cons a l ih => simp [slicesDisjoint, ih]

/-- Slices of which no two share a bit cover no bit twice. -/
theorem slice_unique_of_disjoint {l : List Slice} (h : slicesDisjoint l = true) {a b : Slice} (ha : a ∈ l) (hb : b ∈ l)
    {n i : Nat} (h1 : a.hits n i = true) (h2 : b.hits n i = true) : a = b := by
  by_contra hne
  have hd := @List.Pairwise.forall _ (fun a b : Slice => a.disjoint b = true) _ ⟨fun _ _ => Slice.disjoint_symm⟩
    (slicesDisjoint_iff.1 h) _ ha _ hb hne
  rw [Slice.not_hits_of_disjoint hd h1] at h2
  cases h2

/-- What one row of a table must satisfy in a run of `len` bytes: its slices are well placed and carry every bit of the coded
value exactly once, its range lies inside the coded range, and an SGN field has seven bits. -/
structure FieldSpec.Good (len : Nat) (f : FieldSpec) : Prop where
  ok : ∀ sl ∈ f.slices, sl.ok len f.width = true
  covers : ∀ i < f.width, ∃ sl ∈ f.slices, sl.vl ≤ i ∧ i ≤ sl.vh
  once : ∀ a ∈ f.slices, ∀ b ∈ f.slices, ∀ i, a.vl ≤ i → i ≤ a.vh → b.vl ≤ i → i ≤ b.vh → a = b
  sgn : f.cls = .sgn → f.width = 7
  min_ge : f.codedRange.1 ≤ f.min
  max_le : f.max ≤ f.codedRange.2

end Sys2Proof

namespace Sys2Proof.Machine

/-! ## Bits -/

theorem testBit_bits (v hi lo i : Nat) : (bits v hi lo).testBit i = (decide (i < hi - lo + 1) && v.testBit (lo + i)) := by
  simp [bits, Nat.testBit_mod_two_pow, Nat.testBit_shiftRight]

theorem bits_lt (v hi lo : Nat) : bits v hi lo < 2 ^ (hi - lo + 1) := Nat.mod_lt _ (Nat.two_pow_pos _)

theorem any_congr_mem {α : Type} {l : List α} {p q : α → Bool} (h : ∀ x ∈ l, p x = q x) : l.any p = l.any q := by
  induction l with
  | nil => rfl
  | cons a l ih => simp only [List.any_cons, h a (by simp), ih (fun x hx => h x (by simp [hx]))]

/-- Bit `b` of byte `n` of a run. -/
def bitAt (out : List Byte) (n b : Nat) : Bool := (out.getD n 0).getLsbD b

/-! ## Placing -/

@[simp] theorem length_placeSlice (u : Nat) (out : List Byte) (sl : Slice) :
    (placeSlice u out sl).length = out.length := by simp [placeSlice]

theorem length_foldl_placeSlice (u : Nat) (sls : List Slice) (out : List Byte) :
    (sls.foldl (placeSlice u) out).length = out.length := by
  induction sls generalizing out with
  | nil => rfl
  | cons sl sls ih => simp [ih]

@[simp] theorem length_placeField (f : FieldSpec) (u : Nat) (out : List Byte) :
    (placeField f u out).length = out.length := length_foldl_placeSlice _ _ _

/-- The bits of a run after one slice is placed. -/
theorem bitAt_placeSlice {u : Nat} {out : List Byte} {sl : Slice} {w : Nat} (hok : sl.ok out.length w = true) (n b : Nat)
    (hb : b < 8) :
    bitAt (placeSlice u out sl) n b = (bitAt out n b || (sl.hits n b && u.testBit (sl.vl + (b - sl.lo)))) := by
  obtain ⟨h1, h2, h3, h4, h5, h6⟩ := Slice.ok_iff.1 hok
  unfold bitAt placeSlice
  rw [List.getD_eq_getElem?_getD, List.getD_eq_getElem?_getD, List.getElem?_modify]
  by_cases hn : sl.byte = n
  · subst hn
    have hbit : (BitVec.ofNat 8 (bits u sl.vh sl.vl <<< sl.lo)).getLsbD b
        = (sl.hits sl.byte b && u.testBit (sl.vl + (b - sl.lo))) := by
      rw [BitVec.getLsbD_ofNat, Nat.testBit_shiftLeft, testBit_bits]
      simp only [Slice.hits, hb, decide_true, Bool.true_and, BEq.rfl, ge_iff_le]
      by_cases hlo : sl.lo ≤ b
      · have : decide (b - sl.lo < sl.vh - sl.vl + 1) = decide (b ≤ sl.hi) := by
          rw [decide_eq_decide]; omega
        simp only [hlo, decide_true, Bool.true_and, this]
      · simp [hlo]
    simp [List.getElem?_eq_getElem h1, ← hbit]
  · simp [hn, Slice.hits]

/-- The bits of a run after the slices of one field are placed. -/
theorem bitAt_foldl_placeSlice {u w : Nat} {sls : List Slice} {out : List Byte}
    (hok : ∀ sl ∈ sls, sl.ok out.length w = true) (n b : Nat) (hb : b < 8) :
    bitAt (sls.foldl (placeSlice u) out) n b
      = (bitAt out n b || sls.any fun sl => sl.hits n b && u.testBit (sl.vl + (b - sl.lo))) := by
  induction sls generalizing out with
  | nil => simp
  | cons sl sls ih =>
    rw [List.foldl_cons, ih (fun s hs => by rw [length_placeSlice]; exact hok s (by simp [hs])),
      bitAt_placeSlice (hok sl (by simp)) n b hb]
    simp [Bool.or_assoc]

theorem bitAt_placeField {f : FieldSpec} {u : Nat} {out : List Byte}
    (hok : ∀ sl ∈ f.slices, sl.ok out.length f.width = true) (n b : Nat) (hb : b < 8) :
    bitAt (placeField f u out) n b
      = (bitAt out n b || f.slices.any fun sl => sl.hits n b && u.testBit (sl.vl + (b - sl.lo))) :=
  bitAt_foldl_placeSlice hok n b hb

/-- No bit of the run that one of the slices covers is set. -/
def clean (sls : List Slice) (out : List Byte) : Prop :=
  ∀ sl ∈ sls, ∀ n b, b < 8 → sl.hits n b = true → bitAt out n b = false

@[simp] theorem bitAt_zeros (len n b : Nat) : bitAt (List.replicate len 0) n b = false := by
  unfold bitAt
  rw [List.getD_eq_getElem?_getD, List.getElem?_replicate]
  split <;> simp

theorem clean_zeros (sls : List Slice) (len : Nat) : clean sls (List.replicate len 0) := by
  intro sl _ n b _ _
  unfold bitAt
  rw [List.getD_eq_getElem?_getD, List.getElem?_replicate]
  split <;> simp

/-! ## Gathering -/

/-- The bits gathered from the slices of a field. -/
theorem testBit_foldl_gather (bytes : List Byte) (sls : List Slice) (acc i : Nat) :
    (sls.foldl (fun u sl => u ||| bits (zext (bytes.getD sl.byte 0)) sl.hi sl.lo <<< sl.vl) acc).testBit i
      = (acc.testBit i || sls.any fun sl =>
          decide (sl.vl ≤ i) && decide (i - sl.vl < sl.hi - sl.lo + 1) && bitAt bytes sl.byte (sl.lo + (i - sl.vl))) := by
  induction sls generalizing acc with
  | nil => simp
  | cons sl sls ih =>
    rw [List.foldl_cons, ih, Nat.testBit_or, Nat.testBit_shiftLeft, testBit_bits]
    simp [bitAt, BitVec.getLsbD, Bool.or_assoc, Bool.and_assoc]

theorem testBit_gatherField (f : FieldSpec) (bytes : List Byte) (i : Nat) :
    (gatherField f bytes).testBit i = f.slices.any fun sl =>
      decide (sl.vl ≤ i) && decide (i - sl.vl < sl.hi - sl.lo + 1) && bitAt bytes sl.byte (sl.lo + (i - sl.vl)) := by
  rw [gatherField, testBit_foldl_gather]; simp

/-- What is gathered depends only on the bits the field's slices cover. -/
theorem gatherField_congr {f : FieldSpec} {a b : List Byte} {len : Nat}
    (hok : ∀ sl ∈ f.slices, sl.ok len f.width = true)
    (h : ∀ sl ∈ f.slices, ∀ n i, i < 8 → sl.hits n i = true → bitAt a n i = bitAt b n i) :
    gatherField f a = gatherField f b := by
  apply Nat.eq_of_testBit_eq
  intro i
  rw [testBit_gatherField, testBit_gatherField]
  apply any_congr_mem
  intro sl hs
  obtain ⟨h1, h2, h3, h4, h5, h6⟩ := Slice.ok_iff.1 (hok sl hs)
  by_cases hi : i - sl.vl < sl.hi - sl.lo + 1
  · rw [h sl hs sl.byte (sl.lo + (i - sl.vl)) (by omega) (Slice.hits_eq_true.2 ⟨rfl, by omega, by omega⟩)]
  · simp [hi]

/-- The bit of the coded value that stands in a bit of the run is the bit gathered from there. -/
theorem testBit_gatherField_of_hits {len : Nat} {f : FieldSpec} (hg : f.Good len) (bytes : List Byte) {sl : Slice}
    (hs : sl ∈ f.slices) {n b : Nat} (hh : sl.hits n b = true) :
    (gatherField f bytes).testBit (sl.vl + (b - sl.lo)) = bitAt bytes n b := by
  obtain ⟨h1, h2, h3, h4, h5, h6⟩ := Slice.ok_iff.1 (hg.ok sl hs)
  obtain ⟨rfl, hlo, hhi⟩ := Slice.hits_eq_true.1 hh
  rw [testBit_gatherField, Bool.eq_iff_iff, List.any_eq_true]
  constructor
  · rintro ⟨sl', hs', h⟩
    simp only [Bool.and_eq_true, decide_eq_true_eq] at h
    obtain ⟨k1, k2, k3, k4, k5, k6⟩ := Slice.ok_iff.1 (hg.ok sl' hs')
    have : sl' = sl := hg.once sl' hs' sl hs (sl.vl + (b - sl.lo)) (by omega) (by omega) (by omega) (by omega)
    subst this
    have e : sl'.lo + (sl'.vl + (b - sl'.lo) - sl'.vl) = b := by omega
    rw [e] at h
    exact h.2
  · intro h
    refine ⟨sl, hs, ?_⟩
    have e : sl.lo + (sl.vl + (b - sl.lo) - sl.vl) = b := by omega
    simp only [Bool.and_eq_true, decide_eq_true_eq, e]
    exact ⟨⟨by omega, by omega⟩, h⟩

/-- A coded value gathered from slices is no wider than the field. -/
theorem gatherField_lt {len : Nat} {f : FieldSpec} (hg : f.Good len) (bytes : List Byte) :
    gatherField f bytes < 2 ^ f.width := by
  apply Nat.lt_pow_two_of_testBit
  intro i hi
  rw [testBit_gatherField, List.any_eq_false]
  intro sl hs
  obtain ⟨h1, h2, h3, h4, h5, h6⟩ := Slice.ok_iff.1 (hg.ok sl hs)
  simp only [Bool.and_eq_true, decide_eq_true_eq, not_and]
  omega

/-- A field read back from its slices is the field that was placed there. -/
theorem gatherField_placeField {len : Nat} {f : FieldSpec} (hg : f.Good len)
    (hd : slicesDisjoint f.slices = true) {out : List Byte} (hl : out.length = len) (hc : clean f.slices out) {u : Nat}
    (hu : u < 2 ^ f.width) : gatherField f (placeField f u out) = u := by
  subst hl
  apply Nat.eq_of_testBit_eq
  intro i
  have key : ∀ sl ∈ f.slices, sl.vl ≤ i → i ≤ sl.vh →
      bitAt (placeField f u out) sl.byte (sl.lo + (i - sl.vl)) = u.testBit i := by
    intro sl hs hlo hhi
    obtain ⟨h1, h2, h3, h4, h5, h6⟩ := Slice.ok_iff.1 (hg.ok sl hs)
    have hh : sl.hits sl.byte (sl.lo + (i - sl.vl)) = true := Slice.hits_eq_true.2 ⟨rfl, by omega, by omega⟩
    rw [bitAt_placeField hg.ok _ _ (by omega), hc sl hs _ _ (by omega) hh, Bool.false_or, Bool.eq_iff_iff, List.any_eq_true]
    constructor
    · rintro ⟨sl', hs', h⟩
      rw [Bool.and_eq_true] at h
      have := slice_unique_of_disjoint hd hs hs' hh h.1
      subst this
      have e : sl.vl + (sl.lo + (i - sl.vl) - sl.lo) = i := by omega
      rw [e] at h
      exact h.2
    · intro h
      refine ⟨sl, hs, ?_⟩
      have e : sl.vl + (sl.lo + (i - sl.vl) - sl.lo) = i := by omega
      rw [hh, e, h]; rfl
  by_cases hi : i < f.width
  · obtain ⟨sl, hs, hlo, hhi⟩ := hg.covers i hi
    have hk := key sl hs hlo hhi
    obtain ⟨h1, h2, h3, h4, h5, h6⟩ := Slice.ok_iff.1 (hg.ok sl hs)
    have hh : sl.hits sl.byte (sl.lo + (i - sl.vl)) = true := Slice.hits_eq_true.2 ⟨rfl, by omega, by omega⟩
    rw [← hk, ← testBit_gatherField_of_hits hg _ hs hh]
    congr 1
    omega
  · have h1 : u.testBit i = false := Nat.testBit_lt_two_pow (Nat.lt_of_lt_of_le hu (Nat.pow_le_pow_right (by omega) (by omega)))
    have h2 : (gatherField f (placeField f u out)).testBit i = false :=
      Nat.testBit_lt_two_pow (Nat.lt_of_lt_of_le (gatherField_lt hg _) (Nat.pow_le_pow_right (by omega) (by omega)))
    rw [h1, h2]

end Sys2Proof.Machine
end

