-- ==== Sys2Proof/Laws/Tables.lean ====
section
/-! SUPPORT. The field tables of a configuration that is admitted (WellFormed.lean): every row satisfies what the bit-packer
needs of it, whatever the ranges, the defaults, the MISC layout and the policies. -/

namespace Sys2Proof

/-- What `FieldSpec.Good` asks of the class, the width and the slices of a row, as a check. -/
def shapeOk (len : Nat) (f : FieldClass × Nat × List Slice) : Bool :=
  f.2.2.all (Slice.ok len f.2.1) &&
  (List.range f.2.1).all (fun i => f.2.2.any fun sl => decide (sl.vl ≤ i) && decide (i ≤ sl.vh)) &&
  f.2.2.all (fun a => f.2.2.all fun b => decide (a = b) || decide (a.vh < b.vl) || decide (b.vh < a.vl)) &&
  (f.1 != .sgn || f.2.1 == 7)

/-- The class, the width and the slices of a row. -/
def FieldSpec.shape (f : FieldSpec) : FieldClass × Nat × List Slice := (f.cls, f.width, f.slices)

theorem FieldSpec.good_of_shape {len : Nat} {f : FieldSpec} (h : shapeOk len f.shape = true)
    (h1 : f.codedRange.1 ≤ f.min) (h2 : f.max ≤ f.codedRange.2) : f.Good len := by
  simp only [shapeOk, FieldSpec.shape, Bool.and_eq_true, List.all_eq_true, List.any_eq_true, Bool.or_eq_true,
    decide_eq_true_eq, List.mem_range, bne_iff_ne, beq_iff_eq] at h
  obtain ⟨⟨⟨ha, hb⟩, hc⟩, hd⟩ := h
  refine ⟨ha, hb, ?_, fun e => hd.resolve_left (fun k => k e), h1, h2⟩
  intro a hA b hB i k1 k2 k3 k4
  rcases hc a hA b hB with (h | h) | h
  · exact h
  · omega
  · omega

theorem FieldSpec.rangeOk_iff {c : Config} {f : FieldSpec} : f.rangeOk c = true ↔
    f.codedRange.1 ≤ f.min ∧ f.min ≤ c.default f ∧ c.default f ≤ f.max ∧ f.max ≤ f.codedRange.2 := by
  simp [FieldSpec.rangeOk, and_assoc]

/-- A default in range: what R87 asks of every row. -/
theorem FieldSpec.default_inRange {c : Config} {f : FieldSpec} (h : f.rangeOk c = true) :
    f.inRange (c.default f) = true := by
  have := FieldSpec.rangeOk_iff.1 h
  simp [FieldSpec.inRange, this.2.1, this.2.2.1]

/-- A table whose rows are good and whose slices are disjoint. -/
structure TableOk (c : Config) (len : Nat) (fs : List FieldSpec) : Prop where
  good : ∀ f ∈ fs, f.Good len
  range : ∀ f ∈ fs, f.rangeOk c = true
  disjoint : slicesDisjoint (fs.flatMap (·.slices)) = true

/-- Two tables with the classes, the widths and the slices alike have the shapes alike. -/
theorem shapes_eq {fs gs : List FieldSpec} (h1 : sameFields fs gs = true) (h2 : sameSlices fs gs = true) :
    fs.map FieldSpec.shape = gs.map FieldSpec.shape := by
  simp only [sameFields, sameSlices, beq_iff_eq] at h1 h2
  induction fs generalizing gs with
  | nil => cases gs <;> simp_all
  | cons f fs ih =>
    cases gs with
    | nil => simp at h1
    | cons g gs =>
      simp only [List.map_cons, List.cons.injEq, Prod.mk.injEq] at h1 h2 ⊢
      exact ⟨by simp [FieldSpec.shape, h1.1.1, h1.1.2, h2.1], ih h1.2 h2.2⟩

theorem flatMap_slices (fs : List FieldSpec) :
    fs.flatMap (·.slices) = (fs.map FieldSpec.shape).flatMap (·.2.2) := by
  induction fs with
  | nil => rfl
  | cons f fs ih => simp only [List.flatMap_cons, List.map_cons, ih]; rfl

/-- A table with the shapes of a standard table that was checked. -/
theorem tableOk_of_std {c : Config} {len : Nat} {fs std : List FieldSpec} (h1 : sameFields fs std = true)
    (h2 : sameSlices fs std = true) (h3 : fs.all (FieldSpec.rangeOk c) = true)
    (hs : (std.map FieldSpec.shape).all (shapeOk len) = true)
    (hd : slicesDisjoint ((std.map FieldSpec.shape).flatMap (·.2.2)) = true) : TableOk c len fs := by
  have he := shapes_eq h1 h2
  rw [List.all_eq_true] at h3 hs
  refine ⟨fun f hf => ?_, h3, ?_⟩
  · have hr := FieldSpec.rangeOk_iff.1 (h3 f hf)
    exact FieldSpec.good_of_shape (hs _ (he ▸ List.mem_map_of_mem hf)) hr.1 hr.2.2.2
  · rw [flatMap_slices, he]; exact hd

theorem tableOk_filter {c : Config} {len : Nat} {fs : List FieldSpec} (h : TableOk c len fs) (p : FieldSpec → Bool) :
    TableOk c len (fs.filter p) := by
  refine ⟨fun f hf => h.good f (List.mem_filter.1 hf).1, fun f hf => h.range f (List.mem_filter.1 hf).1, ?_⟩
  rw [slicesDisjoint_iff]
  refine (slicesDisjoint_iff.1 h.disjoint).sublist ?_
  exact List.Sublist.flatMap List.filter_sublist _

/-- The rows of a `MISC_LAYOUT` that R119 admits. -/
theorem shapeOk_of_oneSlice {len : Nat} {f : FieldSpec} (h : f.oneSliceOk len = true)
    (hw : f.cls = .sgn → f.width = 7) : shapeOk len f.shape = true := by
  unfold FieldSpec.oneSliceOk at h
  split at h
  · rename_i sl hsl
    simp only [Bool.and_eq_true, beq_iff_eq] at h
    simp only [shapeOk, FieldSpec.shape, hsl, List.all_cons, List.all_nil, Bool.and_true, List.any_cons, List.any_nil,
      Bool.or_false, Bool.and_eq_true, List.all_eq_true, List.mem_range, Bool.or_eq_true, decide_eq_true_eq, bne_iff_ne,
      beq_iff_eq, true_or, and_true]
    exact ⟨⟨h.1.1, fun i hi => ⟨by omega, by omega⟩⟩, by by_cases e : f.cls = .sgn <;> simp_all⟩
  · cases h

theorem sgnWidth_of_sameFields {fs std : List FieldSpec} (h : sameFields fs std = true)
    (hs : (std.map fun f => (f.cls, f.width)).all (fun t => t.1 != .sgn || t.2 == 7) = true) :
    ∀ f ∈ fs, f.cls = .sgn → f.width = 7 := by
  intro f hf he
  simp only [sameFields, beq_iff_eq] at h
  have := (List.all_eq_true.1 hs) _ (h ▸ List.mem_map_of_mem (f := fun f : FieldSpec => (f.cls, f.width)) hf)
  simpa [he] using this

/-- An admitted configuration, table by table. -/
theorem Config.wf_iff {c : Config} : c.wf = true ↔ modsrcOk c.modsrc = true ∧
    (sameFields c.envFields stdEnvFields = true ∧ sameSlices c.envFields stdEnvFields = true) ∧
    (sameFields c.lfoFields stdLfoFields = true ∧ sameSlices c.lfoFields stdLfoFields = true) ∧
    (sameFields c.oscFields stdOscFields = true ∧ sameSlices c.oscFields stdOscFields = true) ∧
    (sameFields c.miscFields stdMiscFields = true ∧ layoutOk 14 c.miscFields = true) ∧
    c.envFields.all (FieldSpec.rangeOk c) = true ∧ c.lfoFields.all (FieldSpec.rangeOk c) = true ∧
    c.oscFields.all (FieldSpec.rangeOk c) = true ∧ c.miscFields.all (FieldSpec.rangeOk c) = true := by
  simp only [Config.wf, Bool.and_eq_true, and_assoc]

/-- Every table of an admitted configuration is one the bit-packer can use. -/
theorem Config.table_ok {c : Config} (h : c.wf = true) (g : Kind) : TableOk c g.runLen (c.fields g) := by
  obtain ⟨-, he, hl, ho, hm, re, rl, ro, rm⟩ := Config.wf_iff.1 h
  cases g with
  | env => exact tableOk_of_std he.1 he.2 re (by decide) (by decide)
  | lfo =>
    have := tableOk_of_std (len := 4) hl.1 hl.2 rl (by decide) (by decide)
    unfold Config.fields
    split
    · contradiction
    · cases c.lfoAux
      · exact this
      · exact tableOk_filter this _
    · contradiction
    · contradiction
  | osc => exact tableOk_of_std ho.1 ho.2 ro (by decide) (by decide)
  | misc =>
    have hs := sgnWidth_of_sameFields hm.1 (by decide)
    have hlay := hm.2
    simp only [layoutOk, Bool.and_eq_true, List.all_eq_true] at hlay rm
    refine ⟨fun f hf => ?_, rm, hlay.2⟩
    have hr := FieldSpec.rangeOk_iff.1 (rm f hf)
    exact FieldSpec.good_of_shape (shapeOk_of_oneSlice (hlay.1 f hf) (hs f hf)) hr.1 hr.2.2.2

end Sys2Proof
end

