-- ==== Sys2Proof/Laws/Groups.lean ====
section
/-! SUPPORT. Coded values, and a run of fields packed or unpacked one after the other: what each can do, said once. -/

namespace Sys2Proof.Machine

/-! ## The sign codec -/

theorem d2w_of_mem {sub pos : Nat} {v : Int} (h1 : -63 ≤ v) (h2 : v ≤ 63) :
    d2w sub pos v = .ok (if v < 0 then (128 + v).toNat else v.toNat) := by
  have h : ¬(v < -63 ∨ v > 63) := by omega
  simp only [d2w, h, if_false]
  split <;> rfl

theorem d2w_of_not_mem {sub pos : Nat} {v : Int} (h : v < -63 ∨ 63 < v) : d2w sub pos v = .error (rangeErr sub pos) := by
  have h' : v < -63 ∨ v > 63 := h
  simp only [d2w, h', if_true]

theorem w2d_of_gt {p : W2dHighPolicy} {sub pos w : Nat} (h : 127 < w) : w2d p sub pos w = .error (rangeErr sub pos) := by
  have h' : w > 127 := h
  cases p; simp only [w2d, h', if_true]

theorem w2d_64 {p : W2dHighPolicy} {sub pos : Nat} : w2d p sub pos 64 = .error (invalidCodeErr sub pos) := by
  cases p; rfl

theorem w2d_of_lt {p : W2dHighPolicy} {sub pos w : Nat} (h : w < 64) : w2d p sub pos w = .ok (w : Int) := by
  have h1 : ¬w > 127 := by omega
  have h2 : w ≠ 64 := by omega
  simp only [w2d, h1, h2, h, if_true, if_false]

theorem w2d_of_mem {p : W2dHighPolicy} {sub pos w : Nat} (h1 : 64 < w) (h2 : w ≤ 127) :
    w2d p sub pos w = .ok ((w : Int) - 128) := by
  have h3 : ¬w > 127 := by omega
  have h4 : w ≠ 64 := by omega
  have h5 : ¬w < 64 := by omega
  simp only [w2d, h3, h4, h5, if_false]

/-- What `w2d` answers lies in the display range, and comes from the wire value the sign codec gives it. -/
theorem w2d_eq_ok {p : W2dHighPolicy} {sub pos w : Nat} {v : Int} (h : w2d p sub pos w = .ok v) :
    -63 ≤ v ∧ v ≤ 63 ∧ ∀ sub' pos', d2w sub' pos' v = .ok w := by
  rcases Nat.lt_or_ge 127 w with h1 | h1
  · rw [w2d_of_gt h1] at h; cases h
  rcases Nat.lt_trichotomy w 64 with h2 | h2 | h2
  · rw [w2d_of_lt h2] at h
    cases h
    refine ⟨by omega, by omega, fun _ _ => ?_⟩
    rw [d2w_of_mem (by omega) (by omega)]
    congr 1
  · subst h2; rw [w2d_64] at h; cases h
  · rw [w2d_of_mem h2 h1] at h
    cases h
    refine ⟨by omega, by omega, fun _ _ => ?_⟩
    rw [d2w_of_mem (by omega) (by omega)]
    congr 1; split <;> omega

/-! ## Coded values (R120) -/

theorem encField_of_sgn {f : FieldSpec} {id pos : Nat} {v : Int} (h : f.cls = .sgn) :
    encField f id pos v = d2w id pos v := by unfold encField; rw [h]

theorem encField_of_ne_sgn {f : FieldSpec} {id pos : Nat} {v : Int} (h : f.cls ≠ .sgn) :
    encField f id pos v = .ok v.toNat := by
  unfold encField; split
  · contradiction
  · rfl

theorem decField_of_sgn {c : Config} {f : FieldSpec} {id pos u : Nat} (h : f.cls = .sgn) :
    decField c f id pos u = (w2d c.w2dHigh id pos u >>= fun v => check f id v pos >>= fun _ => pure v) := by
  unfold decField; rw [h]

theorem decField_of_ne_sgn {c : Config} {f : FieldSpec} {id pos u : Nat} (h : f.cls ≠ .sgn) :
    decField c f id pos u = (check f id (u : Int) pos >>= fun _ => pure (u : Int)) := by
  unfold decField; split
  · contradiction
  · rfl

theorem FieldSpec.inRange_iff {f : FieldSpec} {v : Int} : f.inRange v = true ↔ f.min ≤ v ∧ v ≤ f.max := by
  simp [FieldSpec.inRange]

/-- A value in range encodes, fits the field's width, and decodes to itself: R115 for one field. -/
theorem encField_ok {len : Nat} {c : Config} {f : FieldSpec} (hg : f.Good len) {v : Int} (hv : f.inRange v = true)
    (id pos : Nat) : ∃ u, encField f id pos v = .ok u ∧ u < 2 ^ f.width ∧ ∀ id' pos', decField c f id' pos' u = .ok v := by
  have hr := FieldSpec.inRange_iff.1 hv
  have h1 := hg.min_ge
  have h2 := hg.max_le
  by_cases hs : f.cls = .sgn
  · simp only [FieldSpec.codedRange, hs] at h1 h2
    rw [encField_of_sgn hs, d2w_of_mem (by omega) (by omega), hg.sgn hs]
    refine ⟨_, rfl, by split <;> omega, fun id' pos' => ?_⟩
    have hw : w2d c.w2dHigh id' pos' (if v < 0 then (128 + v).toNat else v.toNat) = .ok v := by
      split
      · rw [w2d_of_mem (by omega) (by omega)]; congr 1; omega
      · rw [w2d_of_lt (by omega)]; congr 1; omega
    rw [decField_of_sgn hs, hw, except_ok_bind, check_eq_ok.2 hv]
    rfl
  · have e : f.codedRange = (0, 2 ^ f.width - 1) := by
      unfold FieldSpec.codedRange; split
      · contradiction
      · rfl
    rw [e] at h1 h2
    rw [encField_of_ne_sgn hs]
    have h0 : ((v.toNat : Nat) : Int) = v := Int.toNat_of_nonneg (by simp at h1; omega)
    refine ⟨_, rfl, ?_, fun id' pos' => ?_⟩
    · have : (v.toNat : Int) < ((2 ^ f.width : Nat) : Int) := by
        rw [h0]; push_cast; simp at h2; omega
      exact_mod_cast this
    · rw [decField_of_ne_sgn hs, h0, check_eq_ok.2 hv]; rfl

/-- What a decoded field holds: a value in range, which encodes back to the coded value it came from. -/
theorem decField_eq_ok {c : Config} {f : FieldSpec} {id pos u : Nat} {v : Int} (h : decField c f id pos u = .ok v) :
    f.inRange v = true ∧ ∀ id' pos', encField f id' pos' v = .ok u := by
  by_cases hs : f.cls = .sgn
  · rw [decField_of_sgn hs, except_bind_eq_ok] at h
    obtain ⟨w, h1, h2⟩ := h
    rw [except_bind_eq_ok] at h2
    obtain ⟨_, h2, h3⟩ := h2
    cases h3
    exact ⟨check_eq_ok.1 h2, fun _ _ => by rw [encField_of_sgn hs]; exact (w2d_eq_ok h1).2.2 _ _⟩
  · rw [decField_of_ne_sgn hs, except_bind_eq_ok] at h
    obtain ⟨_, h2, h3⟩ := h
    cases h3
    exact ⟨check_eq_ok.1 h2, fun _ _ => by rw [encField_of_ne_sgn hs]; simp⟩

/-! ## Records -/

theorem recordOk_cons {f : FieldSpec} {fs : List FieldSpec} {v : Int} {vs : Record} :
    recordOk (f :: fs) (v :: vs) = true ↔ f.inRange v = true ∧ recordOk fs vs = true := by
  simp [recordOk]

theorem recordOk_length {fs : List FieldSpec} {r : Record} (h : recordOk fs r = true) : r.length = fs.length := by
  induction fs generalizing r with
  | nil => cases r <;> simp_all [recordOk]
  | cons f fs ih =>
    cases r with
    | nil => simp [recordOk] at h
    | cons v vs => simp [ih (recordOk_cons.1 h).2]

/-- A record is in range when it has a value for every field and each is. -/
theorem recordOk_iff {fs : List FieldSpec} {r : Record} : recordOk fs r = true ↔
    r.length = fs.length ∧ ∀ (j : Nat) (f : FieldSpec), fs[j]? = some f → f.inRange (r.getD j 0) = true := by
  induction fs generalizing r with
  | nil => cases r <;> simp [recordOk]
  | cons f fs ih =>
    cases r with
    | nil => simp [recordOk]
    | cons v vs =>
      rw [recordOk_cons, ih]
      constructor
      · rintro ⟨h1, h2, h3⟩
        refine ⟨by simp [h2], fun j g hj => ?_⟩
        cases j with
        | zero => simp at hj; subst hj; simpa using h1
        | succ j => simpa using h3 j g (by simpa using hj)
      · rintro ⟨h1, h2⟩
        exact ⟨by simpa using h2 0 f rfl, by simpa using h1, fun j g hj => by simpa using h2 (j + 1) g (by simpa using hj)⟩

/-! ## Runs of fields -/

/-- Packing a record in range: it succeeds, leaves the bits of no field as they were, and unpacks to the record. -/
theorem packFields_ok {c : Config} {base len : Nat} {fs : List FieldSpec} {vs : Record} {id : Nat} {out : List Byte}
    (hg : ∀ f ∈ fs, f.Good len) (hd : slicesDisjoint (fs.flatMap (·.slices)) = true) (hl : out.length = len)
    (hc : clean (fs.flatMap (·.slices)) out) (hv : recordOk fs vs = true) :
    ∃ bs, packFields base fs vs id out = .ok bs ∧ bs.length = len ∧
      (∀ n b, b < 8 → (∀ sl ∈ fs.flatMap (·.slices), sl.hits n b = false) → bitAt bs n b = bitAt out n b) ∧
      ∀ base' id', unpackFields c bs base' fs id' = .ok vs := by
  induction fs generalizing vs id out with
  | nil =>
    cases vs with
    | nil => exact ⟨out, rfl, hl, fun _ _ _ _ => rfl, fun _ _ => rfl⟩
    | cons v vs => simp [recordOk] at hv
  | cons f fs ih =>
    cases vs with
    | nil => simp [recordOk] at hv
    | cons v vs =>
      obtain ⟨hv1, hv2⟩ := recordOk_cons.1 hv
      have hgf := hg f (by simp)
      obtain ⟨u, hu1, hu2, hu3⟩ := encField_ok (c := c) hgf hv1 id (base + f.firstByte)
      rw [List.flatMap_cons, slicesDisjoint_iff, List.pairwise_append] at hd
      obtain ⟨hd1, hd2, hd3⟩ := hd
      have hok : ∀ sl ∈ f.slices, sl.ok out.length f.width = true := hl ▸ hgf.ok
      have hrest : ∀ sl ∈ fs.flatMap (·.slices), ∀ n b, sl.hits n b = true → ∀ sl' ∈ f.slices, sl'.hits n b = false :=
        fun sl hs n b hh sl' hs' => Slice.not_hits_of_disjoint (Slice.disjoint_symm (hd3 sl' hs' sl hs)) hh
      obtain ⟨bs, hb1, hb2, hb3, hb4⟩ := ih (id := id + 1) (out := placeField f u out) (fun g hg' => hg g (by simp [hg']))
        (slicesDisjoint_iff.2 hd2) (by rw [length_placeField, hl])
        (by
          intro sl hs n b hb hh
          rw [bitAt_placeField hok n b hb, hc sl (by simp only [List.flatMap_cons, List.mem_append]; exact .inr hs) n b hb hh,
            Bool.false_or, List.any_eq_false]
          intro sl' hs'
          simp [hrest sl hs n b hh sl' hs']) hv2
      refine ⟨bs, ?_, hb2, ?_, fun base' id' => ?_⟩
      · rw [packFields, hu1, except_ok_bind, hb1]
      · intro n b hb hno
        rw [hb3 n b hb (fun sl hs => hno sl (by simp only [List.flatMap_cons, List.mem_append]; exact .inr hs)),
          bitAt_placeField hok n b hb]
        have : (f.slices.any fun sl => sl.hits n b && u.testBit (sl.vl + (b - sl.lo))) = false := by
          rw [List.any_eq_false]
          intro sl hs
          simp [hno sl (by simp only [List.flatMap_cons, List.mem_append]; exact .inl hs)]
        rw [this, Bool.or_false]
      · have hgat : gatherField f bs = u := by
          rw [← gatherField_placeField hgf (slicesDisjoint_iff.2 hd1) hl
            (fun sl hs => hc sl (by simp only [List.flatMap_cons, List.mem_append]; exact .inl hs)) hu2]
          refine gatherField_congr (len := len) hgf.ok fun sl hs n i hi hh => hb3 n i hi fun sl' hs' => ?_
          exact Slice.not_hits_of_disjoint (hd3 sl hs sl' hs') hh
        rw [unpackFields, hgat, hu3, except_ok_bind, hb4, except_ok_bind]
        rfl

/-- What unpacking answers is a record in range. -/
theorem unpackFields_eq_ok {c : Config} {bytes : List Byte} {base : Nat} {fs : List FieldSpec} {id : Nat} {vs : Record}
    (h : unpackFields c bytes base fs id = .ok vs) : recordOk fs vs = true := by
  induction fs generalizing id vs with
  | nil => cases h; rfl
  | cons f fs ih =>
    rw [unpackFields, except_bind_eq_ok] at h
    obtain ⟨v, h1, h2⟩ := h
    rw [except_bind_eq_ok] at h2
    obtain ⟨vs', h2, h3⟩ := h2
    cases h3
    exact recordOk_cons.2 ⟨(decField_eq_ok h1).1, ih h2⟩

/-- Packing what was unpacked from a run gives the run's own bits under the slices, and no other bit. -/
theorem packFields_unpackFields {c : Config} {base base' len : Nat} {bytes : List Byte} {fs : List FieldSpec} {vs : Record}
    {id id' : Nat} {out : List Byte} (hg : ∀ f ∈ fs, f.Good len) (hl : out.length = len)
    (h : unpackFields c bytes base' fs id' = .ok vs) :
    ∃ bs, packFields base fs vs id out = .ok bs ∧ bs.length = len ∧
      ∀ n b, b < 8 → bitAt bs n b =
        (bitAt out n b || ((fs.flatMap (·.slices)).any (fun sl => sl.hits n b) && bitAt bytes n b)) := by
  induction fs generalizing vs id id' out with
  | nil =>
    cases h
    exact ⟨out, rfl, hl, fun n b _ => by simp⟩
  | cons f fs ih =>
    rw [unpackFields, except_bind_eq_ok] at h
    obtain ⟨v, h1, h2⟩ := h
    rw [except_bind_eq_ok] at h2
    obtain ⟨vs', h2, h3⟩ := h2
    cases h3
    have hgf := hg f (by simp)
    obtain ⟨bs, hb1, hb2, hb3⟩ := ih (id := id + 1) (out := placeField f (gatherField f bytes) out)
      (fun g hg' => hg g (by simp [hg'])) (by rw [length_placeField, hl]) h2
    refine ⟨bs, ?_, hb2, fun n b hb => ?_⟩
    · rw [packFields, (decField_eq_ok h1).2, except_ok_bind, hb1]
    · have hslice : (f.slices.any fun sl => sl.hits n b && (gatherField f bytes).testBit (sl.vl + (b - sl.lo)))
          = ((f.slices.any fun sl => sl.hits n b) && bitAt bytes n b) := by
        rw [Bool.eq_iff_iff, Bool.and_eq_true, List.any_eq_true, List.any_eq_true]
        constructor
        · rintro ⟨sl, hs, hh⟩
          rw [Bool.and_eq_true] at hh
          exact ⟨⟨sl, hs, hh.1⟩, by rw [← testBit_gatherField_of_hits hgf bytes hs hh.1]; exact hh.2⟩
        · rintro ⟨⟨sl, hs, hh⟩, hb'⟩
          exact ⟨sl, hs, by rw [hh, testBit_gatherField_of_hits hgf bytes hs hh]; simpa using hb'⟩
      rw [hb3 n b hb, bitAt_placeField (hl ▸ hgf.ok) n b hb, hslice, List.flatMap_cons, List.any_append]
      cases bitAt out n b <;> cases (f.slices.any fun sl => sl.hits n b) <;> cases bitAt bytes n b <;> simp

/-- What is unpacked depends only on the bits under the slices. -/
theorem unpackFields_congr {c : Config} {a b : List Byte} {base len : Nat} {fs : List FieldSpec} {id : Nat}
    (hg : ∀ f ∈ fs, f.Good len) (h : ∀ n i, i < 8 → (fs.flatMap (·.slices)).any (fun sl => sl.hits n i) = true → bitAt a n i = bitAt b n i) :
    unpackFields c a base fs id = unpackFields c b base fs id := by
  induction fs generalizing id with
  | nil => rfl
  | cons f fs ih =>
    have e : gatherField f a = gatherField f b := gatherField_congr (hg f (by simp)).ok fun sl hs n i hi hh => h n i hi (by
      simp only [List.flatMap_cons, List.any_append, Bool.or_eq_true, List.any_eq_true]; exact .inl ⟨sl, hs, hh⟩)
    rw [unpackFields, unpackFields, e, ih (fun g hg' => hg g (by simp [hg'])) (fun n i hi hh => h n i hi (by
      simp only [List.flatMap_cons, List.any_append, Bool.or_eq_true]; exact .inr hh))]

/-! ## Unused bits (R125) -/

/-- The bits of the mask that `[hi:lo]` stands for. -/
theorem testBit_mask (hi lo i : Nat) : (2 ^ (hi + 1) - 2 ^ lo).testBit i = (decide (lo ≤ i) && decide (i ≤ hi)) := by
  rcases Nat.lt_or_ge hi lo with h | h
  · have : 2 ^ (hi + 1) - 2 ^ lo = 0 := Nat.sub_eq_zero_of_le (Nat.pow_le_pow_right (by omega) (by omega))
    rw [this, Nat.zero_testBit]
    by_cases h1 : lo ≤ i
    · have : ¬i ≤ hi := by omega
      simp [this]
    · simp [h1]
  · have e : 2 ^ (hi + 1) - 2 ^ lo = (2 ^ (hi + 1 - lo) - 1) <<< lo := by
      rw [Nat.shiftLeft_eq, Nat.sub_mul, ← Nat.pow_add, Nat.one_mul]
      congr 2; omega
    rw [e, Nat.testBit_shiftLeft, Nat.testBit_two_pow_sub_one, Bool.eq_iff_iff]
    simp only [Bool.and_eq_true, decide_eq_true_eq]
    omega

theorem testBit_usedBits (fs : List FieldSpec) (n i : Nat) :
    (usedBits fs n).testBit i = (fs.flatMap (·.slices)).any (fun sl => sl.hits n i) := by
  have key : ∀ (sls : List Slice) (m : Nat),
      (sls.foldl (fun m sl => if sl.byte = n then m ||| (2 ^ (sl.hi + 1) - 2 ^ sl.lo) else m) m).testBit i
        = (m.testBit i || sls.any (fun sl => sl.hits n i)) := by
    intro sls
    induction sls with
    | nil => simp
    | cons sl sls ih =>
      intro m
      rw [List.foldl_cons, ih]
      by_cases h : sl.byte = n
      · simp [h, Slice.hits, testBit_mask, Bool.or_assoc]
      · have : (sl.byte == n) = false := by simp [h]
        simp [h, Slice.hits, this]
  rw [usedBits, key]; simp

/-- A byte whose set bits are all under slices. -/
theorem or_usedBits_eq_iff (fs : List FieldSpec) (n : Nat) (b : Byte) :
    zext b ||| usedBits fs n = usedBits fs n ↔
      ∀ i < 8, b.getLsbD i = true → (fs.flatMap (·.slices)).any (fun sl => sl.hits n i) = true := by
  constructor
  · intro h i hi hb
    rw [← testBit_usedBits, ← h, Nat.testBit_or]
    have : b.toNat.testBit i = true := hb
    simp [this]
  · intro h
    apply Nat.eq_of_testBit_eq
    intro i
    rw [Nat.testBit_or]
    by_cases hb : b.toNat.testBit i = true
    · have hi : i < 8 := by
        by_contra hn
        have : b.getLsbD i = false := BitVec.getLsbD_of_ge b i (by omega)
        rw [BitVec.getLsbD, hb] at this; cases this
      have := h i hi hb
      rw [← testBit_usedBits] at this
      simp [this]
    · simp [hb]

/-- The check passes when every set bit of the run is under a slice. -/
theorem checkUnused_of_covered {fs : List FieldSpec} {base n : Nat} {bs : List Byte}
    (h : ∀ k i, i < 8 → bitAt bs k i = true → (fs.flatMap (·.slices)).any (fun sl => sl.hits (n + k) i) = true) :
    checkUnused fs base n bs = .ok () := by
  induction bs generalizing n with
  | nil => rfl
  | cons b bs ih =>
    have h0 : zext b ||| usedBits fs n = usedBits fs n := by
      rw [or_usedBits_eq_iff]
      exact fun i hi hb => by simpa using h 0 i hi (by simpa [bitAt] using hb)
    rw [checkUnused, if_pos h0]
    refine ih fun k i hi hb => ?_
    have := h (k + 1) i hi (by simpa [bitAt] using hb)
    rwa [show n + (k + 1) = n + 1 + k by omega] at this

/-- What an unpacked group holds is a record in range, under every policy. -/
theorem unpackGroup_eq_ok {c : Config} {g : Kind} {k : Nat} {bytes : List Byte} {r : Record}
    (h : unpackGroup c g k bytes = .ok r) :
    unpackFields c bytes (g.base k) (c.fields g) (g.idBase k) = .ok r ∧
      (c.unused = .reject → checkUnused (c.fields g) (g.base k) 0 bytes = .ok ()) := by
  unfold unpackGroup at h
  split at h
  · rename_i hu; exact ⟨h, fun e => by rw [hu] at e; cases e⟩
  · split at h
    · rw [except_bind_eq_ok] at h
      obtain ⟨⟨⟩, h1, h2⟩ := h
      exact ⟨h2, fun _ => h1⟩
    · rw [except_bind_eq_ok] at h
      obtain ⟨r', h1, h2⟩ := h
      rw [except_bind_eq_ok] at h2
      obtain ⟨⟨⟩, h2, h3⟩ := h2
      cases h3
      exact ⟨h1, fun _ => h2⟩

/-- A group unpacks when its fields do and no unused bit is set. -/
theorem unpackGroup_of_ok {c : Config} {g : Kind} {k : Nat} {bytes : List Byte} {r : Record}
    (h : unpackFields c bytes (g.base k) (c.fields g) (g.idBase k) = .ok r)
    (hu : checkUnused (c.fields g) (g.base k) 0 bytes = .ok ()) : unpackGroup c g k bytes = .ok r := by
  unfold unpackGroup
  split
  · exact h
  · split
    · rw [hu]; exact h
    · rw [h, except_ok_bind, hu]; rfl

end Sys2Proof.Machine
end

