-- ==== Sys2Proof/Laws/Patch.lean ====
section
/-! SUPPORT. The patch record and the patch store: reading a group, a field or a slot after a write, the store invariant R21
group by group, and the field an id names. -/

namespace Sys2Proof.Machine

/-! ## Groups -/

@[simp] theorem Patch.setGroup_name (p : Patch) (g : Kind) (k : Nat) (r : Record) : (p.setGroup g k r).name = p.name := by
  cases g <;> rfl

/-- The group that was written, read back. -/
theorem Patch.group_setGroup {p : Patch} {g : Kind} {k : Nat} {r : Record} (h : k < g.count) :
    (p.setGroup g k r).group g k = r := by
  cases g <;> simp only [Kind.count] at h <;> simp [Patch.setGroup, Patch.group, h]

/-- Every other group keeps its record. -/
theorem Patch.group_setGroup_ne {p : Patch} {g g' : Kind} {k k' : Nat} {r : Record} (h : g' ≠ g ∨ k' ≠ k)
    (hk : k < g.count) (hk' : k' < g'.count) : (p.setGroup g k r).group g' k' = p.group g' k' := by
  cases g <;> cases g' <;> simp only [Kind.count] at hk hk' <;>
    simp only [Patch.setGroup, Patch.group, ne_eq, not_true_eq_false, false_or] at h ⊢
  · rw [Vector.getElem?_setIfInBounds_ne (Ne.symm h)]
  · rw [Vector.getElem?_setIfInBounds_ne (Ne.symm h)]
  · rw [Vector.getElem?_setIfInBounds_ne (Ne.symm h)]
  · omega

theorem Vector.all_toList_iff {α : Type} {n : Nat} (v : Vector α n) (p : α → Bool) (d : α) :
    v.toList.all p = true ↔ ∀ k < n, p (v[k]?.getD d) = true := by
  rw [List.all_eq_true]
  constructor
  · intro h k hk
    rw [Vector.getElem?_eq_getElem hk, Option.getD_some]
    exact h _ (by rw [Vector.mem_toList_iff]; exact Vector.getElem_mem hk)
  · intro h x hx
    rw [Vector.mem_toList_iff] at hx
    obtain ⟨k, hk, rfl⟩ := Vector.getElem_of_mem hx
    have := h k hk
    rwa [Vector.getElem?_eq_getElem hk, Option.getD_some] at this

/-- The store invariant R21 for one patch, group by group. -/
theorem Patch.ok_iff {c : Config} {p : Patch} : p.ok c = true ↔
    p.name.length ≤ nameMax ∧ ∀ g k, k < Kind.count g → recordOk (c.fields g) (p.group g k) = true := by
  simp only [Patch.ok, Bool.and_eq_true, decide_eq_true_eq]
  rw [Vector.all_toList_iff _ _ [], Vector.all_toList_iff _ _ [], Vector.all_toList_iff _ _ []]
  constructor
  · rintro ⟨⟨⟨⟨h, h1⟩, h2⟩, h3⟩, h4⟩
    refine ⟨h, fun g k hk => ?_⟩
    cases g
    · exact h1 k hk
    · exact h2 k hk
    · exact h3 k hk
    · exact h4
  · rintro ⟨h, hg⟩
    exact ⟨⟨⟨⟨h, hg .env⟩, hg .lfo⟩, hg .osc⟩, hg .misc 0 (by decide)⟩

theorem Patch.ok_setGroup {c : Config} {p : Patch} {g : Kind} {k : Nat} {r : Record} (hp : p.ok c = true)
    (hk : k < g.count) (hr : recordOk (c.fields g) r = true) : (p.setGroup g k r).ok c = true := by
  rw [Patch.ok_iff] at hp ⊢
  refine ⟨by rw [Patch.setGroup_name]; exact hp.1, fun g' k' hk' => ?_⟩
  by_cases h : g' ≠ g ∨ k' ≠ k
  · rw [Patch.group_setGroup_ne h hk hk']; exact hp.2 g' k' hk'
  · simp only [not_or, ne_eq, not_not] at h
    obtain ⟨rfl, rfl⟩ := h
    rw [Patch.group_setGroup hk]; exact hr

theorem Patch.ok_name {c : Config} {p : Patch} {n : List Byte} (hp : p.ok c = true) (hn : n.length ≤ nameMax) :
    ({ p with name := n } : Patch).ok c = true := by
  rw [Patch.ok_iff] at hp ⊢
  exact ⟨hn, hp.2⟩

/-- Two patches with the same name and the same groups are the same record (R33). -/
theorem Patch.ext_groups {p q : Patch} (hn : p.name = q.name)
    (hg : ∀ g k, k < Kind.count g → p.group g k = q.group g k) : p = q := by
  have h3 : ∀ {n : Nat} (v w : Vector Record n), (∀ k < n, v[k]?.getD [] = w[k]?.getD []) → v = w := by
    intro n v w h
    apply Vector.ext
    intro k hk
    have := h k hk
    rwa [Vector.getElem?_eq_getElem hk, Vector.getElem?_eq_getElem hk, Option.getD_some, Option.getD_some] at this
  obtain ⟨n, e, l, o, m⟩ := p
  obtain ⟨n', e', l', o', m'⟩ := q
  simp only at hn
  have he := h3 e e' fun k hk => hg .env k hk
  have hl := h3 l l' fun k hk => hg .lfo k hk
  have ho := h3 o o' fun k hk => hg .osc k hk
  have hm : m = m' := hg .misc 0 (by decide)
  rw [hn, he, hl, ho, hm]

/-! ## The default patch -/

theorem recordOk_default {c : Config} {fs : List FieldSpec} (h : ∀ f ∈ fs, f.rangeOk c = true) :
    recordOk fs (fs.map c.default) = true := by
  induction fs with
  | nil => rfl
  | cons f fs ih =>
    exact recordOk_cons.2 ⟨FieldSpec.default_inRange (h f (by simp)), ih fun g hg => h g (by simp [hg])⟩

theorem group_defaultPatch {c : Config} {g : Kind} {k : Nat} (h : k < g.count) :
    (defaultPatch c).group g k = defaultRecord c g := by
  cases g <;> simp only [Kind.count] at h <;> simp [defaultPatch, Patch.group, h]

/-- Every field of the default patch is in range, and its name fits. -/
theorem defaultPatch_ok {c : Config} (h : c.wf = true) : (defaultPatch c).ok c = true := by
  rw [Patch.ok_iff]
  refine ⟨by show (6 : Nat) ≤ 32; decide, fun g k hk => ?_⟩
  rw [group_defaultPatch hk]
  exact recordOk_default (Config.table_ok h g).range

/-! ## Fields -/

/-- What an id that names a field names. -/
theorem field?_eq_some {c : Config} {id : Nat} {r : FieldRef} (h : c.field? id = some r) :
    (r.kind, r.k, r.j) = idSplit id ∧ r.k < r.kind.count ∧ (c.fields r.kind)[r.j]? = some r.spec := by
  unfold Config.field? at h
  split at h
  rename_i g k j he
  split at h
  · rename_i hk
    split at h
    · rename_i f hf
      cases h
      exact ⟨he.symm, hk, hf⟩
    · cases h
  · cases h

/-- Different ids name different fields. -/
theorem idSplit_injective {a b : Nat} (h : idSplit a = idSplit b) : a = b := by
  unfold idSplit at h
  rcases Nat.lt_or_ge a 0x40 with h1 | h1 <;> rcases Nat.lt_or_ge b 0x40 with k1 | k1 <;>
    rcases Nat.lt_or_ge a 0x60 with h2 | h2 <;> rcases Nat.lt_or_ge b 0x60 with k2 | k2 <;>
    rcases Nat.lt_or_ge a 0xA0 with h3 | h3 <;> rcases Nat.lt_or_ge b 0xA0 with k3 | k3 <;>
    simp only [h1, k1, h2, k2, h3, k3, Nat.not_lt_of_ge, if_true, if_false, Prod.mk.injEq, reduceCtorEq, false_and,
      true_and] at h <;> omega

theorem field?_injective {c : Config} {a b : Nat} {r : FieldRef} (h1 : c.field? a = some r) (h2 : c.field? b = some r) :
    a = b :=
  idSplit_injective ((field?_eq_some h1).1.symm.trans (field?_eq_some h2).1)

theorem recordOk_set {fs : List FieldSpec} {vs : Record} {j : Nat} {f : FieldSpec} {v : Int}
    (h : recordOk fs vs = true) (hj : fs[j]? = some f) (hv : f.inRange v = true) : recordOk fs (vs.set j v) = true := by
  rw [recordOk_iff] at h ⊢
  refine ⟨by simp [h.1], fun i g hi => ?_⟩
  have hl : j < vs.length := by
    rw [h.1]
    exact (List.getElem?_eq_some_iff.1 hj).1
  by_cases hij : j = i
  · subst hij
    rw [hj] at hi
    cases hi
    simpa [List.getD_eq_getElem?_getD, List.getElem?_set, hl] using hv
  · simpa [List.getD_eq_getElem?_getD, List.getElem?_set, hij] using h.2 i g hi

/-- The field that was written, read back. -/
theorem Patch.field_setField {c : Config} {p : Patch} {id : Nat} {r : FieldRef} {v : Int} (hr : c.field? id = some r)
    (hp : p.ok c = true) : (p.setField r v).field r = v := by
  obtain ⟨-, hk, hj⟩ := field?_eq_some hr
  have hl := recordOk_length ((Patch.ok_iff.1 hp).2 r.kind r.k hk)
  have : r.j < (p.group r.kind r.k).length := by
    rw [hl]
    exact (List.getElem?_eq_some_iff.1 hj).1
  unfold Patch.field Patch.setField
  rw [Patch.group_setGroup hk]
  simp [List.getD_eq_getElem?_getD, this]

/-- Every other field keeps its value. -/
theorem Patch.field_setField_ne {c : Config} {p : Patch} {id id' : Nat} {r r' : FieldRef} {v : Int}
    (hr : c.field? id = some r) (hr' : c.field? id' = some r') (hne : id' ≠ id) :
    (p.setField r v).field r' = p.field r' := by
  obtain ⟨h1, hk, -⟩ := field?_eq_some hr
  obtain ⟨h1', hk', -⟩ := field?_eq_some hr'
  unfold Patch.field Patch.setField
  by_cases h : r'.kind ≠ r.kind ∨ r'.k ≠ r.k
  · rw [Patch.group_setGroup_ne h hk hk']
  · simp only [not_or, ne_eq, not_not] at h
    have hj : r.j ≠ r'.j := by
      intro e
      apply hne
      apply idSplit_injective
      rw [← h1, ← h1', h.1, h.2, e]
    rw [h.1, h.2, Patch.group_setGroup hk]
    simp [List.getD_eq_getElem?_getD, hj]

theorem Patch.setField_ok {c : Config} {p : Patch} {id : Nat} {r : FieldRef} {v : Int} (hr : c.field? id = some r)
    (hp : p.ok c = true) (hv : r.spec.inRange v = true) : (p.setField r v).ok c = true := by
  obtain ⟨-, hk, hj⟩ := field?_eq_some hr
  exact Patch.ok_setGroup hp hk (recordOk_set ((Patch.ok_iff.1 hp).2 r.kind r.k hk) hj hv)

/-! ## Slots -/

theorem slot_eq_getElem {s : State} {i : Nat} (h : i < 40) : s.slot i = s.pstore[i] := by
  unfold State.slot
  rw [Vector.getElem?_eq_getElem h]
  rfl

theorem slot_setSlot {s : State} {i : Nat} {p : Patch} (h : i < 40) : (s.setSlot i p).slot i = p := by
  rw [slot_eq_getElem h]
  simp [State.setSlot]

theorem slot_setSlot_ne {s : State} {i j : Nat} {p : Patch} (h : j ≠ i) : (s.setSlot i p).slot j = s.slot j := by
  unfold State.slot State.setSlot
  rw [Vector.getElem?_setIfInBounds_ne (Ne.symm h)]

theorem setSlot_setSlot (s : State) (i : Nat) (p q : Patch) : (s.setSlot i p).setSlot i q = s.setSlot i q := by
  unfold State.setSlot
  simp only [State.mk.injEq, and_true]
  apply Vector.ext
  intro k hk
  by_cases h : i = k <;> simp [h]

theorem storeOk_slot {s : State} (h : s.StoreOk) {i : Nat} (hi : i < 40) : (s.slot i).ok s.cfg = true := by
  rw [slot_eq_getElem hi]; exact h ⟨i, hi⟩

/-- A slot written with a good patch keeps the store invariant. -/
theorem storeOk_setSlot {s : State} {i : Nat} {p : Patch} (h : s.StoreOk) (hp : p.ok s.cfg = true) :
    (s.setSlot i p).StoreOk := by
  intro j
  show ((s.pstore.setIfInBounds i p)[j]).ok s.cfg = true
  rw [Fin.getElem_fin, Vector.getElem_setIfInBounds]
  split
  · exact hp
  · exact h j

end Sys2Proof.Machine
end

