-- ==== Sys2Proof/Laws/Runs.lean ====
section
/-! SUPPORT. The patch run: packing never fails on a patch of the store (R121), what a serialized run is made of (R144), and what
a deserialized patch is made of (R145), said once each. -/

namespace Sys2Proof.Machine

/-! ## Names -/

@[simp] theorem length_norm (n : List Byte) : (norm n).length = 6 := by
  simp [norm, nameLen]

theorem upperByte_upperByte (b : Byte) : upperByte (upperByte b) = upperByte b := by
  revert b; decide +kernel

/-- Byte `i` of a normalised name. -/
theorem getElem?_norm (n : List Byte) (i : Nat) :
    (norm n)[i]? = if i < 6 then some (((n[i]?).map upperByte).getD 0x20) else none := by
  unfold norm nameLen
  rw [List.getElem?_take]
  by_cases h : i < 6
  · rw [if_pos h, if_pos h]
    by_cases hn : i < n.length
    · rw [List.getElem?_append_left (by simpa using hn)]
      simp [hn]
    · rw [List.getElem?_append_right (by simp; omega)]
      have : i - (n.map upperByte).length < 6 := by simp; omega
      rw [List.getElem?_replicate, if_pos this, List.getElem?_eq_none (Nat.le_of_not_lt hn)]
      rfl
  · rw [if_neg h, if_neg h]

/-- A normalised name is its own normalisation. -/
theorem norm_norm (n : List Byte) : norm (norm n) = norm n := by
  apply List.ext_getElem?
  intro i
  rw [getElem?_norm, getElem?_norm]
  by_cases h : i < 6
  · simp only [h, if_true, Option.map_some, Option.getD_some, Option.some.injEq]
    cases n[i]? with
    | none => decide
    | some b => exact upperByte_upperByte b
  · simp only [h, if_false]

/-! ## Packing a group of the store -/

/-- A record in range packs to a run of its kind's length. -/
theorem packGroup_ok {c : Config} (hc : c.wf = true) {g : Kind} {k : Nat} {r : Record}
    (hr : recordOk (c.fields g) r = true) : ∃ bs, packGroup c g k r = .ok bs ∧ bs.length = g.runLen := by
  have ht := Config.table_ok hc g
  obtain ⟨bs, h1, h2, -, -⟩ := packFields_ok (c := c) (base := g.base k) (id := g.idBase k) ht.good ht.disjoint
    (List.length_replicate (a := (0 : Byte))) (clean_zeros _ _) hr
  exact ⟨bs, h1, h2⟩

/-! ## Serializing -/

/-- A run of 102 bytes put together from a name and the runs of the groups, in the order of R144. -/
def joinRun (n : List Byte) (f : Kind → Nat → List Byte) : List Byte :=
  n ++ (f .env 0 ++ (f .env 1 ++ (f .env 2 ++ (f .env 3 ++ [])))) ++ (f .lfo 0 ++ (f .lfo 1 ++ (f .lfo 2 ++ []))) ++
    (f .osc 0 ++ (f .osc 1 ++ (f .osc 2 ++ []))) ++ (f .misc 0 ++ [])

theorem length_joinRun {n : List Byte} {f : Kind → Nat → List Byte} (hn : n.length = 6)
    (hf : ∀ g k, k < Kind.count g → (f g k).length = g.runLen) : (joinRun n f).length = 102 := by
  have h := fun g k hk => hf g k hk
  simp [joinRun, hn, hf .env 0 (by decide), hf .env 1 (by decide), hf .env 2 (by decide), hf .env 3 (by decide),
    hf .lfo 0 (by decide), hf .lfo 1 (by decide), hf .lfo 2 (by decide), hf .osc 0 (by decide), hf .osc 1 (by decide),
    hf .osc 2 (by decide), hf .misc 0 (by decide), Kind.runLen]

/-- `serialize` is the join of the packed groups, where each packs. -/
theorem serialize_of_ok {c : Config} {p : Patch} {f : Kind → Nat → List Byte}
    (h : ∀ g k, k < Kind.count g → packGroup c g k (p.group g k) = .ok (f g k)) :
    serialize c p = .ok (joinRun (norm p.name) f) := by
  simp only [serialize, packGroups, h .env 0 (by decide), h .env 1 (by decide), h .env 2 (by decide),
    h .env 3 (by decide), h .lfo 0 (by decide), h .lfo 1 (by decide), h .lfo 2 (by decide), h .osc 0 (by decide),
    h .osc 1 (by decide), h .osc 2 (by decide), h .misc 0 (by decide), except_ok_bind]
  rfl

/-- A patch of the store serializes: the runs its groups pack to, joined. -/
theorem serialize_ok {c : Config} (hc : c.wf = true) {p : Patch} (hp : p.ok c = true) :
    ∃ f : Kind → Nat → List Byte, (∀ g k, k < Kind.count g → packGroup c g k (p.group g k) = .ok (f g k)) ∧
      (∀ g k, k < Kind.count g → (f g k).length = g.runLen) ∧
      serialize c p = .ok (joinRun (norm p.name) f) ∧ (joinRun (norm p.name) f).length = 102 := by
  have hg := fun g k hk => packGroup_ok (k := k) hc ((Patch.ok_iff.1 hp).2 g k hk)
  have h : ∀ g k, k < Kind.count g → packGroup c g k (p.group g k) = .ok
      (match packGroup c g k (p.group g k) with | .ok bs => bs | .error _ => []) := by
    intro g k hk
    obtain ⟨bs, h1, -⟩ := hg g k hk
    rw [h1]
  have hl : ∀ g k, k < Kind.count g →
      (match packGroup c g k (p.group g k) with | .ok bs => bs | .error _ => []).length = g.runLen := by
    intro g k hk
    obtain ⟨bs, h1, h2⟩ := hg g k hk
    rw [h1]; exact h2
  exact ⟨_, h, hl, serialize_of_ok h, length_joinRun (length_norm _) hl⟩

/-- The run of a group inside a joined run. -/
theorem groupRun_joinRun {n : List Byte} {f : Kind → Nat → List Byte} (hn : n.length = 6)
    (hf : ∀ g k, k < Kind.count g → (f g k).length = g.runLen) {g : Kind} {k : Nat} (hk : k < g.count) :
    groupRun (joinRun n f) g k = f g k := by
  have e0 := hf .env 0 (by decide); have e1 := hf .env 1 (by decide); have e2 := hf .env 2 (by decide)
  have e3 := hf .env 3 (by decide); have l0 := hf .lfo 0 (by decide); have l1 := hf .lfo 1 (by decide)
  have l2 := hf .lfo 2 (by decide); have o0 := hf .osc 0 (by decide); have o1 := hf .osc 1 (by decide)
  have o2 := hf .osc 2 (by decide); have m0 := hf .misc 0 (by decide)
  simp only [Kind.runLen] at e0 e1 e2 e3 l0 l1 l2 o0 o1 o2 m0
  cases g <;> simp only [Kind.count] at hk <;> interval_cases k <;>
    simp [groupRun, joinRun, Kind.base, Kind.runLen, List.drop_append, List.drop_eq_nil_of_le,
      List.take_of_length_le, hn, e0, e1, e2, e3, l0, l1, l2, o0, o1, o2, m0]

/-- The name inside a joined run. -/
theorem take_joinRun {n : List Byte} {f : Kind → Nat → List Byte} (hn : n.length = 6) :
    (joinRun n f).take nameLen = n := by
  simp [joinRun, nameLen, hn]

/-! ## Deserializing -/

/-- What a deserialized patch is: the first six bytes for its name, and each group the record its run unpacks to. -/
theorem deserialize_eq_ok {c : Config} {b : List Byte} {p : Patch} : deserialize c b = .ok p ↔
    p.name = b.take nameLen ∧ ∀ g k, k < Kind.count g → unpackAt c b g k = .ok (p.group g k) := by
  unfold deserialize
  simp only [except_bind_eq_ok]
  constructor
  · rintro ⟨e0, h0, e1, h1, e2, h2, e3, h3, l0, h4, l1, h5, l2, h6, o0, h7, o1, h8, o2, h9, m, h10, h⟩
    cases h
    refine ⟨rfl, fun g k hk => ?_⟩
    cases g <;> simp only [Kind.count] at hk <;> interval_cases k <;> assumption
  · rintro ⟨hn, hg⟩
    refine ⟨_, hg .env 0 (by decide), _, hg .env 1 (by decide), _, hg .env 2 (by decide), _, hg .env 3 (by decide),
      _, hg .lfo 0 (by decide), _, hg .lfo 1 (by decide), _, hg .lfo 2 (by decide), _, hg .osc 0 (by decide),
      _, hg .osc 1 (by decide), _, hg .osc 2 (by decide), _, hg .misc 0 (by decide), ?_⟩
    show Except.ok _ = Except.ok p
    congr 1
    apply Patch.ext_groups hn.symm
    intro g k hk
    cases g <;> simp only [Kind.count] at hk <;> interval_cases k <;> rfl

/-- What deserializes is a good patch. -/
theorem deserialize_ok {c : Config} {b : List Byte} {p : Patch} (h : deserialize c b = .ok p) : p.ok c = true := by
  obtain ⟨h1, h2⟩ := deserialize_eq_ok.1 h
  rw [Patch.ok_iff]
  refine ⟨?_, fun g k hk => unpackFields_eq_ok (unpackGroup_eq_ok (h2 g k hk)).1⟩
  have : p.name.length ≤ 6 := by rw [h1]; exact List.length_take_le _ _
  exact Nat.le_trans this (by decide)

end Sys2Proof.Machine
end

