-- ==== Sys2Proof/Laws/Framer.lean ====
section
/-! SUPPORT. The framer: nibbles, the frame ENCODE builds, and the parts of DECODE's parse, each said once: what it answers when
its bytes are there and good, and where it stops when they are not. -/

namespace Sys2Proof.Machine

/-! ## Nibbles -/

/-- The logical byte of a wire pair (R151). -/
def pairByte (lo hi : Byte) : Byte := BitVec.ofNat 8 (zext lo + 16 * zext hi)

theorem shiftLeft_four (n : Nat) : n <<< 4 = 16 * n := by rw [Nat.shiftLeft_eq]; omega

/-- A pair of nibbles contracts, and under `wrap8` every pair does. -/
theorem contract_of_ok {p : NibblePolicy} {lo hi : Byte} {pos : Nat} (h : p = .wrap8 ∨ (zext lo ≤ 0x0F ∧ zext hi ≤ 0x0F)) :
    contract p lo hi pos = .ok (pairByte lo hi) := by
  unfold contract pairByte
  rw [shiftLeft_four]
  split
  · have h' : zext lo ≤ 0x0F ∧ zext hi ≤ 0x0F := by simpa using h
    have h1 : ¬zext lo > 0x0F := by omega
    have h2 : ¬zext hi > 0x0F := by omega
    rw [if_neg h1, if_neg h2]
  · rfl

/-- Under `reject` the low byte is tested first. -/
theorem contract_low {lo hi : Byte} {pos : Nat} (h : 0x0F < zext lo) :
    contract .reject lo hi pos = .error (nibbleRange pos) := by
  have h' : zext lo > 0x0F := h
  simp only [contract, h', if_true]

theorem contract_high {lo hi : Byte} {pos : Nat} (h1 : zext lo ≤ 0x0F) (h2 : 0x0F < zext hi) :
    contract .reject lo hi pos = .error (nibbleRange (pos + 1)) := by
  have h1' : ¬zext lo > 0x0F := by omega
  have h2' : zext hi > 0x0F := h2
  simp only [contract, h1', h2', if_true, if_false]

theorem expand_low (b : Byte) : zext (expand b).1 = zext b % 16 := by revert b; decide +kernel
theorem expand_high (b : Byte) : zext (expand b).2 = zext b / 16 := by revert b; decide +kernel

/-- Expanding and contracting a byte gives it back. -/
theorem pairByte_expand (b : Byte) : pairByte (expand b).1 (expand b).2 = b := by revert b; decide +kernel

/-! ## Wire bytes of a run (R155) -/

@[simp] theorem length_expandRun (bs : List Byte) : (expandRun bs).length = 2 * bs.length := by
  induction bs with
  | nil => rfl
  | cons b bs ih => simp [expandRun, ih]; omega

/-- The two wire bytes of logical byte `o`. -/
theorem getElem?_expandRun (bs : List Byte) (o : Nat) :
    (expandRun bs)[2 * o]? = (bs[o]?).map (fun b => (expand b).1) ∧
    (expandRun bs)[2 * o + 1]? = (bs[o]?).map (fun b => (expand b).2) := by
  induction bs generalizing o with
  | nil => simp [expandRun]
  | cons b bs ih =>
    cases o with
    | zero => simp [expandRun]
    | succ o =>
      have e1 : 2 * (o + 1) = 2 * o + 1 + 1 := by omega
      have e2 : 2 * (o + 1) + 1 = 2 * o + 1 + 1 + 1 := by omega
      rw [e2, e1]
      simpa [expandRun] using ih o

/-! ## Building a frame -/

/-- A payload is the expanded runs, one after the other. -/
theorem payload_of_ok {s : State} {n m i : Nat} {r : Nat → List Byte}
    (h : ∀ k, i ≤ k → k < i + m → serialize s.cfg (framePatch s n k) = .ok (r k)) :
    payload s n m i = .ok ((List.range m).flatMap fun k => expandRun (r (i + k))) := by
  induction m generalizing i with
  | zero => rfl
  | succ m ih =>
    rw [payload, h i (Nat.le_refl i) (by omega)]
    simp only [Except.mapError, except_ok_bind]
    rw [ih fun k h1 h2 => h k (by omega) (by omega), List.range_succ_eq_map, List.flatMap_cons, List.flatMap_map]
    simp only [except_ok_bind, Nat.add_zero]
    show Except.ok _ = Except.ok _
    congr 3
    funext k
    rw [show i + 1 + k = i + (k + 1) by omega]

/-- Byte `204 * i + j` of a payload of runs of 102 bytes. -/
theorem getElem?_payload {m : Nat} {r : Nat → List Byte} (hr : ∀ k < m, (r k).length = 102) {i j : Nat} (hi : i < m)
    (hj : j < 204) : ((List.range m).flatMap fun k => expandRun (r k))[204 * i + j]? = (expandRun (r i))[j]? := by
  induction m generalizing i r with
  | zero => omega
  | succ m ih =>
    have h0 := hr 0 (by omega)
    rw [List.range_succ_eq_map, List.flatMap_cons, List.flatMap_map]
    cases i with
    | zero => rw [List.getElem?_append_left (by simp [h0]; omega), Nat.mul_zero, Nat.zero_add]
    | succ i =>
      rw [List.getElem?_append_right (by simp [h0]; omega)]
      have e : 204 * (i + 1) + j - (expandRun (r 0)).length = 204 * i + j := by simp [h0]; omega
      rw [e]
      exact ih (r := fun k => r (k + 1)) (fun k hk => hr (k + 1) (by omega)) (by omega)

theorem length_payload {m : Nat} {r : Nat → List Byte} (hr : ∀ k < m, (r k).length = 102) :
    ((List.range m).flatMap fun k => expandRun (r k)).length = 204 * m := by
  induction m generalizing r with
  | zero => rfl
  | succ m ih =>
    rw [List.range_succ_eq_map, List.flatMap_cons, List.flatMap_map, List.length_append, length_expandRun, hr 0 (by omega)]
    have := ih (r := fun k => r (k + 1)) fun k hk => hr (k + 1) (by omega)
    rw [this]; omega

/-! ## Taking bytes (R158) -/

theorem take_of_lt {s : State} {c : Nat} (h1 : c < zext s.inLen) (h2 : c < 8192) :
    take s c = .ok (s.inb.read c, c + 1) := by
  unfold take
  rw [decide_eq_true h1, require_true, cmd_ok_bind, memReadByte_of_lt (sp := .inp) h2]
  rfl

theorem take_of_ge {s : State} {c : Nat} (h : zext s.inLen ≤ c) : take s c = raise (truncated (zext s.inLen)) := by
  unfold take
  rw [decide_eq_false (Nat.not_lt.2 h)]
  rfl

/-- What `take` answers: the byte at the cursor, which is inside IN. -/
theorem take_eq_ok {s : State} {c : Nat} {r : Byte × Nat} (h : take s c = .ok r) :
    c < zext s.inLen ∧ c < 8192 ∧ r = (s.inb.read c, c + 1) := by
  rcases Nat.lt_or_ge c (zext s.inLen) with h1 | h1
  · rcases Nat.lt_or_ge c 8192 with h2 | h2
    · rw [take_of_lt h1 h2] at h; cases h; exact ⟨h1, h2, rfl⟩
    · unfold take at h
      rw [decide_eq_true h1, require_true, cmd_ok_bind] at h
      have : memReadByte s .inp c = .error (.faulted (.outsideSpace .inp c)) :=
        memReadByte_eq_error.2 ⟨Nat.not_lt.2 h2, rfl⟩
      rw [this] at h; cases h
  · rw [take_of_ge h1] at h; cases h

/-! ## Pairs -/

/-- The logical bytes of `m` wire pairs from wire index `c` on. -/
def pairRun (s : State) (c m : Nat) : List Byte :=
  (List.range m).map fun o => pairByte (s.inb.read (c + 2 * o)) (s.inb.read (c + 2 * o + 1))

@[simp] theorem length_pairRun (s : State) (c m : Nat) : (pairRun s c m).length = m := by simp [pairRun]

theorem pairRun_succ (s : State) (c m : Nat) :
    pairRun s c (m + 1) = pairByte (s.inb.read c) (s.inb.read (c + 1)) :: pairRun s (c + 2) m := by
  unfold pairRun
  rw [List.range_succ_eq_map, List.map_cons, List.map_map]
  congr 1
  apply List.map_congr_left
  intro o _
  simp only [Function.comp_apply]
  rw [show c + 2 * (o + 1) = c + 2 + 2 * o by omega]

/-- Both bytes of a pair can be taken and contracted. -/
def PairOk (s : State) (c : Nat) : Prop :=
  c + 1 < zext s.inLen ∧ c + 1 < 8192 ∧
    (s.cfg.nibble = .wrap8 ∨ (zext (s.inb.read c) ≤ 0x0F ∧ zext (s.inb.read (c + 1)) ≤ 0x0F))

theorem takePairs_of_ok {s : State} {m c : Nat} (h : ∀ o < m, PairOk s (c + 2 * o)) :
    takePairs s m c = .ok (pairRun s c m, c + 2 * m) := by
  induction m generalizing c with
  | zero => rfl
  | succ m ih =>
    have h0 := h 0 (by omega)
    rw [Nat.mul_zero, Nat.add_zero] at h0
    obtain ⟨h1, h2, h3⟩ := h0
    have ih' := ih (c := c + 2) fun o ho => by
      have := h (o + 1) (by omega)
      rwa [show c + 2 * (o + 1) = c + 2 + 2 * o by omega] at this
    rw [takePairs, take_of_lt (by omega) (by omega), cmd_ok_bind]
    simp only
    rw [take_of_lt h1 h2, cmd_ok_bind]
    simp only
    rw [contract_of_ok h3, lift_ok, cmd_ok_bind, ih', cmd_ok_bind, pairRun_succ]
    simp only [show c + 2 + 2 * m = c + 2 * (m + 1) by omega]
    rfl

/-- Good pairs first, then the rest. -/
theorem takePairs_add {s : State} {m n c : Nat} (h : ∀ o < m, PairOk s (c + 2 * o)) :
    takePairs s (m + n) c =
      (takePairs s n (c + 2 * m) >>= fun r => pure (pairRun s c m ++ r.1, r.2)) := by
  induction m generalizing c with
  | zero => cases hx : takePairs s n c <;> simp [hx, pairRun, pure, Except.pure]
  | succ m ih =>
    have h0 := h 0 (by omega)
    rw [Nat.mul_zero, Nat.add_zero] at h0
    obtain ⟨h1, h2, h3⟩ := h0
    have ih' := ih (c := c + 2) fun o ho => by
      have := h (o + 1) (by omega)
      rwa [show c + 2 * (o + 1) = c + 2 + 2 * o by omega] at this
    rw [show m + 1 + n = (m + n) + 1 by omega, takePairs, take_of_lt (by omega) (by omega), cmd_ok_bind]
    simp only
    rw [take_of_lt h1 h2, cmd_ok_bind]
    simp only
    rw [contract_of_ok h3, lift_ok, cmd_ok_bind, ih', pairRun_succ,
      show c + 2 + 2 * m = c + 2 * (m + 1) by omega]
    cases takePairs s n (c + 2 * (m + 1)) <;> rfl

/-- The end of IN inside a pair. -/
theorem takePairs_truncated {s : State} {n c : Nat} (h : zext s.inLen ≤ c + 1) (hs : c ≤ 8191) :
    takePairs s (n + 1) c = raise (truncated (zext s.inLen)) := by
  rw [takePairs]
  rcases Nat.lt_or_ge c (zext s.inLen) with h1 | h1
  · rw [take_of_lt h1 (by omega), cmd_ok_bind]
    simp only
    rw [take_of_ge h]; rfl
  · rw [take_of_ge h1]; rfl

/-- A wire byte above 0x0F in a pair that is there. -/
theorem takePairs_badNibble {s : State} {n c j : Nat} (hp : s.cfg.nibble = .reject) (h1 : c + 1 < zext s.inLen)
    (h2 : c + 1 < 8192) (hj : j < 2) (hlow : j = 1 → zext (s.inb.read c) ≤ 0x0F) (hbad : 0x0F < zext (s.inb.read (c + j))) :
    takePairs s (n + 1) c = raise (nibbleRange (c + j)) := by
  rw [takePairs, take_of_lt (by omega) (by omega), cmd_ok_bind]
  simp only
  rw [take_of_lt h1 h2, cmd_ok_bind, hp]
  have : j = 0 ∨ j = 1 := by omega
  rcases this with rfl | rfl
  · rw [contract_low (by simpa using hbad)]; rfl
  · rw [contract_high (hlow rfl) hbad]; rfl

/-- What a run of pairs answers, and that every pair of it was there and good. -/
theorem takePairs_eq_ok {s : State} {m c : Nat} {r : List Byte × Nat} (h : takePairs s m c = .ok r) :
    r = (pairRun s c m, c + 2 * m) ∧ ∀ o < m, PairOk s (c + 2 * o) := by
  induction m generalizing c r with
  | zero => cases h; exact ⟨rfl, fun o ho => absurd ho (Nat.not_lt_zero o)⟩
  | succ m ih =>
    rw [takePairs, cmd_bind_eq_ok] at h
    obtain ⟨x, hx, h⟩ := h
    obtain ⟨a1, a2, rfl⟩ := take_eq_ok hx
    rw [cmd_bind_eq_ok] at h
    obtain ⟨y, hy, h⟩ := h
    obtain ⟨b1, b2, rfl⟩ := take_eq_ok hy
    rw [cmd_bind_eq_ok] at h
    obtain ⟨b, hb, h⟩ := h
    rw [cmd_bind_eq_ok] at h
    obtain ⟨z, hz, h⟩ := h
    obtain ⟨rfl, hrest⟩ := ih hz
    cases h
    rw [lift_eq_ok] at hb
    have hpol : s.cfg.nibble = .wrap8 ∨ (zext (s.inb.read c) ≤ 0x0F ∧ zext (s.inb.read (c + 1)) ≤ 0x0F) := by
      cases hpn : s.cfg.nibble with
      | wrap8 => exact .inl rfl
      | reject =>
        refine .inr ?_
        rw [hpn] at hb
        rcases Nat.lt_or_ge 0x0F (zext (s.inb.read c)) with h1 | h1
        · rw [contract_low h1] at hb; cases hb
        · rcases Nat.lt_or_ge 0x0F (zext (s.inb.read (c + 1))) with h2 | h2
          · rw [contract_high h1 h2] at hb; cases hb
          · exact ⟨h1, h2⟩
    rw [contract_of_ok hpol] at hb
    cases hb
    refine ⟨by rw [pairRun_succ, show c + 2 * (m + 1) = c + 1 + 1 + 2 * m by omega], fun o ho => ?_⟩
    cases o with
    | zero => exact ⟨b1, b2, hpol⟩
    | succ o =>
      have := hrest o (by omega)
      rwa [show c + 1 + 1 + 2 * o = c + 2 * (o + 1) by omega] at this

/-! ## Patches -/

/-- The pairs of patch `k` of a payload that starts at `c`, and the patch they deserialize to. -/
def PatchOk (s : State) (c k : Nat) (p : Patch) : Prop :=
  (∀ o < 102, PairOk s (c + 204 * k + 2 * o)) ∧ deserialize s.cfg (pairRun s (c + 204 * k) 102) = .ok p

theorem takePatches_add {s : State} {m n i c : Nat} {ps : Nat → Patch} (h : ∀ k < m, PatchOk s c k (ps k)) :
    takePatches s (m + n) i c =
      (takePatches s n (i + m) (c + 204 * m) >>= fun r => pure ((List.range m).map ps ++ r.1, r.2)) := by
  induction m generalizing c i ps with
  | zero => simp only [Nat.zero_add, Nat.add_zero, Nat.mul_zero]; cases takePatches s n i c <;> rfl
  | succ m ih =>
    obtain ⟨h1, h2⟩ := h 0 (by omega)
    simp only [Nat.mul_zero, Nat.add_zero] at h1 h2
    have ih' := ih (c := c + 204) (i := i + 1) (ps := fun k => ps (k + 1)) fun k hk => by
      have := h (k + 1) (by omega)
      unfold PatchOk at this ⊢
      rwa [show c + 204 * (k + 1) = c + 204 + 204 * k by omega] at this
    rw [show m + 1 + n = (m + n) + 1 by omega, takePatches]
    have hpairs : takePairs s patchLen c = .ok (pairRun s c 102, c + 204) := takePairs_of_ok h1
    rw [hpairs, cmd_ok_bind]
    simp only
    rw [h2]
    simp only [Except.mapError, lift_ok, cmd_ok_bind]
    rw [ih', List.range_succ_eq_map, List.map_cons, List.map_map,
      show c + 204 + 204 * m = c + 204 * (m + 1) by omega, show i + 1 + m = i + (m + 1) by omega]
    cases takePatches s n (i + (m + 1)) (c + 204 * (m + 1)) <;> rfl

theorem takePatches_of_ok {s : State} {m i c : Nat} {ps : Nat → Patch} (h : ∀ k < m, PatchOk s c k (ps k)) :
    takePatches s m i c = .ok ((List.range m).map ps, c + 204 * m) := by
  have := takePatches_add (n := 0) (i := i) h
  simpa [takePatches, pure, Except.pure] using this

/-- Where the pairs of the first patch stop, the patches stop. -/
theorem takePatches_of_pairs_error {s : State} {m i c : Nat} {e : Stop} (h : takePairs s patchLen c = .error e) :
    takePatches s (m + 1) i c = .error e := by
  rw [takePatches, h]; rfl

/-- A run that does not deserialize stops the patches, at its wire index (R159). -/
theorem takePatches_of_field_error {s : State} {m i c : Nat} {e : Err} (hp : ∀ o < 102, PairOk s (c + 2 * o))
    (h : deserialize s.cfg (pairRun s c 102) = .error e) :
    takePatches s (m + 1) i c = raise { e with pos := wireIndex i e.pos } := by
  have hpairs : takePairs s patchLen c = .ok (pairRun s c 102, c + 204) := takePairs_of_ok hp
  rw [takePatches, hpairs, cmd_ok_bind]
  simp only
  rw [h]; rfl

/-- What a run of patches answers, and that every one of them was there and good. -/
theorem takePatches_eq_ok {s : State} {m i c : Nat} {r : List Patch × Nat} (h : takePatches s m i c = .ok r) :
    r.1.length = m ∧ r.2 = c + 204 * m ∧ ∀ k (hk : k < r.1.length), PatchOk s c k r.1[k] := by
  induction m generalizing c i r with
  | zero => cases h; exact ⟨rfl, rfl, fun k hk => absurd hk (Nat.not_lt_zero k)⟩
  | succ m ih =>
    rw [takePatches, cmd_bind_eq_ok] at h
    obtain ⟨x, hx, h⟩ := h
    obtain ⟨rfl, hp⟩ := takePairs_eq_ok hx
    rw [cmd_bind_eq_ok] at h
    obtain ⟨p, hd, h⟩ := h
    rw [cmd_bind_eq_ok] at h
    obtain ⟨y, hy, h⟩ := h
    obtain ⟨h1, h2, h3⟩ := ih hy
    cases h
    have hd' : deserialize s.cfg (pairRun s c 102) = .ok p := by
      rw [lift_eq_ok] at hd
      cases hx' : deserialize s.cfg (pairRun s c patchLen) with
      | ok q => rw [hx'] at hd; cases hd; rfl
      | error e => rw [hx'] at hd; cases hd
    refine ⟨by simp [h1], by rw [h2]; show c + 2 * 102 + 204 * m = _; omega, fun k hk => ?_⟩
    cases k with
    | zero => exact ⟨hp, hd'⟩
    | succ k =>
      have := h3 k (by simpa using hk)
      unfold PatchOk at this ⊢
      rw [show c + 204 * (k + 1) = c + 2 * patchLen + 204 * k by show _ = c + 2 * 102 + 204 * k; omega]
      exact this

/-! ## The head of a frame -/

/-- A header byte that is wrong, every one before it being right. -/
theorem takeHeader_wrong {s : State} {k : Nat} (h1 : k < 3) (h2 : k < zext s.inLen)
    (h3 : ∀ j < k, s.inb.read j = header.getD j 0) (h4 : s.inb.read k ≠ header.getD k 0) :
    takeHeader s header 0 = raise (badHeader k) := by
  have hb : ∀ j, s.inb.read j = header.getD j 0 → (s.inb.read j == header.getD j 0) = true := fun j h => by simp [h]
  have h4' : (s.inb.read k == header.getD k 0) = false := by simpa using h4
  interval_cases k
  · rw [header, takeHeader, take_of_lt h2 (by omega), cmd_ok_bind]
    simp only
    rw [show (s.inb.read 0 == (0xF0 : Byte)) = false from h4']
    rfl
  · have e0 := hb 0 (h3 0 (by omega))
    rw [header, takeHeader, take_of_lt (by omega) (by omega), cmd_ok_bind]
    simp only
    rw [show (s.inb.read 0 == (0xF0 : Byte)) = true from e0, require_true, cmd_ok_bind, takeHeader,
      take_of_lt (c := 0 + 1) h2 (by omega), cmd_ok_bind]
    simp only
    rw [show (s.inb.read (0 + 1) == (0x0F : Byte)) = false from h4']
    rfl
  · have e0 := hb 0 (h3 0 (by omega))
    have e1 := hb 1 (h3 1 (by omega))
    rw [header, takeHeader, take_of_lt (by omega) (by omega), cmd_ok_bind]
    simp only
    rw [show (s.inb.read 0 == (0xF0 : Byte)) = true from e0, require_true, cmd_ok_bind, takeHeader,
      take_of_lt (c := 0 + 1) (by omega) (by omega), cmd_ok_bind]
    simp only
    rw [show (s.inb.read (0 + 1) == (0x0F : Byte)) = true from e1, require_true, cmd_ok_bind, takeHeader,
      take_of_lt (c := 0 + 1 + 1) h2 (by omega), cmd_ok_bind]
    simp only
    rw [show (s.inb.read (0 + 1 + 1) == (0x02 : Byte)) = false from h4']
    rfl

/-- The whole header, right. -/
theorem takeHeader_of_ok {s : State} (h1 : 3 ≤ zext s.inLen) (h2 : s.inb.read 0 = 0xF0) (h3 : s.inb.read 1 = 0x0F)
    (h4 : s.inb.read 2 = 0x02) : takeHeader s header 0 = .ok 3 := by
  rw [header, takeHeader, take_of_lt (by omega) (by omega), cmd_ok_bind]
  simp only
  rw [show (s.inb.read 0 == (0xF0 : Byte)) = true by rw [h2]; rfl, require_true, cmd_ok_bind, takeHeader,
    take_of_lt (c := 0 + 1) (by omega) (by omega), cmd_ok_bind]
  simp only
  rw [show (s.inb.read (0 + 1) == (0x0F : Byte)) = true by rw [show s.inb.read (0 + 1) = 0x0F from h3]; rfl, require_true,
    cmd_ok_bind, takeHeader, take_of_lt (c := 0 + 1 + 1) (by omega) (by omega), cmd_ok_bind]
  simp only
  rw [show (s.inb.read (0 + 1 + 1) == (0x02 : Byte)) = true by rw [show s.inb.read (0 + 1 + 1) = 0x02 from h4]; rfl,
    require_true, cmd_ok_bind]
  rfl

/-- IN ends inside a header that is right so far. -/
theorem takeHeader_truncated {s : State} (h1 : zext s.inLen < 3)
    (h2 : ∀ j < zext s.inLen, s.inb.read j = header.getD j 0) :
    takeHeader s header 0 = raise (truncated (zext s.inLen)) := by
  have hb : ∀ j < zext s.inLen, (s.inb.read j == header.getD j 0) = true := fun j h => by simp [h2 j h]
  rcases Nat.lt_or_ge 0 (zext s.inLen) with a | a
  · have e0 := hb 0 a
    rw [header, takeHeader, take_of_lt a (by omega), cmd_ok_bind]
    simp only
    rw [show (s.inb.read 0 == (0xF0 : Byte)) = true from e0, require_true, cmd_ok_bind, takeHeader]
    rcases Nat.lt_or_ge 1 (zext s.inLen) with b | b
    · have e1 := hb 1 b
      rw [take_of_lt (c := 0 + 1) b (by omega), cmd_ok_bind]
      simp only
      rw [show (s.inb.read (0 + 1) == (0x0F : Byte)) = true from e1, require_true, cmd_ok_bind, takeHeader,
        take_of_ge (c := 0 + 1 + 1) (by omega)]
      rfl
    · rw [take_of_ge (c := 0 + 1) b]; rfl
  · rw [header, takeHeader, take_of_ge a]; rfl

/-- What a header that was read holds. -/
theorem takeHeader_eq_ok {s : State} {c : Nat} (h : takeHeader s header 0 = .ok c) :
    c = 3 ∧ 3 ≤ zext s.inLen ∧ s.inb.read 0 = 0xF0 ∧ s.inb.read 1 = 0x0F ∧ s.inb.read 2 = 0x02 := by
  rw [header, takeHeader, cmd_bind_eq_ok] at h
  obtain ⟨x, hx, h⟩ := h
  obtain ⟨a1, a2, rfl⟩ := take_eq_ok hx
  rw [cmd_bind_eq_ok] at h
  obtain ⟨_, q1, h⟩ := h
  rw [takeHeader, cmd_bind_eq_ok] at h
  obtain ⟨x, hx, h⟩ := h
  obtain ⟨b1, b2, rfl⟩ := take_eq_ok hx
  rw [cmd_bind_eq_ok] at h
  obtain ⟨_, q2, h⟩ := h
  rw [takeHeader, cmd_bind_eq_ok] at h
  obtain ⟨x, hx, h⟩ := h
  obtain ⟨c1, c2, rfl⟩ := take_eq_ok hx
  rw [cmd_bind_eq_ok] at h
  obtain ⟨_, q3, h⟩ := h
  cases h
  have f1 := require_eq_ok.1 q1
  have f2 := require_eq_ok.1 q2
  have f3 := require_eq_ok.1 q3
  exact ⟨rfl, c1, by simpa using f1, by simpa using f2, by simpa using f3⟩

theorem patchCount_eq_ok {dt : Byte} {n : Nat} (h : patchCount dt = .ok n) :
    (dt = 0x01 ∧ n = 1) ∨ (dt = 0x02 ∧ n = 40) := by
  unfold patchCount at h
  split at h
  · rename_i h1; cases h; exact .inl ⟨h1, rfl⟩
  · split at h
    · rename_i h1; cases h; exact .inr ⟨h1, rfl⟩
    · cases h

theorem patchCount_of_ok {dt : Byte} {n : Nat} (h : (dt = 0x01 ∧ n = 1) ∨ (dt = 0x02 ∧ n = 40)) : patchCount dt = .ok n := by
  rcases h with ⟨rfl, rfl⟩ | ⟨rfl, rfl⟩ <;> rfl

theorem patchCount_bad {dt : Byte} (h1 : dt ≠ 0x01) (h2 : dt ≠ 0x02) : patchCount dt = raise badDumpType := by
  unfold patchCount
  rw [if_neg h1, if_neg h2]

/-- The parse after a good head: the patches, the footer and what follows it. -/
theorem parseFrame_of_head {s : State} {n : Nat} (h0 : 5 ≤ zext s.inLen) (h1 : s.inb.read 0 = 0xF0)
    (h2 : s.inb.read 1 = 0x0F) (h3 : s.inb.read 2 = 0x02)
    (h4 : (s.inb.read 4 = 0x01 ∧ n = 1) ∨ (s.inb.read 4 = 0x02 ∧ n = 40)) :
    parseFrame s = (takePatches s n 0 5 >>= fun r => take s r.2 >>= fun b =>
      require (b.1 == footer) (badFooter r.2) >>= fun _ => checkTrailing s b.2 >>= fun _ =>
        pure (s.inb.read 3, s.inb.read 4, r.1)) := by
  unfold parseFrame
  rw [takeHeader_of_ok (by omega) h1 h2 h3, cmd_ok_bind, take_of_lt (by omega) (by omega), cmd_ok_bind]
  simp only
  rw [take_of_lt (c := 3 + 1) (by omega) (by omega), cmd_ok_bind]
  simp only
  rw [patchCount_of_ok h4, cmd_ok_bind]

/-- What a frame that was parsed holds. -/
theorem parseFrame_eq_ok {s : State} {r : Byte × Byte × List Patch} (h : parseFrame s = .ok r) :
    ∃ n, s.inb.read 0 = 0xF0 ∧ s.inb.read 1 = 0x0F ∧ s.inb.read 2 = 0x02 ∧
      ((s.inb.read 4 = 0x01 ∧ n = 1) ∨ (s.inb.read 4 = 0x02 ∧ n = 40)) ∧
      5 + 204 * n < zext s.inLen ∧ s.inb.read (5 + 204 * n) = footer ∧
      checkTrailing s (5 + 204 * n + 1) = .ok () ∧ r.1 = s.inb.read 3 ∧ r.2.1 = s.inb.read 4 ∧ r.2.2.length = n ∧
      ∀ k (hk : k < r.2.2.length), PatchOk s 5 k r.2.2[k] := by
  unfold parseFrame at h
  rw [cmd_bind_eq_ok] at h
  obtain ⟨c, hc, h⟩ := h
  obtain ⟨rfl, h0, h1, h2, h3⟩ := takeHeader_eq_ok hc
  rw [cmd_bind_eq_ok] at h
  obtain ⟨x, hx, h⟩ := h
  obtain ⟨-, -, rfl⟩ := take_eq_ok hx
  rw [cmd_bind_eq_ok] at h
  obtain ⟨y, hy, h⟩ := h
  obtain ⟨-, -, rfl⟩ := take_eq_ok hy
  rw [cmd_bind_eq_ok] at h
  obtain ⟨n, hn, h⟩ := h
  rw [cmd_bind_eq_ok] at h
  obtain ⟨z, hz, h⟩ := h
  obtain ⟨g1, g2, g3⟩ := takePatches_eq_ok hz
  rw [cmd_bind_eq_ok] at h
  obtain ⟨b, hb, h⟩ := h
  obtain ⟨k1, k2, rfl⟩ := take_eq_ok hb
  rw [cmd_bind_eq_ok] at h
  obtain ⟨_, hf, h⟩ := h
  rw [cmd_bind_eq_ok] at h
  obtain ⟨_, ht, h⟩ := h
  cases h
  have hf' := require_eq_ok.1 hf
  simp only [g2] at k1 hf' ht
  exact ⟨n, h1, h2, h3, patchCount_eq_ok hn, k1, by simpa using hf', ht, rfl, rfl, g1, g3⟩

/-! ## Committing -/

theorem setSlots_cfg (s : State) (i : Nat) (ps : List Patch) : (s.setSlots i ps).cfg = s.cfg := by
  induction ps generalizing s i with
  | nil => rfl
  | cons p ps ih => rw [State.setSlots, ih]; rfl

/-- Slots written from `i` on: the store, and every other field as it was. -/
theorem setSlots_eq (s : State) (i : Nat) (ps : List Patch) :
    s.setSlots i ps = { s with pstore := Vector.ofFn fun j : Fin 40 =>
      if h : i ≤ j.val ∧ j.val < i + ps.length then ps[j.val - i]'(by omega) else s.pstore[j] } := by
  induction ps generalizing s i with
  | nil =>
    have : (Vector.ofFn fun j : Fin 40 => if h : i ≤ j.val ∧ j.val < i + ([] : List Patch).length then
        ([] : List Patch)[j.val - i]'(by omega) else s.pstore[j]) = s.pstore := by
      apply Vector.ext
      intro j hj
      have hn : ¬(i ≤ j ∧ j < i + ([] : List Patch).length) := by simp
      simp
    rw [this]; rfl
  | cons p ps ih =>
    rw [State.setSlots, ih]
    simp only [State.setSlot, State.mk.injEq, and_true]
    apply Vector.ext
    intro j hj
    simp only [Vector.getElem_ofFn, Fin.getElem_fin, List.length_cons, Vector.getElem_setIfInBounds]
    by_cases h1 : i = j
    · subst h1
      simp
    · by_cases h2 : i + 1 ≤ j ∧ j < i + 1 + ps.length
      · have b : i ≤ j ∧ j < i + (ps.length + 1) := by omega
        have e : j - i = (j - (i + 1)) + 1 := by omega
        simp only [h2, b, and_self, dif_pos]
        simp [e]
      · have b : ¬(i ≤ j ∧ j < i + (ps.length + 1)) := by omega
        simp only [h2, b, h1, dif_neg, if_neg, not_false_eq_true]

end Sys2Proof.Machine
end

