-- ==== Sys2Proof/Laws/Step.lean ====
section
/-! SUPPORT. What one step can do, said once: idle, a port write that is not a command, a command word, an illegal word, a
configuration that is not admitted. -/

namespace Sys2Proof.Machine

theorem popWrite_eq {s : State} {p : PortWrite} {rest : List PortWrite} (h : s.hostq = p :: rest) :
    s.popWrite = { s with hostq := rest } := by unfold State.popWrite; rw [h]; rfl

@[simp] theorem popWrite_pushWrite (s : State) (a : BitVec 4) (w : Word) : (s.pushWrite a w).popWrite = s := rfl

/-- An idle block keeps its state (R192). -/
theorem step_of_nil {s : State} (h : s.hostq = []) : step s = .next s := by unfold step; rw [h]

theorem step_of_cons {s : State} {p : PortWrite} {rest : List PortWrite} (h : s.hostq = p :: rest) :
    step s = if s.cfg.wf then if p.addr = cmdAddr then runWord p.word s.popWrite else .next s.popWrite
      else .refused .badConfig := by
  conv_lhs => unfold step
  rw [h]

/-- The step of an admitted configuration: idle, an ignored write, or a word at `CMD`. -/
theorem step_cases {s : State} (hw : s.cfg.wf = true) :
    (s.hostq = [] ∧ step s = .next s) ∨
    (∃ p rest, s.hostq = p :: rest ∧ p.addr ≠ cmdAddr ∧ step s = .next s.popWrite) ∨
    ∃ p rest, s.hostq = p :: rest ∧ p.addr = cmdAddr ∧ step s = runWord p.word s.popWrite := by
  match h : s.hostq with
  | [] => exact .inl ⟨rfl, step_of_nil h⟩
  | p :: rest =>
    have hs := step_of_cons h
    rw [if_pos hw] at hs
    by_cases ha : p.addr = cmdAddr
    · rw [if_pos ha] at hs; exact .inr (.inr ⟨p, rest, rfl, ha, hs⟩)
    · rw [if_neg ha] at hs; exact .inr (.inl ⟨p, rest, rfl, ha, hs⟩)

theorem runWord_of_ok {w : Word} {i : Instr} (h : decode w = .ok i) (s : State) : runWord w s = exec i s := by
  unfold runWord; rw [h]

theorem runWord_of_error {w : Word} {e : Illegal} (h : decode w = .error e) (s : State) : runWord w s = illegal e s := by
  unfold runWord; rw [h]

/-- A word is a command or is reported as illegal; it is never a fault by itself. -/
theorem illegal_eq (e : Illegal) (s : State) : ∃ (k : Nat) (opc : Byte), illegal e s = .next (s.statusErr ⟨.illegalCmd, k, zext opc⟩) ∧
    (k = 0 ∨ k = 1) := by
  cases e with
  | unassigned opc => exact ⟨0, opc, rfl, .inl rfl⟩
  | reservedField opc => exact ⟨1, opc, rfl, .inr rfl⟩

end Sys2Proof.Machine
end

