-- ==== Sys2Proof/Machine/Asm.lean ====
section
/-! DEFINITION. The assembler of 30_encoding.md R66 to R69: one line of text to the command words it stands for. It is
beside the machine: a step never calls it. A line is a list of characters; a line the syntax does not admit gives none
("The assembler refuses any other literal; it does not wrap it", R67). -/

namespace Sys2Proof.Machine

/-! ## Text -/

/-- A blank between the parts of a line (assumption 14). -/
def isBlank (c : Char) : Bool := c == ' ' || c == '\t'

/-- A run of characters without blanks at its ends. -/
def trim (l : List Char) : List Char := ((l.dropWhile isBlank).reverse.dropWhile isBlank).reverse

/-- The line without its comment; a `;` inside quotes opens none. The first argument is the quote that is open.
DESIGN CHOICE (assumption 14): a quote closes at the next quote of its kind, so a quoted apostrophe opens a new quote. -/
def stripComment : Option Char → List Char → List Char
  | _, [] => []
  | none, c :: cs =>
    if c == ';' then []
    else if c == '\'' || c == '"' then c :: stripComment (some c) cs
    else c :: stripComment none cs
  | some q, c :: cs => c :: stripComment (if c == q then none else some q) cs

/-- The operands of a line, cut at the commas outside quotes; `cur` is the operand being read, reversed.
DESIGN CHOICE (assumption 14): R67 gives no scanning or escape rule. A quote closes at the next quote of its kind, so the third
apostrophe of a quoted apostrophe `'''` opens a new quote: a comma or a comment after it stays inside, and the line is
refused. -/
def splitOperands : Option Char → List Char → List Char → List (List Char)
  | _, cur, [] => [trim cur.reverse]
  | none, cur, c :: cs =>
    if c == ',' then trim cur.reverse :: splitOperands none [] cs
    else if c == '\'' || c == '"' then splitOperands (some c) (c :: cur) cs
    else splitOperands none (c :: cur) cs
  | some q, cur, c :: cs => splitOperands (if c == q then none else some q) (c :: cur) cs

/-- The value of a decimal digit. -/
def decDigit (c : Char) : Option Nat :=
  if '0' ≤ c && c ≤ '9' then some (c.toNat - '0'.toNat) else none

/-- The value of a hex digit. -/
def hexDigit (c : Char) : Option Nat :=
  if 'a' ≤ c && c ≤ 'f' then some (c.toNat - 'a'.toNat + 10)
  else if 'A' ≤ c && c ≤ 'F' then some (c.toNat - 'A'.toNat + 10)
  else decDigit c

/-- The number a run of digits writes; `acc` is the value of the digits before. -/
def digits (base : Nat) (digit : Char → Option Nat) : Nat → List Char → Option Nat
  | acc, [] => some acc
  | acc, c :: cs =>
    match digit c with
    | some d => digits base digit (acc * base + d) cs
    | none => none

/-- A nonempty run of digits. -/
def number (base : Nat) (digit : Char → Option Nat) (l : List Char) : Option Nat :=
  if l.isEmpty then none else digits base digit 0 l

/-! ## Field names (R17, R67) -/

/-- The field names of a kind, in `j` order, "with an array element written as `name[i]`". -/
def fieldNames : Kind → List String
  | .env => ["level[0]", "level[1]", "level[2]", "time[0]", "time[1]", "time[2]", "time[3]", "velocity_level",
      "velocity_attack_control", "keyboard_decay_scaling"]
  | .lfo => ["waveform", "frequency", "source", "reset", "humanize", "delay", "aux1", "aux2"]
  | .osc => ["semitone", "fine_tune", "fm_source[0]", "fm_source[1]", "fm_amount[0]", "fm_amount[1]", "waveform",
      "dca_enable", "dca_level", "dca_source[0]", "dca_source[1]", "dca_amount[0]", "dca_amount[1]"]
  | .misc => ["dca4_modulation_amount", "am", "frequency", "sync", "aux", "reset_voice", "mono", "filter_source[0]",
      "filter_source[1]", "filter_amount[0]", "filter_amount[1]", "filter_keyboard_tracking", "reset_envelope", "pan",
      "pan_source", "pan_amount", "glide", "reset_oscillator", "cycle", "split_point", "split_direction",
      "layer_program", "layer_flag", "split_program", "split_flag", "split_layer_program", "split_layer_flag"]

/-- The id of a field by its name within instance `k` of a kind. -/
def namedField (g : Kind) (k : Nat) (name : List Char) : Option Nat :=
  let j := (fieldNames g).findIdx (fun s => s.toList == name)
  if k < g.count && j < (fieldNames g).length then some (g.idBase k + j) else none

/-- The id of a symbolic field name `env<k>.<field>`, `lfo<k>.<field>`, `osc<k>.<field>` or `misc.<field>`. -/
def symbolicField : List Char → Option Nat
  | 'e' :: 'n' :: 'v' :: d :: '.' :: name => (decDigit d).bind fun k => namedField .env k name
  | 'l' :: 'f' :: 'o' :: d :: '.' :: name => (decDigit d).bind fun k => namedField .lfo k name
  | 'o' :: 's' :: 'c' :: d :: '.' :: name => (decDigit d).bind fun k => namedField .osc k name
  | 'm' :: 'i' :: 's' :: 'c' :: '.' :: name => namedField .misc 0 name
  | _ => none

/-! ## Literals (R67) -/

/-- A number literal: decimal, `0x` hex, or a quoted character for its byte code. -/
def numberLiteral : List Char → Option Int
  | ['\'', c, '\''] => if c.toNat < 128 then some c.toNat else none
  | '-' :: ds => (number 10 decDigit ds).map fun n => -(n : Int)
  | '0' :: 'x' :: hs => (number 16 hexDigit hs).map Int.ofNat
  | ds => (number 10 decDigit ds).map Int.ofNat

/-- A literal that fits an unsigned field of `n` bits. -/
def unsignedOperand (n : Nat) (l : List Char) : Option Nat :=
  (numberLiteral l).bind fun v => if 0 ≤ v && v < 2 ^ n then some v.toNat else none

/-- A literal that fits a signed 8-bit field, as its pattern `wrap_8`. -/
def signedOperand (l : List Char) : Option Nat :=
  (numberLiteral l).bind fun v => if -128 ≤ v && v ≤ 127 then some (zext (wrap 8 v)) else none

/-- A field id, by number or by symbolic name. -/
def fieldIdOperand (l : List Char) : Option Nat :=
  match symbolicField l with
  | some id => some id
  | none => unsignedOperand 8 l

/-- `V` of a `SETF` on a field id: signed for an SGN field (R54, R67). -/
def setfValueOperand (c : Config) (id : Nat) (l : List Char) : Option Nat :=
  match c.field? id with
  | some r => if r.spec.cls = .sgn then signedOperand l else unsignedOperand 8 l
  | none => unsignedOperand 8 l

/-! ## Lines (R66, R69) -/

/-- The mnemonics and their opcodes (R55). -/
def mnemonics : List (String × Byte) :=
  [ ("NOP", 0x00), ("SRST", 0x01), ("D2W", 0x10), ("W2D", 0x11), ("NIBX", 0x12), ("NIBC", 0x13)
  , ("SETF", 0x20), ("GETF", 0x21), ("LDDEF", 0x22), ("NAMECLR", 0x23), ("NAMEADD", 0x24), ("GETNAME", 0x25)
  , ("GETNLEN", 0x26), ("SETB", 0x27), ("GETB", 0x28), ("PUTIN", 0x29), ("POKEIN", 0x2A), ("TRIMIN", 0x2B)
  , ("CLRIN", 0x2C), ("GETIN", 0x2D), ("GETOUT", 0x2E), ("XFER", 0x2F)
  , ("PACK_NAME", 0x30), ("PACK_ENV", 0x31), ("PACK_LFO", 0x32), ("PACK_OSC", 0x33), ("PACK_MISC", 0x34)
  , ("PACK_PATCH", 0x35), ("UNPACK_NAME", 0x38), ("UNPACK_ENV", 0x39), ("UNPACK_LFO", 0x3A), ("UNPACK_OSC", 0x3B)
  , ("UNPACK_MISC", 0x3C), ("UNPACK_PATCH", 0x3D), ("ENCODE", 0x40), ("DECODE", 0x41) ]

/-- `(OPC << 24) | (A << 16) | B` (R69). -/
def lineWord (opc : Byte) (a b : Nat) : Word := opc ++ BitVec.ofNat 8 a ++ BitVec.ofNat 16 b

/-- The word of a command line: the operands in field order, as the opcode's format has them (R66, R69). -/
def commandWord (c : Config) (opc : Byte) (ops : List (List Char)) : Option Word :=
  match formatOf opc, ops with
  | some .n, [] => some (lineWord opc 0 0)
  | some .a, [x] => (if opc = 0x10 then signedOperand x else unsignedOperand 8 x).map fun a => lineWord opc a 0
  | some .b, [x] => (unsignedOperand 16 x).map fun b => lineWord opc 0 b
  | some .ab8, [x, y] =>
    (unsignedOperand 8 x).bind fun a => (unsignedOperand 8 y).map fun v => lineWord opc a v
  | some .ab, [x, y] | some .ak, [x, y] =>
    (unsignedOperand 8 x).bind fun a => (unsignedOperand 16 y).map fun b => lineWord opc a b
  | some .af, [x, y] =>
    (unsignedOperand 8 x).bind fun a => (fieldIdOperand y).map fun f => lineWord opc a (f <<< 8)
  | some .afv, [x, y, z] =>
    (unsignedOperand 8 x).bind fun a => (fieldIdOperand y).bind fun f =>
      (setfValueOperand c f z).map fun v => lineWord opc a (f <<< 8 ||| v)
  | _, _ => none

/-- The bytes of a quoted text, one per character.
DESIGN CHOICE (assumption 14): R68 gives no escape rule, so a text with a double quote inside it is refused, and so is one
that is not ASCII. -/
def quotedText : List Char → Option (List Byte)
  | '"' :: rest =>
    match rest.reverse with
    | '"' :: body =>
      if body.all (fun ch => ch != '"' && ch.toNat < 128) then
        some (body.reverse.map fun ch => BitVec.ofNat 8 ch.toNat)
      else none
    | _ => none
  | _ => none

/-- The pseudo-instructions (R68), or none. -/
def pseudoWords (mnemonic : List Char) (ops : List (List Char)) : Option (List Word) :=
  if mnemonic = "SETNAME".toList then
    match ops with
    | [x, y] =>
      (unsignedOperand 8 x).bind fun a => (quotedText y).map fun bs =>
        encode (.nameclr (BitVec.ofNat 8 a)) :: bs.map (fun b => encode (.nameadd (BitVec.ofNat 8 a) b))
    | _ => none
  else if mnemonic = "LOADIN".toList then
    if ops.isEmpty then none
    else (ops.mapM (unsignedOperand 8)).map fun bs =>
      encode .clrin :: bs.map (fun b => encode (.putin (BitVec.ofNat 8 b)))
  else if mnemonic = "ROUNDTRIP".toList then
    match ops with
    | [x, y] =>
      (unsignedOperand 8 x).bind fun a => (unsignedOperand 16 y).map fun n =>
        [encode (.encode (BitVec.ofNat 8 a) (BitVec.ofNat 16 n)), encode .xfer, encode .decode]
    | _ => none
  else none

/-- The words of one line: none for a line the syntax does not admit, no word for a blank line. -/
def assembleLine (c : Config) (line : List Char) : Option (List Word) :=
  let text := trim (stripComment none line)
  let mnemonic := text.takeWhile (fun ch => !isBlank ch)
  let rest := trim (text.drop mnemonic.length)
  let ops := if rest.isEmpty then [] else splitOperands none [] rest
  if text.isEmpty then some []
  else
    match mnemonics.find? (fun m => m.1.toList == mnemonic) with
    | some m => (commandWord c m.2 ops).map fun w => [w]
    | none => pseudoWords mnemonic ops

end Sys2Proof.Machine
end

