-- ==== Sys2Proof/Tests/Slice0.lean ====
section
/-! SUPPORT. Small tests, each a named theorem: the configurations WellFormed refuses, a decoded word for every command, one or two
steps of every command, and a witness for the hypotheses of every statement. The expected values are those of the rules' own
corner cases and examples and of the vectors V-… of 95_test_vectors.md, or are worked out by hand from the rules. -/

namespace Sys2Proof.Tests

open Sys2Proof.Machine

set_option Elab.async false

/-! ## Configurations that must be refused (R7, R87, R89, R119, I5) -/

theorem test_wf_standard : Config.standard.wf = true := by decide

/-- The standard configuration with row `j` of one table replaced. -/
def withEnv (j : Nat) (f : FieldSpec) : Config := { Config.standard with envFields := stdEnvFields.set j f }
def withLfo (j : Nat) (f : FieldSpec) : Config := { Config.standard with lfoFields := stdLfoFields.set j f }
def withOsc (j : Nat) (f : FieldSpec) : Config := { Config.standard with oscFields := stdOscFields.set j f }
def withMisc (j : Nat) (f : FieldSpec) : Config := { Config.standard with miscFields := stdMiscFields.set j f }

/-- A range narrowed inside the coded range is admitted (R122, R147). -/
theorem test_wf_narrowed : (withEnv 3 { rawField 3 7 0 with max := 99 }).wf = true := by decide
/-- `minimum > maximum`. -/
theorem test_wf_min_above_max : (withEnv 3 { rawField 3 7 0 with min := 5, max := 4, dflt := .value 5 }).wf = false := by
  decide
/-- A default above, or below, the range. -/
theorem test_wf_default_above : (withEnv 3 { rawField 3 7 0 with max := 9, dflt := .value 10 }).wf = false := by decide
theorem test_wf_default_below : (withOsc 0 { rawField 0 7 0 with min := 1 }).wf = false := by decide
/-- A range wider than the slice can carry. -/
theorem test_wf_range_too_wide : (withLfo 0 { rawField 0 7 6 with max := 4 }).wf = false := by decide
theorem test_wf_sgn_range : (withEnv 0 { sgnField 0 1 with min := -64 }).wf = false := by decide
/-- The class and the width of a field are fixed. -/
theorem test_wf_env_class : (withEnv 0 { sgnField 0 1 with cls := .raw, min := 0 }).wf = false := by decide
theorem test_wf_lfo_width : (withLfo 1 { rawField 0 5 0 with width := 5, max := 31 }).wf = false := by decide
theorem test_wf_osc_class : (withOsc 7 { boolField 6 7 with cls := .raw }).wf = false := by decide
theorem test_wf_misc_width : (withMisc 2 { rawField 1 6 0 with width := 6, max := 63 }).wf = false := by decide
/-- The slices of the envelope, the LFO and the oscillator are fixed. -/
theorem test_wf_env_slices : (withEnv 3 (rawField 4 7 0)).wf = false := by decide
theorem test_wf_lfo_slices : (withLfo 3 (boolField 3 5)).wf = false := by decide
theorem test_wf_osc_slices : (withOsc 1 { rawField 1 7 3 with slices := oneSlice 1 4 0 }).wf = false := by decide
/-- A MISC slice outside the run, outside its byte, or on another field's bits. -/
theorem test_wf_misc_outside_run : (withMisc 26 (boolField 14 7)).wf = false := by decide
theorem test_wf_misc_outside_byte : (withMisc 26 (boolField 13 8)).wf = false := by decide
theorem test_wf_misc_overlap : (withMisc 26 (boolField 13 6)).wf = false := by decide
/-- A MISC slice whose bits are not the value's, and a field without a slice. -/
theorem test_wf_misc_slice_widths : (withMisc 16 { rawField 9 5 0 with slices := [⟨9, 4, 0, 5, 0⟩] }).wf = false := by decide
theorem test_wf_misc_not_covered : (withMisc 16 { rawField 9 5 0 with slices := [⟨9, 4, 0, 4, 0⟩] }).wf = false := by decide
theorem test_wf_misc_no_slice : (withMisc 16 { rawField 9 5 0 with slices := [] }).wf = false := by decide
/-- Another placing that R119 admits: glide and its two flags moved inside byte 9. -/
theorem test_wf_misc_moved :
    ({ Config.standard with
        miscFields := ((stdMiscFields.set 16 (rawField 9 7 2)).set 17 (boolField 9 0)).set 18 (boolField 9 1) }).wf = true := by
  decide
/-- `MODSRC_CODE` is no bijection. -/
theorem test_wf_modsrc_missing : ({ Config.standard with modsrc := stdModsrc.tail }).wf = false := by decide
theorem test_wf_modsrc_twice : ({ Config.standard with modsrc := stdModsrc.set 0 .off }).wf = false := by decide

/-! ## Decoding: the word of every command, from R52 to R55 (`0b` opcode, then A, F or B high, V or B low) -/

theorem test_decode_system :
    decode 0b00000000_00000000_00000000_00000000 = .ok .nop ∧
    decode 0b00000001_00000000_00000000_00000000 = .ok .srst := by decide
theorem test_decode_codec :
    decode 0b00010000_11111011_00000000_00000000 = .ok (.d2w 0xFB) ∧
    decode 0b00010001_01111011_00000000_00000000 = .ok (.w2d 0x7B) ∧
    decode 0b00010010_10100111_00000000_00000000 = .ok (.nibx 0xA7) ∧
    decode 0b00010011_00000111_00000000_00001010 = .ok (.nibc 0x07 0x0A) := by decide
theorem test_decode_fields :
    decode 0b00100000_00000010_01001011_00000001 = .ok (.setf 2 0x4B 1) ∧
    decode 0b00100001_00100111_10101110_00000000 = .ok (.getf 39 0xAE) ∧
    decode 0b00100010_00000101_00000000_00000000 = .ok (.lddef 5) := by decide
theorem test_decode_names :
    decode 0b00100011_00000011_00000000_00000000 = .ok (.nameclr 3) ∧
    decode 0b00100100_00000011_00000000_01100001 = .ok (.nameadd 3 0x61) ∧
    decode 0b00100101_00000011_00000001_00000010 = .ok (.getname 3 0x0102) ∧
    decode 0b00100110_00000011_00000000_00000000 = .ok (.getnlen 3) := by decide
theorem test_decode_buffers :
    decode 0b00100111_00000110_00000000_10000000 = .ok (.setb 6 0x80) ∧
    decode 0b00101000_01100101_00000000_00000000 = .ok (.getb 101) ∧
    decode 0b00101001_11110000_00000000_00000000 = .ok (.putin 0xF0) ∧
    decode 0b00101010_00001001_00000000_11010001 = .ok (.pokein 9 209) ∧
    decode 0b00101011_00000000_00000001_01100100 = .ok (.trimin 0x0164) ∧
    decode 0b00101100_00000000_00000000_00000000 = .ok .clrin ∧
    decode 0b00101101_00000000_00011111_11111111 = .ok (.getin 8191) ∧
    decode 0b00101110_00000000_00011111_11100101 = .ok (.getout 8165) ∧
    decode 0b00101111_00000000_00000000_00000000 = .ok .xfer := by decide
theorem test_decode_pack :
    decode 0b00110000_00100111_00000000_00000000 = .ok (.packName 39) ∧
    decode 0b00110001_00000001_00000000_00000011 = .ok (.packEnv 1 3) ∧
    decode 0b00110010_00000001_00000000_00000010 = .ok (.packLfo 1 2) ∧
    decode 0b00110011_00000001_00000001_00000000 = .ok (.packOsc 1 0x0100) ∧
    decode 0b00110100_00000001_00000000_00000000 = .ok (.packMisc 1) ∧
    decode 0b00110101_00000001_00000000_00000000 = .ok (.packPatch 1) := by decide
theorem test_decode_unpack :
    decode 0b00111000_00000001_00000000_00000000 = .ok (.unpackName 1) ∧
    decode 0b00111001_00000001_00000000_00000011 = .ok (.unpackEnv 1 3) ∧
    decode 0b00111010_00000001_00000000_00000010 = .ok (.unpackLfo 1 2) ∧
    decode 0b00111011_00000001_00000000_00000001 = .ok (.unpackOsc 1 1) ∧
    decode 0b00111100_00000001_00000000_00000000 = .ok (.unpackMisc 1) ∧
    decode 0b00111101_00000010_00000000_00000000 = .ok (.unpackPatch 2) := by decide
theorem test_decode_framer :
    decode 0b01000000_00000011_10000000_00000001 = .ok (.encode 3 0x8001) ∧
    decode 0b01000001_00000000_00000000_00000000 = .ok .decode := by decide
/-- The edges of the unassigned ranges of R56. -/
theorem test_decode_unassigned :
    decode 0x02000000 = .error (.unassigned 0x02) ∧ decode 0x0F000000 = .error (.unassigned 0x0F) ∧
    decode 0x14000000 = .error (.unassigned 0x14) ∧ decode 0x1F000000 = .error (.unassigned 0x1F) ∧
    decode 0x36000000 = .error (.unassigned 0x36) ∧ decode 0x37000000 = .error (.unassigned 0x37) ∧
    decode 0x3E000000 = .error (.unassigned 0x3E) ∧ decode 0x3F000000 = .error (.unassigned 0x3F) ∧
    decode 0x42000000 = .error (.unassigned 0x42) ∧ decode 0xFF000001 = .error (.unassigned 0xFF) := by decide
/-- One reserved bit set, in each format that has a reserved field (R53, R57). -/
theorem test_decode_reserved :
    decode 0x00800000 = .error (.reservedField 0x00) ∧ decode 0x01000001 = .error (.reservedField 0x01) ∧
    decode 0x10008000 = .error (.reservedField 0x10) ∧ decode 0x2B010000 = .error (.reservedField 0x2B) ∧
    decode 0x13000100 = .error (.reservedField 0x13) ∧ decode 0x21000001 = .error (.reservedField 0x21) := by decide
theorem test_decodeTableWord : decodeTableWord 32 0x40030001 = some (.encode 3 1) ∧ decodeTableWord 32 0x02000000 = none := by
  decide

/-! ## The assembler (R66 to R69) -/

theorem test_asm_d2w : assembleLine Config.standard "D2W -5".toList = some [0x10FB0000] := by decide +kernel
theorem test_asm_setf : assembleLine Config.standard "SETF 0, env0.level[0], -20 ; a comment".toList = some [0x200000EC] := by
  decide +kernel
theorem test_asm_encode : assembleLine Config.standard "ENCODE 3, 1".toList = some [0x40030001] := by decide +kernel
theorem test_asm_refuses : assembleLine Config.standard "GETIN -1".toList = none ∧
    assembleLine Config.standard "SETF 0, env0.time[0], -1".toList = none ∧
    assembleLine Config.standard "W2D 256".toList = none := by decide +kernel
theorem test_asm_setname : assembleLine Config.standard "SETNAME 1, \"aB\"".toList =
    some [0x23010000, 0x24010061, 0x24010042] := by decide +kernel
theorem test_asm_roundtrip : assembleLine Config.standard "ROUNDTRIP 3, 1".toList =
    some [0x40030001, 0x2F000000, 0x41000000] := by decide +kernel

/-! ## Looking at one step -/

/-- `RES` after a command. -/
def resOf (i : Instr) (s : State) : Option Half :=
  match exec i s with
  | .next t => some t.res
  | _ => none

/-- `ERR`, `SUB`, `POS` and `STICKY` after a command, as numbers. -/
def statusOf (i : Instr) (s : State) : Option (Nat × Nat × Nat × Bool) :=
  match exec i s with
  | .next t => some (t.err.toNat, t.sub.toNat, t.pos.toNat, t.sticky)
  | _ => none

/-- One thing of the state after a command. -/
def look {α : Type} (f : State → α) (i : Instr) (s : State) : Option α :=
  match exec i s with
  | .next t => some (f t)
  | _ => none

/-- Reset, with the bytes of LB from `a` on. -/
def lbFrom (a : Nat) (bs : List Byte) : State := { State.reset with lb := Memory.cells a bs }

/-- Reset, with the bytes of IN. -/
def inFrom (bs : List Byte) : State :=
  { State.reset with inb := Memory.cells 0 bs, inLen := BitVec.ofNat 16 bs.length }

/-- Reset, with the name of slot 0. -/
def named (n : List Byte) : State := State.reset.setSlot 0 { defaultPatch Config.standard with name := n }

/-- Reset, with one group of slot 0. -/
def grouped (g : Kind) (k : Nat) (r : Record) : State :=
  State.reset.setSlot 0 ((defaultPatch Config.standard).setGroup g k r)

/-- The single dump of the default patch on channel 0 (R149 expanded by hand; V-F1). -/
def defaultDump : List Byte :=
  [0xF0, 0x0F, 0x02, 0x00, 0x01] ++
  [0x00, 0x02, 0x00, 0x02, 0x00, 0x02, 0x00, 0x02, 0x00, 0x02, 0x00, 0x02] ++
  List.replicate 80 0x00 ++
  [0x00, 0x00, 0x00, 0x0C, 0x00, 0x0C, 0x00, 0x00] ++ [0x00, 0x00, 0x00, 0x0C, 0x00, 0x0C, 0x00, 0x00] ++
  [0x00, 0x00, 0x00, 0x0C, 0x00, 0x0C, 0x00, 0x00] ++
  ([0x00, 0x00, 0x00, 0x00, 0x0F, 0x0F] ++ List.replicate 8 0x00 ++ [0x0F, 0x0F, 0x00, 0x00, 0x00, 0x00]) ++
  ([0x00, 0x00, 0x00, 0x00, 0x0F, 0x0F] ++ List.replicate 8 0x00 ++ [0x0F, 0x0F, 0x00, 0x00, 0x00, 0x00]) ++
  ([0x00, 0x00, 0x00, 0x00, 0x0F, 0x0F] ++ List.replicate 8 0x00 ++ [0x0F, 0x0F, 0x00, 0x00, 0x00, 0x00]) ++
  ([0x00, 0x00, 0x00, 0x00, 0x00, 0x00, 0x0F, 0x0F] ++ List.replicate 6 0x00 ++ [0x0F, 0x00] ++ List.replicate 12 0x00) ++
  [0xF7]

/-- A dump whose patches are runs of zeros: 1 patch, or 40. -/
def zeroDump (dt : Byte) (n : Nat) : List Byte :=
  [0xF0, 0x0F, 0x02, 0x07, dt] ++ List.replicate (204 * n) 0x00 ++ [0xF7]

/-! ## System commands -/

/-- NOP after an error: STATUS clears, STICKY stays (R166). -/
theorem test_nop : statusOf .nop { State.reset with err := 1, sub := 0xFF, sticky := true } = some (0, 0, 0, true) := by
  decide +kernel
/-- SRST clears STICKY and puts the default patch back (R167). -/
theorem test_srst_sticky : statusOf .srst { State.reset with err := 1, sub := 0xFF, sticky := true } = some (0, 0, 0, false) := by
  decide +kernel
theorem test_srst_slot : look (fun t => (t.slot 0).name) .srst (named [0x41]) = some [0x20, 0x20, 0x20, 0x20, 0x20, 0x20] := by
  decide +kernel

/-! ## Range codec and nibbles -/

theorem test_d2w_minus63 : resOf (.d2w 0xC1) State.reset = some 0x0041 := by decide +kernel              -- V-R4
theorem test_d2w_64 : statusOf (.d2w 0x40) State.reset = some (1, 0xFF, 0, true) := by decide +kernel    -- V-R6
theorem test_w2d_65 : resOf (.w2d 0x41) State.reset = some 0xFFC1 := by decide +kernel                   -- V-R14
theorem test_w2d_64 : statusOf (.w2d 0x40) State.reset = some (4, 0xFF, 0, true) := by decide +kernel    -- V-R13
theorem test_nibx : resOf (.nibx 0xA7) State.reset = some 0x0A07 := by decide +kernel                    -- V-N4
theorem test_nibc : resOf (.nibc 0x07 0x0A) State.reset = some 0x00A7 := by decide +kernel               -- V-N5
theorem test_nibc_both_bad : statusOf (.nibc 0x10 0x10) State.reset = some (2, 4, 0, true) := by decide +kernel  -- V-N10

/-! ## Fields and names -/

/-- SETF 0, env0.level[0], -20: the value, and its neighbour (R90). -/
theorem test_setf : look (fun t => (t.slot 0).env[0]) (.setf 0 0x00 0xEC) State.reset =
    some [-20, 0, 0, 0, 0, 0, 0, 0, 0, 0] := by decide +kernel
theorem test_setf_bool : statusOf (.setf 2 0x4B 2) State.reset = some (1, 0x4B, 2, true) := by decide +kernel    -- V-A8
theorem test_getf_negative : resOf (.getf 0 0x00) (grouped .env 0 [-20, 1, 2, 3, 4, 5, 6, 7, 8, 9]) = some 0xFFEC := by
  decide +kernel                                                                                         -- V-A4
theorem test_getf_no_field : statusOf (.getf 0 0x3A) State.reset = some (6, 2, 58, true) := by decide +kernel    -- V-A15
theorem test_lddef : look (fun t => t.slot 0) (.lddef 0) (named []) = some (defaultPatch Config.standard) := by
  decide +kernel
theorem test_lddef_slot : statusOf (.lddef 40) State.reset = some (6, 1, 40, true) := by decide +kernel          -- V-A16
theorem test_nameclr : look (fun t => (t.slot 0).name) (.nameclr 0) State.reset = some [] := by decide +kernel
theorem test_nameadd : look (fun t => (t.slot 0).name) (.nameadd 0 0x61) (named [0x42]) = some [0x42, 0x61] := by
  decide +kernel
theorem test_nameadd_full : statusOf (.nameadd 0 0x61) (named (List.replicate 32 0x41)) = some (6, 3, 32, true) := by
  decide +kernel
theorem test_getname : resOf (.getname 0 1) (named [0x41, 0x62]) = some 0x0062 := by decide +kernel
theorem test_getname_end : statusOf (.getname 0 6) State.reset = some (6, 2, 6, true) := by decide +kernel       -- V-A19
theorem test_getnlen : resOf (.getnlen 0) State.reset = some 6 := by decide +kernel                      -- V-A17

/-! ## Buffers -/

theorem test_setb : look (fun t => (t.lb.read 100, t.lb.read 101)) (.setb 101 0x5A) State.reset = some (0, 0x5A) := by
  decide +kernel                                                                                         -- V-A23
theorem test_setb_end : statusOf (.setb 102 0x5A) State.reset = some (6, 1, 102, true) := by decide +kernel      -- V-A24
theorem test_getb : resOf (.getb 6) (lbFrom 5 [0x11, 0x80, 0x22]) = some 0x0080 := by decide +kernel
theorem test_putin : look (fun t => (t.inLen, t.inb.read 0, t.inb.read 1)) (.putin 0x22) (inFrom [0x11]) =
    some (2, 0x11, 0x22) := by decide +kernel
theorem test_putin_full : statusOf (.putin 1) { State.reset with inLen := 8192 } = some (6, 3, 8192, true) := by
  decide +kernel
theorem test_pokein : look (fun t => (t.inLen, t.inb.read 0, t.inb.read 1)) (.pokein 0x99 0) (inFrom [0x11, 0x22]) =
    some (2, 0x99, 0x22) := by decide +kernel
theorem test_pokein_end : statusOf (.pokein 0x99 2) (inFrom [0x11, 0x22]) = some (6, 2, 2, true) := by decide +kernel
theorem test_trimin : look (·.inLen) (.trimin 1) (inFrom [0x11, 0x22]) = some 1 := by decide +kernel
theorem test_trimin_long : statusOf (.trimin 3) (inFrom [0x11, 0x22]) = some (6, 2, 3, true) := by decide +kernel
theorem test_clrin : look (·.inLen) .clrin (inFrom [0x11, 0x22]) = some 0 := by decide +kernel
theorem test_getin : resOf (.getin 1) (inFrom [0x11, 0xF0]) = some 0x00F0 := by decide +kernel
theorem test_getin_end : statusOf (.getin 2) (inFrom [0x11, 0xF0]) = some (6, 2, 2, true) := by decide +kernel
theorem test_getout : resOf (.getout 1) { State.reset with outb := [(0, 0xF0), (1, 0x0F)], outLen := 210 } = some 0x000F := by
  decide +kernel
theorem test_getout_reset : statusOf (.getout 0) State.reset = some (6, 2, 0, true) := by decide +kernel         -- R196
theorem test_xfer : look (fun t => (t.inLen, t.inb.read 0, t.inb.read 1, t.inb.read 2)) .xfer
    { inFrom [0x11, 0x22, 0x33] with outb := [(0, 0xF0)], outLen := 2 } = some (2, 0xF0, 0x00, 0x33) := by decide +kernel

/-! ## Bit-packer -/

theorem test_pack_name : look (fun t => t.lb.readRun 0 7) (.packName 0) (named [0x70, 0x69, 0x61, 0x6E, 0x6F]) =
    some [0x50, 0x49, 0x41, 0x4E, 0x4F, 0x20, 0x00] := by decide +kernel                                 -- R132
/-- level -1 and -63, velocity_level 63 (R134). -/
theorem test_pack_env : look (fun t => t.lb.readRun 16 10) (.packEnv 0 1)
    (grouped .env 1 [-1, -63, 5, 1, 2, 3, 4, 63, 0x7F, 0xFF]) =
    some [0xFE, 0x82, 0x0A, 0x01, 0x02, 0x03, 0x04, 0xFC, 0x7F, 0xFF] := by decide +kernel
/-- source 9 (R135); waveform 1, frequency 63, reset, humanize, delay 63. -/
theorem test_pack_lfo : look (fun t => t.lb.readRun 50 4) (.packLfo 0 1) (grouped .lfo 1 [1, 63, 9, 1, 1, 63, 0, 0]) =
    some [0x7F, 0x80, 0x40, 0xFF] := by decide +kernel
/-- Every field apart from its neighbours in the byte (R129). -/
theorem test_pack_osc : look (fun t => t.lb.readRun 78 10) (.packOsc 0 2)
    (grouped .osc 2 [0x24, 31, 1, 2, -1, 1, 0x80, 1, 5, 3, 4, -63, 63]) =
    some [0x24, 0xF8, 0x21, 0xFE, 0x02, 0x80, 0x8A, 0x43, 0x82, 0x7E] := by decide +kernel
/-- The default MISC (R137), and every field apart from its neighbours (R130). -/
theorem test_pack_misc_default : look (fun t => t.lb.readRun 88 14) (.packMisc 0) State.reset =
    some [0, 0, 0, 0xFF, 0, 0, 0, 0x0F, 0, 0, 0, 0, 0, 0] := by decide +kernel
theorem test_pack_misc : look (fun t => t.lb.readRun 88 14) (.packMisc 0) (grouped .misc 0
    [-1, 0, 5, 1, 33, 0, 1, 1, 2, -1, 1, 127, 0, 9, 6, -63, 7, 1, 0, 0x55, 1, 0x2A, 0, 0x7F, 1, 1, 0]) =
    some [0x7F, 0x85, 0x61, 0x21, 0xFE, 0x02, 0x7F, 0x96, 0x82, 0x87, 0xD5, 0x2A, 0xFF, 0x01] := by decide +kernel
/-- The end of a default LFO, a default oscillator and the start of MISC in the whole run (R149). -/
theorem test_pack_patch : look (fun t => (t.lb.readRun 0 7, t.lb.readRun 46 4, t.lb.readRun 78 14)) (.packPatch 0) State.reset =
    some ([0x20, 0x20, 0x20, 0x20, 0x20, 0x20, 0], [0x00, 0xC0, 0xC0, 0x00],
      [0, 0, 0xFF, 0, 0, 0, 0, 0xFF, 0, 0, 0, 0, 0, 0xFF]) := by decide +kernel
theorem test_unpack_name : look (fun t => (t.slot 1).name) (.unpackName 1) (lbFrom 0 [0x70, 0, 0x41, 0xFF, 0x4F, 0x20, 0x77]) =
    some [0x70, 0, 0x41, 0xFF, 0x4F, 0x20] := by decide +kernel
/-- Unused bits ignored (R139). -/
theorem test_unpack_env : look (fun t => (t.slot 0).env[0]) (.unpackEnv 0 0)
    (lbFrom 6 [0x01, 0xFF, 0x83, 1, 2, 3, 4, 0xFF, 8, 9]) = some [0, -1, -63, 1, 2, 3, 4, 63, 8, 9] := by decide +kernel
theorem test_unpack_env_64 : statusOf (.unpackEnv 0 0) (lbFrom 6 [0x80]) = some (4, 0, 6, true) := by decide +kernel
/-- The bytes of R140's corner case. -/
theorem test_unpack_lfo : look (fun t => (t.slot 0).lfo[0]) (.unpackLfo 0 0) (lbFrom 46 [0x7F, 0x80, 0x40, 0xFF]) =
    some [1, 63, 9, 1, 1, 63, 0, 0] := by decide +kernel
/-- Byte 6 = 0x81 and byte 1 = 0x07 (R141). -/
theorem test_unpack_osc : look (fun t => (t.slot 0).osc[1]) (.unpackOsc 0 1)
    (lbFrom 68 [0x24, 0x07, 0x21, 0xFE, 0x02, 0x80, 0x81, 0x43, 0x82, 0x7E]) =
    some [0x24, 0, 1, 2, -1, 1, 0x80, 1, 0, 3, 4, -63, 63] := by decide +kernel
theorem test_unpack_osc_64 : statusOf (.unpackOsc 0 0) (lbFrom 61 [0x80]) = some (4, 0x64, 61, true) := by decide +kernel
theorem test_unpack_misc : look (fun t => (t.slot 0).misc) (.unpackMisc 0)
    (lbFrom 88 [0x7F, 0x85, 0xFF, 0x21, 0xFF, 0x02, 0x7F, 0x96, 0x82, 0x87, 0xD5, 0x2A, 0xFF, 0x01]) =
    some [-1, 0, 5, 1, 63, 1, 1, 1, 2, -1, 1, 127, 0, 9, 6, -63, 7, 1, 0, 0x55, 1, 0x2A, 0, 0x7F, 1, 1, 0] := by
  decide +kernel
theorem test_unpack_misc_64 : statusOf (.unpackMisc 0) (lbFrom 88 [0xC0]) = some (4, 0xA0, 88, true) := by decide +kernel
/-- Nothing of the slot is written when the last group fails (R143). -/
theorem test_unpack_patch_atomic : look (fun t => (t.err, t.slot 0)) (.unpackPatch 0) (lbFrom 0
    ([0x41, 0x42] ++ List.replicate 86 0 ++ [0xC0])) = some (4, defaultPatch Config.standard) := by decide +kernel
theorem test_unpack_patch : look (fun t => ((t.slot 2).name, (t.slot 2).lfo[2])) (.unpackPatch 2)
    (lbFrom 0 ([0x41, 0x42] ++ List.replicate 52 0 ++ [0x7F, 0x80, 0x40, 0xFF])) =
    some ([0x41, 0x42, 0, 0, 0, 0], [1, 63, 9, 1, 1, 63, 0, 0]) := by decide +kernel

/-! ## Framer -/

/-- The frame of the default patch (R155, V-F1). -/
theorem test_encode : look (fun t => (t.outLen, t.outb.readRun 0 210)) (.encode 0 1) State.reset = some (210, defaultDump) := by
  decide +kernel
theorem test_encode_zero : statusOf (.encode 0 0) State.reset = some (3, 1, 0, true) := by decide +kernel
theorem test_decode : look (fun t => (t.pcount, t.chan, t.dtype, t.slot 0)) .decode (inFrom (zeroDump 0x01 1)) =
    some (1, 7, 1,
      { name := [0, 0, 0, 0, 0, 0], env := Vector.replicate 4 (List.replicate 10 0), lfo := Vector.replicate 3 (List.replicate 8 0),
        osc := Vector.replicate 3 (List.replicate 13 0), misc := List.replicate 27 0 }) := by decide +kernel
theorem test_decode_footer : statusOf .decode (inFrom (defaultDump.set 209 0x00)) = some (2, 5, 209, true) := by decide +kernel

/-! ## Steps -/

/-- `withFetchWord` and one step run the command: ENCODE 3, 0 (R182). -/
theorem test_step_runs : (match step (State.reset.withFetchWord 32 0x40030000) with
    | .next t => (t.err.toNat, t.hostq) | _ => (0, [])) = (3, []) := by decide +kernel
/-- A configuration that must be refused runs nothing. -/
theorem test_step_badConfig : (match step ({ State.reset with
      cfg := withEnv 3 { rawField 3 7 0 with min := 5, max := 4 } }.withFetchWord 32 0) with
    | .refused r => some r | _ => none) = some .badConfig := by decide +kernel
/-- A write to another address has no effect (R29). -/
theorem test_step_otherAddr : (match step (State.reset.pushWrite 0x3 0x10400000) with
    | .next t => (t.err.toNat, t.sticky, t.hostq) | _ => (7, true, [])) = (0, false, []) := by decide +kernel

/-! ## Witnesses: the hypotheses of each statement hold together, clause by clause, at the edges of its ranges -/

open Sys2Proof.Claims

/-- An outcome is a next state with a property. -/
def nextAnd (o : Host.Outcome State Fault Refusal) (f : State → Bool) : Bool :=
  match o with
  | .next t => f t
  | _ => false

theorem exists_of_nextAnd {o : Host.Outcome State Fault Refusal} {f : State → Bool} (h : nextAnd o f = true) :
    ∃ t, o = .next t ∧ f t = true := by
  cases o with
  | next t => exact ⟨t, rfl, h⟩
  | fault e => cases h
  | refused e => cases h

/-- Reset with another configuration. -/
def withConfig (f : Config → Config) : State := State.powerOn (f Config.standard)

/-- The last field of the last envelope and the ids around it, and ids that name no field. -/
theorem witness_FieldTable :
    Config.standard.field? 0x39 ≠ none ∧ Config.standard.field? 0x57 ≠ none ∧ Config.standard.field? 0x8C ≠ none ∧
    Config.standard.field? 0xBA ≠ none ∧
    ∀ id ∈ [0x0A, 0x3A, 0x58, 0x6D, 0x8D, 0xBB, 0xFF], id < 256 ∧ (∀ k < 4, ∀ j < 10, id ≠ 0x00 + 16 * k + j) ∧
      (∀ k < 3, ∀ j < 8, id ≠ 0x40 + 8 * k + j) ∧ (∀ k < 3, ∀ j < 13, id ≠ 0x60 + 16 * k + j) ∧ ∀ j < 27, id ≠ 0xA0 + j := by
  decide +kernel
theorem witness_PortMap : (State.reset.pushWrite 0xE 5).cfg.wf = true ∧
    (State.reset.pushWrite 0xE 5).hostq = ⟨0xE, 5⟩ :: [] ∧ (0xE : BitVec 4) ≠ 0xF := by decide +kernel
theorem witness_StepRunsDecoded :
    (State.reset.pushWrite 0xF 0x41000000).cfg.wf = true ∧
    (State.reset.pushWrite 0xF 0x41000000).hostq = ⟨0xF, 0x41000000⟩ :: [] ∧ decode 0x41000000 = .ok .decode ∧
    (State.reset.pushWrite 0xF 0xFFFFFFFF).hostq = ⟨0xF, 0xFFFFFFFF⟩ :: [] ∧
    decode 0xFFFFFFFF = .error (.unassigned 0xFF) ∧ decode 0x00000001 = .error (.reservedField 0x00) ∧
    State.reset.cfg.wf = true ∧ 0x4100FFFF < 2 ^ 32 ∧ decode (BitVec.ofNat 32 0x4000FFFF) = .ok (.encode 0 0xFFFF) ∧
    State.reset.hostq = [] := by decide +kernel
theorem witness_StatusDiscipline :
    (∃ t, runWord 0x00000000 { State.reset with sticky := true } = .next t ∧ decide (t.err = 0 ∧ t.sticky = true) = true) ∧
    (∃ t, runWord 0x01000000 { State.reset with sticky := true } = .next t ∧ decide (t.err = 0 ∧ t.sticky = false) = true) ∧
    ∃ t, runWord 0xFF000000 State.reset = .next t ∧ decide (t.err ≠ 0) = true :=
  ⟨exists_of_nextAnd (by decide +kernel), exists_of_nextAnd (by decide +kernel), exists_of_nextAnd (by decide +kernel)⟩
theorem witness_EncodeDecode : decode 0x4003FFFF = .ok (.encode 3 0xFFFF) := by decide +kernel
theorem witness_IllegalWords :
    (0x42000000 : Word).toNat / 2 ^ 24 ∉ assigned ∧ (0x02000000 : Word).toNat / 2 ^ 24 ∉ assigned ∧
    (0x41000001 : Word).toNat / 2 ^ 24 ∈ assigned ∧ (0x41000001 : Word) &&& reservedBits 0x41 ≠ 0 ∧
    (0x13FF80FF : Word).toNat / 2 ^ 24 ∈ assigned ∧ (0x13FF80FF : Word) &&& reservedBits 0x13 ≠ 0 ∧
    (0x13FF00FF : Word) &&& reservedBits 0x13 = 0 := by decide +kernel
theorem witness_NopOnlyStatus : (0x00000001 : Word).toNat / 2 ^ 24 = 0x00 ∧ (0x00000001 : Word) ≠ 0x00000000 := by decide
theorem witness_SoftReset : State.reset.cfg = Config.standard ∧ (0x01800000 : Word).toNat / 2 ^ 24 = 0x01 ∧
    (0x01800000 : Word) ≠ 0x01000000 := by decide +kernel
theorem witness_SignCodec : ((-63 : Int) ≤ -63 ∧ (-63 : Int) ≤ 63) ∧ ((-63 : Int) ≤ 63 ∧ (63 : Int) ≤ 63) ∧
    (-64 : Int) < -63 ∧ (63 : Int) < 64 ∧ (127 ≤ 127 ∧ 127 ≠ 64) ∧ (65 ≤ 127 ∧ 65 ≠ 64) ∧ 127 < 128 := by decide
theorem witness_D2wResult : ((-63 : Int) ≤ (0xC1 : Byte).toInt ∧ (0xC1 : Byte).toInt ≤ 63) ∧ (0x3F : Byte).toInt ≤ 63 ∧
    (0xC0 : Byte).toInt < -63 ∧ 63 < (0x40 : Byte).toInt := by decide
theorem witness_W2dResult : (0x3F : Byte).toNat < 64 ∧ 64 < (0x41 : Byte).toNat ∧ (0x7F : Byte).toNat ≤ 127 ∧
    (0x40 : Byte).toNat = 64 ∧ 127 < (0x80 : Byte).toNat := by decide

/-! Slots, fields and names -/

theorem witness_SetfResult :
    40 ≤ (40 : Byte).toNat ∧ (39 : Byte).toNat < 40 ∧ State.reset.cfg.field? (0xBB : Byte).toNat = none ∧
    State.reset.cfg.field? (0x00 : Byte).toNat = some ⟨.env, 0, 0, sgnField 0 1⟩ ∧ State.reset.StoreOk ∧
    ((0xC0 : Byte).toInt < -63 ∧ 63 < (0x40 : Byte).toInt) ∧ ((-63 : Int) ≤ (0xC1 : Byte).toInt ∧ (0x3F : Byte).toInt ≤ 63) ∧
    State.reset.cfg.field? (0xBA : Byte).toNat = some ⟨.misc, 0, 26, boolField 13 7⟩ ∧ (1 : Int) < ((0x02 : Byte).toNat : Int) ∧
    ((0x01 : Byte).toNat : Int) ≤ 1 := by decide +kernel
theorem witness_GetfResult : 40 ≤ (40 : Byte).toNat ∧ (39 : Byte).toNat < 40 ∧
    State.reset.cfg.field? (0x3A : Byte).toNat = none ∧
    State.reset.cfg.field? (0x39 : Byte).toNat = some ⟨.env, 3, 9, rawField 9 7 0⟩ := by decide +kernel
theorem witness_LddefResult : 40 ≤ (40 : Byte).toNat ∧ (39 : Byte).toNat < 40 := by decide
theorem witness_NameWrites : 40 ≤ (40 : Byte).toNat ∧ (0 : Byte).toNat < 40 ∧
    ((named (List.replicate 32 0x41)).pstore[0]).name.length = 32 ∧
    ((named (List.replicate 31 0x41)).pstore[0]).name.length ≠ 32 := by decide +kernel
theorem witness_NameReads : 40 ≤ (40 : Byte).toNat ∧ (0 : Byte).toNat < 40 ∧
    (5 : Half).toNat < (State.reset.pstore[0]).name.length ∧ (State.reset.pstore[0]).name.length ≤ (6 : Half).toNat := by
  decide +kernel

/-! Buffers -/

theorem witness_LogicalByte : 102 ≤ (102 : Byte).toNat ∧ (101 : Byte).toNat < 102 := by decide
theorem witness_PutinResult : ({ State.reset with inLen := 8192 } : State).inLen.toNat = 8192 ∧
    ({ State.reset with inLen := 8191 } : State).inLen.toNat < 8192 := by decide +kernel
theorem witness_PokeinResult : (inFrom [1, 2]).inLen.toNat ≤ (2 : Half).toNat ∧ (inFrom [1, 2]).inLen.toNat ≤ 8192 ∧
    (1 : Half).toNat < (inFrom [1, 2]).inLen.toNat := by decide +kernel
theorem witness_InLength : (inFrom [1, 2]).inLen.toNat < (3 : Half).toNat ∧ (2 : Half).toNat ≤ (inFrom [1, 2]).inLen.toNat := by
  decide +kernel
theorem witness_GetinResult : (inFrom [1, 2]).inLen.toNat ≤ (2 : Half).toNat ∧ (inFrom [1, 2]).inLen.toNat ≤ 8192 ∧
    (1 : Half).toNat < (inFrom [1, 2]).inLen.toNat := by decide +kernel
theorem witness_GetoutResult : State.reset.outLen.toNat ≤ (0 : Half).toNat ∧
    ({ State.reset with outLen := 8166 } : State).outLen.toNat ≤ 8166 ∧
    (8165 : Half).toNat < ({ State.reset with outLen := 8166 } : State).outLen.toNat := by decide +kernel
theorem witness_XferResult : State.reset.outLen.toNat ≤ 8166 ∧
    ({ State.reset with outLen := 8166 } : State).outLen.toNat ≤ 8166 := by decide +kernel
/-- Two states that differ in a byte of IN and one of OUT that no command can read. -/
theorem witness_HiddenBytesUnobservable :
    SameVisible (inFrom [0x11]) { inFrom [0x11] with inb := [(0, 0x11), (1, 0x77)], outb := [(0, 0x77)] } ∧
    ∃ t, exec (.putin 0x22) (inFrom [0x11]) = .next t ∧ (t.err == 0) = true := by
  refine ⟨⟨rfl, fun x hx => ?_, fun x hx => ?_⟩, exists_of_nextAnd (by decide +kernel)⟩
  · have h : x = 0 := by simpa [inFrom] using hx
    subst h; decide
  · exact absurd hx (by simp [inFrom, State.reset, State.powerOn])

/-! Bit-packer -/

theorem witness_PackName : 40 ≤ (40 : Byte).toNat ∧ (39 : Byte).toNat < 40 := by decide
theorem witness_PackEnv : (39 : Byte).toNat < 40 ∧ 4 ≤ (4 : Half).toNat ∧ (3 : Half).toNat < 4 ∧ State.reset.StoreOk ∧
    State.reset.cfg.envFields = stdEnvFields := by decide +kernel
theorem witness_PackLfo : (39 : Byte).toNat < 40 ∧ 3 ≤ (3 : Half).toNat ∧ (2 : Half).toNat < 3 ∧ State.reset.StoreOk ∧
    State.reset.cfg.lfoFields = stdLfoFields ∧ (withConfig fun c => { c with lfoAux := .drop }).StoreOk ∧
    (withConfig fun c => { c with lfoAux := .drop }).cfg.lfoFields = stdLfoFields := by decide +kernel
theorem witness_PackOsc : (39 : Byte).toNat < 40 ∧ 3 ≤ (3 : Half).toNat ∧ (2 : Half).toNat < 3 ∧ State.reset.StoreOk ∧
    State.reset.cfg.oscFields = stdOscFields := by decide +kernel
theorem witness_PackMisc : (39 : Byte).toNat < 40 ∧ 40 ≤ (40 : Byte).toNat ∧ State.reset.StoreOk ∧
    State.reset.cfg.miscFields = stdMiscFields := by decide +kernel
theorem witness_PackPatchIsTheSequence : (39 : Byte).toNat < 40 ∧ 40 ≤ (40 : Byte).toNat ∧ (named [0x61, 0x62]).Inv := by decide +kernel
theorem witness_UnpackName : (39 : Byte).toNat < 40 ∧ 40 ≤ (40 : Byte).toNat := by decide
theorem witness_UnpackEnv : (39 : Byte).toNat < 40 ∧ 4 ≤ (4 : Half).toNat ∧ (3 : Half).toNat < 4 ∧
    State.reset.cfg.envFields = stdEnvFields ∧ State.reset.cfg.unused = .ignore ∧
    firstReserved [(lbByte State.reset 36 0 / 2, 48, 36), (lbByte State.reset 36 1 / 2, 49, 37),
      (lbByte State.reset 36 2 / 2, 50, 38)] = none ∧
    firstReserved [(lbByte (lbFrom 38 [0x81]) 36 0 / 2, 48, 36), (lbByte (lbFrom 38 [0x81]) 36 1 / 2, 49, 37),
      (lbByte (lbFrom 38 [0x81]) 36 2 / 2, 50, 38)] = some (64, 50, 38) := by decide +kernel
theorem witness_UnpackLfo : (39 : Byte).toNat < 40 ∧ 3 ≤ (3 : Half).toNat ∧ (2 : Half).toNat < 3 ∧
    State.reset.cfg.lfoFields = stdLfoFields ∧ State.reset.cfg.unused = .ignore ∧
    lfoHeld State.reset.cfg.lfoAux (lfoRecord (lbByte State.reset 54)) = [0, 0, 0, 0, 0, 0, 0, 0] ∧
    lfoHeld .drop (lfoRecord (lbByte State.reset 54)) = [0, 0, 0, 0, 0, 0] := by decide +kernel
theorem witness_UnpackOsc : (39 : Byte).toNat < 40 ∧ 3 ≤ (3 : Half).toNat ∧ (2 : Half).toNat < 3 ∧
    State.reset.cfg.oscFields = stdOscFields ∧ State.reset.cfg.unused = .ignore ∧
    firstReserved [(lbByte State.reset 78 3 / 2, 0x84, 81), (lbByte State.reset 78 4 / 2, 0x85, 82),
      (lbByte State.reset 78 8 / 2, 0x8B, 86), (lbByte State.reset 78 9 / 2, 0x8C, 87)] = none ∧
    firstReserved [(lbByte (lbFrom 87 [0x80]) 78 3 / 2, 0x84, 81), (lbByte (lbFrom 87 [0x80]) 78 4 / 2, 0x85, 82),
      (lbByte (lbFrom 87 [0x80]) 78 8 / 2, 0x8B, 86), (lbByte (lbFrom 87 [0x80]) 78 9 / 2, 0x8C, 87)] =
        some (64, 0x8C, 87) := by decide +kernel
theorem witness_UnpackMisc : (39 : Byte).toNat < 40 ∧ 40 ≤ (40 : Byte).toNat ∧
    State.reset.cfg.miscFields = stdMiscFields ∧ State.reset.cfg.unused = .ignore ∧
    firstReserved [(lbByte State.reset 88 0 % 128, 0xA0, 88), (lbByte State.reset 88 4 / 2, 0xA9, 92),
      (lbByte State.reset 88 5 / 2, 0xAA, 93), (lbByte State.reset 88 8 / 2, 0xAF, 96)] = none ∧
    firstReserved [(lbByte (lbFrom 96 [0x80]) 88 0 % 128, 0xA0, 88), (lbByte (lbFrom 96 [0x80]) 88 4 / 2, 0xA9, 92),
      (lbByte (lbFrom 96 [0x80]) 88 5 / 2, 0xAA, 93), (lbByte (lbFrom 96 [0x80]) 88 8 / 2, 0xAF, 96)] =
        some (64, 0xAF, 96) := by decide +kernel

/-- The twelve unpack commands of R143 for slot `a`. -/
def unpacks (a : Byte) : List Instr :=
  [.unpackName a, .unpackEnv a 0, .unpackEnv a 1, .unpackEnv a 2, .unpackEnv a 3, .unpackLfo a 0, .unpackLfo a 1,
   .unpackLfo a 2, .unpackOsc a 0, .unpackOsc a 1, .unpackOsc a 2, .unpackMisc a]

theorem witness_UnpackPatchIsTheAtomicSequence : (39 : Byte).toNat < 40 ∧ 40 ≤ (40 : Byte).toNat ∧
    (execUntilError (unpacks 39) State.reset).err = 0 ∧ (execUntilError (unpacks 39) (lbFrom 88 [0x40])).err ≠ 0 ∧
    ∃ p, deserialize State.reset.cfg ((List.range 102).map State.reset.lb.read) = .ok p :=
  ⟨by decide, by decide, by decide +kernel, by decide +kernel, ⟨_, rfl⟩⟩

/-- Every slice of the standard envelope ends below bit 8. -/
theorem hi_le_of_std : ∀ f ∈ stdEnvFields, ∀ sl ∈ f.slices, sl.hi < 8 := by decide

/-- A packed run; two runs that differ in an unused bit; a run with none set and one with the lowest bit of byte 2 set. -/
theorem witness_UnusedBits :
    Config.standard.wf = true ∧ recordOk (Config.standard.fields .env) [-63, 63, 0, 255, 0, 0, 0, 63, 0, 255] = true ∧
    packGroup Config.standard .env 3 [-63, 63, 0, 255, 0, 0, 0, 63, 0, 255] =
      .ok [0x82, 0x7E, 0x00, 0xFF, 0x00, 0x00, 0x00, 0xFC, 0x00, 0xFF] ∧
    ¬Used (Config.standard.fields .env) 7 1 ∧
    (∀ n i, Used (Config.standard.fields .env) n i →
      (([0x83, 0, 0, 0, 0, 0, 0, 0xFF, 0, 0] : List Byte).getD n 0).getLsbD i =
        (([0x82, 0, 0, 0, 0, 0, 0, 0xFC, 0, 0] : List Byte).getD n 0).getLsbD i) ∧
    ({ Config.standard with unused := .reject } : Config).wf = true ∧
    (∀ n i, ((List.replicate 10 (0 : Byte)).getD n 0).getLsbD i = true → Used (Config.standard.fields .env) n i) ∧
    (∃ r, unpackGroup { Config.standard with unused := .ignore } .env 3 [0, 0, 0x01, 0, 0, 0, 0, 0, 0, 0] = .ok r) ∧
    (([0, 0, 0x01, 0, 0, 0, 0, 0, 0, 0] : List Byte).getD 2 0).getLsbD 0 = true ∧
    ¬Used (Config.standard.fields .env) 2 0 := by
  refine ⟨by decide, by decide +kernel, by decide +kernel, by unfold Used; decide +kernel, ?_, by decide, ?_, ⟨_, rfl⟩,
    by decide, by unfold Used; decide +kernel⟩
  · have h : ∀ f ∈ stdEnvFields, ∀ sl ∈ f.slices, ∀ i < 8, sl.lo ≤ i → i ≤ sl.hi →
        (([0x83, 0, 0, 0, 0, 0, 0, 0xFF, 0, 0] : List Byte).getD sl.byte 0).getLsbD i =
          (([0x82, 0, 0, 0, 0, 0, 0, 0xFC, 0, 0] : List Byte).getD sl.byte 0).getLsbD i := by decide +kernel
    rintro n i ⟨f, hf, sl, hsl, rfl, h1, h2⟩
    exact h f hf sl hsl i (by have := hi_le_of_std f hf sl hsl; omega) h1 h2
  · intro n i h
    have e : (List.replicate 10 (0 : Byte)).getD n 0 = 0 := by
      by_cases hn : n < 10
      · rw [List.getD_eq_getElem _ _ (by simpa using hn), List.getElem_replicate]
      · rw [List.getD_eq_default _ _ (by simpa using hn)]
    rw [e] at h
    simp at h
theorem witness_RecordRoundTrip : Config.standard.wf = true ∧
    recordOk (Config.standard.fields .osc) [255, 31, 15, 0, -63, 63, 255, 1, 63, 15, 0, -63, 63] = true ∧
    ({ defaultPatch Config.standard with name := List.replicate 32 0x7A }).ok Config.standard = true := by decide +kernel
/-- A run with a lower-case name and every unused bit set. -/
theorem witness_ByteRoundTrip : Config.standard.wf = true ∧ Config.standard.lfoAux = .preserve ∧
    Config.standard.miscFields = stdMiscFields ∧
    ([0x61, 0x7A, 0x60, 0x7B, 0x20, 0xFF] ++ (List.range 96).map fun k => unusedBits (k + 6)).length = 102 ∧
    ∃ p, deserialize Config.standard
      ([0x61, 0x7A, 0x60, 0x7B, 0x20, 0xFF] ++ (List.range 96).map fun k => unusedBits (k + 6)) = .ok p :=
  ⟨by decide, rfl, rfl, by decide, ⟨_, rfl⟩⟩

/-! Framer -/

theorem witness_NibbleExpand : contract .reject 0x0F 0x0F 0 = .ok 0xFF := by decide
theorem witness_NibbleContract : (0x0F : Byte).toNat ≤ 0x0F ∧ 0x0F < (0x10 : Byte).toNat ∧ State.reset.cfg.nibble = .reject ∧
    (withConfig fun c => { c with nibble := .wrap8 }).cfg.nibble = .wrap8 := by decide +kernel
theorem witness_EncodeFrame : (0 : Half).toNat = 0 ∧ (1 : Half).toNat ≠ 0 ∧ (0xFFFF : Half).toNat ≠ 1 ∧ (named [0x61, 0x62]).Inv := by
  decide +kernel

/-- A state whose IN holds `len` bytes: a header, channel 7, the dump type, a payload of zeros but for the byte at `at`, the
byte `f` where the footer of a frame of `n` patches stands. -/
def zeroIn (c : Config) (dt : Byte) (n len at' : Nat) (x f : Byte) : State :=
  { State.powerOn c with
    inb := [(0, 0xF0), (1, 0x0F), (2, 0x02), (3, 0x07), (4, dt), (at', x), (5 + 204 * n, f)], inLen := BitVec.ofNat 16 len }

theorem read_zeroIn {c dt n len a x f} (y : Nat) (h : 5 ≤ y) (h1 : y ≠ a) (h2 : y ≠ 5 + 204 * n) :
    (zeroIn c dt n len a x f).inb.read y = 0 := by
  simp only [zeroIn, Memory.read]
  repeat rw [if_neg (by omega)]
  rfl

/-- With the odd byte out of the way every run is a run of zeros, which deserializes. -/
theorem wireRun_zeroIn {c dt n len a x f} (i : Nat) (hi : i < n) (h : ∀ o, o < 204 → 5 + 204 * i + o ≠ a) :
    wireRun (zeroIn c dt n len a x f) i = List.replicate 102 0 := by
  apply List.ext_getElem
  · simp [wireRun]
  · intro o h1 h2
    have ho : o < 102 := by simpa using h2
    have e1 := h (2 * o) (by omega)
    have e2 := h (2 * o + 1) (by omega)
    simp only [wireRun, List.getElem_map, List.getElem_range, List.getElem_replicate]
    rw [read_zeroIn _ (by omega) (by omega) (by omega), read_zeroIn _ (by omega) (by omega) (by omega)]
    rfl

/-- The patch of a run of zeros. -/
def zeroPatch : Patch :=
  { name := [0, 0, 0, 0, 0, 0], env := Vector.replicate 4 (List.replicate 10 0), lfo := Vector.replicate 3 (List.replicate 8 0),
    osc := Vector.replicate 3 (List.replicate 13 0), misc := List.replicate 27 0 }

theorem deserialize_zeros : deserialize Config.standard (List.replicate 102 0) = .ok zeroPatch := by decide +kernel

theorem nibbleOk_zeroIn {c dt n len a x f} (j : Nat) (h1 : 5 + j ≠ a) (h2 : j < 204 * n) :
    NibbleOk (zeroIn c dt n len a x f) j :=
  .inr (by rw [read_zeroIn _ (by omega) h1 (by omega)]; decide)

/-- A bank of 40 zero patches, exactly as long as its frame; and a single dump with a byte behind it. -/
theorem witness_DecodeAccepts :
    (let s := zeroIn Config.standard 0x02 40 8166 8191 1 0xF7
     FrameHead s 40 ∧ 6 + 204 * 40 ≤ s.inLen.toNat ∧ s.inLen.toNat ≤ 8192 ∧ (∀ j, j < 204 * 40 → NibbleOk s j) ∧
     (∀ i, i < 40 → deserialize s.cfg (wireRun s i) = .ok zeroPatch) ∧ s.inb.read (5 + 204 * 40) = 0xF7 ∧
     s.inLen.toNat = 6 + 204 * 40) ∧
    (let s := zeroIn Config.standard 0x01 1 211 210 1 0xF7
     FrameHead s 1 ∧ 6 + 204 * 1 ≤ s.inLen.toNat ∧ s.inLen.toNat ≤ 8192 ∧ (∀ j, j < 204 * 1 → NibbleOk s j) ∧
     (∀ i, i < 1 → deserialize s.cfg (wireRun s i) = .ok zeroPatch) ∧ s.inb.read (5 + 204 * 1) = 0xF7 ∧
     s.cfg.trailing = .ignore) := by
  refine ⟨⟨by unfold FrameHead; decide, by decide, by decide, fun j h => nibbleOk_zeroIn j (by omega) h, fun i h => ?_,
      by decide, by decide⟩,
    ⟨by unfold FrameHead; decide, by decide, by decide, fun j h => nibbleOk_zeroIn j (by omega) h, fun i h => ?_,
      by decide, rfl⟩⟩ <;>
  · rw [wireRun_zeroIn i h (fun o ho => by omega)]
    exact deserialize_zeros

/-- Each header byte, and IN empty or ending after the channel byte, and a dump type beside those two. -/
theorem witness_DecodeHeaderErrors :
    ((inFrom [0x00]).inLen.toNat ≤ 8192 ∧ 0 < (inFrom [0x00]).inLen.toNat ∧ (inFrom [0x00]).inb.read 0 ≠ 0xF0) ∧
    (2 < (inFrom [0xF0, 0x0F, 0x03]).inLen.toNat ∧ (inFrom [0xF0, 0x0F, 0x03]).inb.read 0 = 0xF0 ∧
      (inFrom [0xF0, 0x0F, 0x03]).inb.read 1 = 0x0F ∧ (inFrom [0xF0, 0x0F, 0x03]).inb.read 2 ≠ 0x02) ∧
    State.reset.inLen.toNat ≤ 4 ∧ (inFrom [0xF0, 0x0F, 0x02, 0x00]).inLen.toNat ≤ 4 ∧
    5 ≤ (inFrom [0xF0, 0x0F, 0x02, 0x00, 0x03]).inLen.toNat ∧ (inFrom [0xF0, 0x0F, 0x02, 0x00, 0x03]).inb.read 2 = 0x02 ∧
    (inFrom [0xF0, 0x0F, 0x02, 0x00, 0x03]).inb.read 4 ≠ 0x01 ∧ (inFrom [0xF0, 0x0F, 0x02, 0x00, 0x03]).inb.read 4 ≠ 0x02 := by
  decide +kernel

/-- IN ends right after the dump type, and one byte before the end of a bank. -/
theorem witness_DecodeTruncated :
    (let s := zeroIn Config.standard 0x01 1 5 8191 1 0xF7
     FrameHead s 1 ∧ 5 ≤ s.inLen.toNat ∧ s.inLen.toNat < 6 + 204 * 1 ∧
     (∀ j, 5 + 2 * (j / 2) + 1 < s.inLen.toNat → j < 204 * 1 → NibbleOk s j) ∧
     ∀ i, i < 1 → 5 + 204 * (i + 1) ≤ s.inLen.toNat → deserialize s.cfg (wireRun s i) = .ok zeroPatch) ∧
    (let s := zeroIn Config.standard 0x02 40 8165 8191 1 0xF7
     FrameHead s 40 ∧ 5 ≤ s.inLen.toNat ∧ s.inLen.toNat < 6 + 204 * 40 ∧
     (∀ j, 5 + 2 * (j / 2) + 1 < s.inLen.toNat → j < 204 * 40 → NibbleOk s j) ∧
     ∀ i, i < 40 → 5 + 204 * (i + 1) ≤ s.inLen.toNat → deserialize s.cfg (wireRun s i) = .ok zeroPatch) := by
  refine ⟨⟨by unfold FrameHead; decide, by decide, by decide, fun j _ h => nibbleOk_zeroIn j (by omega) h, fun i h _ => ?_⟩,
    ⟨by unfold FrameHead; decide, by decide, by decide, fun j _ h => nibbleOk_zeroIn j (by omega) h, fun i h _ => ?_⟩⟩ <;>
  · rw [wireRun_zeroIn i h (fun o ho => by omega)]
    exact deserialize_zeros

/-- The last payload byte of the second patch of a bank. -/
theorem witness_DecodeBadNibble :
    let s := zeroIn Config.standard 0x02 40 8166 (5 + 407) 0x10 0xF7
    FrameHead s 40 ∧ s.inLen.toNat ≤ 8192 ∧ s.cfg.nibble = .reject ∧ 407 < 204 * 40 ∧ 5 + 2 * (407 / 2) + 1 < s.inLen.toNat ∧
    (∀ j', j' < 407 → (s.inb.read (5 + j')).toNat ≤ 0x0F) ∧ 0x0F < (s.inb.read (5 + 407)).toNat ∧
    ∀ i, i < 407 / 204 → deserialize s.cfg (wireRun s i) = .ok zeroPatch := by
  refine ⟨by unfold FrameHead; decide, by decide, rfl, by decide, by decide, fun j h => ?_, by decide, fun i h => ?_⟩
  · rw [read_zeroIn _ (by omega) (by omega) (by omega)]; decide
  · rw [wireRun_zeroIn i (by omega) (fun o ho => by omega)]
    exact deserialize_zeros

/-- The first level of the first envelope of the second patch of a bank holds 64. -/
theorem witness_DecodeBadField :
    let s := zeroIn Config.standard 0x02 40 8166 (5 + 204 + 13) 0x08 0xF7
    FrameHead s 40 ∧ s.inLen.toNat ≤ 8192 ∧ 1 < 40 ∧ 5 + 204 * (1 + 1) ≤ s.inLen.toNat ∧
    (∀ j, j < 204 * (1 + 1) → NibbleOk s j) ∧ (∀ i', i' < 1 → deserialize s.cfg (wireRun s i') = .ok zeroPatch) ∧
    deserialize s.cfg (wireRun s 1) = .error ⟨.invalidCode, 0, 6⟩ := by
  refine ⟨by unfold FrameHead; decide, by decide, by decide, by decide, fun j h => ?_, fun i h => ?_, by decide +kernel⟩
  · by_cases e : j = 217
    · subst e; exact .inr (by decide)
    · exact nibbleOk_zeroIn j (by omega) (by omega)
  · rw [wireRun_zeroIn i (by omega) (fun o ho => by omega)]
    exact deserialize_zeros

/-- A wrong footer; a byte behind a right one under `reject`. -/
theorem witness_DecodeBadEnd :
    (let s := zeroIn Config.standard 0x01 1 210 8191 1 0xF6
     FrameHead s 1 ∧ 6 + 204 * 1 ≤ s.inLen.toNat ∧ s.inLen.toNat ≤ 8192 ∧ (∀ j, j < 204 * 1 → NibbleOk s j) ∧
     (∀ i, i < 1 → deserialize s.cfg (wireRun s i) = .ok zeroPatch) ∧ s.inb.read (5 + 204 * 1) ≠ 0xF7) ∧
    (let s := zeroIn { Config.standard with trailing := .reject } 0x01 1 211 8191 1 0xF7
     FrameHead s 1 ∧ 6 + 204 * 1 ≤ s.inLen.toNat ∧ s.inLen.toNat ≤ 8192 ∧ (∀ j, j < 204 * 1 → NibbleOk s j) ∧
     (∀ i, i < 1 → deserialize s.cfg (wireRun s i) = .ok zeroPatch) ∧ s.inb.read (5 + 204 * 1) = 0xF7 ∧
     s.cfg.trailing = .reject ∧ 6 + 204 * 1 < s.inLen.toNat) := by
  refine ⟨⟨by unfold FrameHead; decide, by decide, by decide, fun j h => nibbleOk_zeroIn j (by omega) h, fun i h => ?_,
      by decide⟩,
    ⟨by unfold FrameHead; decide, by decide, by decide, fun j h => nibbleOk_zeroIn j (by omega) h, fun i h => ?_,
      by decide, rfl, by decide⟩⟩ <;>
  · rw [wireRun_zeroIn i h (fun o ho => by omega)]
    exact deserialize_zeros
theorem witness_DecodeMultiplexer : ∃ t, exec .decode (inFrom defaultDump) = .next t ∧ (t.err == 0 && t.pcount == 1) = true :=
  exists_of_nextAnd (by decide +kernel)
theorem witness_SingleDumpRoundTrip : (named [0x61, 0x62]).Inv := by decide +kernel
theorem witness_BankRoundTrip : (named [0x61, 0x62]).Inv ∧ 2 ≤ (2 : Half).toNat ∧ 2 ≤ (0xFFFF : Half).toNat := by decide +kernel
theorem witness_ReencodeStable : (named [0x61, 0x62]).Inv ∧ (1 : Half).toNat ≠ 0 := by decide +kernel

/-! The whole machine -/

theorem witness_StepKeepsInv : (State.reset.withFetchWord 32 0x29F00000).Inv ∧
    ∃ t, step (State.reset.withFetchWord 32 0x29F00000) = .next t ∧ (t.inLen == 1) = true :=
  ⟨by decide +kernel, exists_of_nextAnd (by decide +kernel)⟩
theorem witness_InvStepAnswers : (State.reset.withFetchWord 32 0x41000000).Inv := by decide +kernel
/-- One command for each of the seven clauses. -/
theorem witness_WriteSets :
    (∃ t, exec (.d2w 1) State.reset = .next t ∧ (t.res != 0) = true) ∧
    (∃ t, exec (.nameclr 0) State.reset = .next t ∧ ((t.slot 0).name == []) = true) ∧
    (∃ t, exec (.setb 101 1) State.reset = .next t ∧ (t.lb != []) = true) ∧
    (∃ t, exec (.putin 1) State.reset = .next t ∧ (t.inb != [] && t.inLen != 0) = true) ∧
    (∃ t, exec (.encode 1 1) State.reset = .next t ∧ (t.outb != [] && t.outLen != 0) = true) ∧
    ∃ t, exec .decode (inFrom (zeroDump 0x01 1)) = .next t ∧ (t.chan != 0 && t.dtype != 0 && t.pcount != 0) = true :=
  ⟨exists_of_nextAnd (by decide +kernel), exists_of_nextAnd (by decide +kernel), exists_of_nextAnd (by decide +kernel),
   exists_of_nextAnd (by decide +kernel), exists_of_nextAnd (by decide +kernel), exists_of_nextAnd (by decide +kernel)⟩

end Sys2Proof.Tests
end

/-! SUPPORT. What a command can do, said once for all 36: how a body ends (a value, an error of the block, a fault that only a state
outside the invariant reaches), and which piece of state a body that succeeds has written. -/

namespace Sys2Proof.Machine

/-! ## How a body ends -/

/-- A body answers a value that satisfies `P`, or raises an error of the block, or faults, which it does only where `good` fails. -/
def Ends {α : Type} (good : Prop) (P : α → Prop) : Cmd α → Prop
  | .ok a => P a
  | .error (.raised _) => True
  | .error (.faulted _) => ¬good

section

variable {α β : Type} {good : Prop} {P : α → Prop} {Q : β → Prop}

theorem Ends.intro {x : Cmd α} (hok : ∀ a, x = .ok a → P a) (hfault : good → ∀ f, x ≠ .error (.faulted f)) :
    Ends good P x :=
  match x, hok, hfault with
  | .ok a, hok, _ => hok a rfl
  | .error (.raised _), _, _ => trivial
  | .error (.faulted f), _, hfault => fun hg => hfault hg f rfl

theorem Ends.of_eq_ok {x : Cmd α} {a : α} (h : Ends good P x) (hx : x = .ok a) : P a := by subst hx; exact h

theorem Ends.not_fault {x : Cmd α} (h : Ends good P x) (hg : good) (f : Fault) : x ≠ .error (.faulted f) := by
  rintro rfl; exact h hg

/-- What a body is known to end with may be said of the very value it answers. -/
theorem Ends.with_eq {x : Cmd α} (h : Ends good P x) : Ends good (fun a => x = .ok a) x :=
  .intro (fun _ hx => hx) h.not_fault

theorem Ends.bind {x : Cmd α} {f : α → Cmd β} (hx : Ends good P x) (hf : ∀ a, P a → Ends good Q (f a)) :
    Ends good Q (x >>= f) :=
  match x, hx with
  | .ok a, hx => hf a hx
  | .error (.raised _), _ => trivial
  | .error (.faulted _), hx => hx

theorem Ends.mono {P' : α → Prop} {x : Cmd α} (h : Ends good P x) (hp : ∀ a, P a → P' a) : Ends good P' x :=
  .intro (fun a hx => hp a (h.of_eq_ok hx)) h.not_fault

theorem Ends.pure {a : α} (h : P a) : Ends good P (Pure.pure a : Cmd α) := h

theorem ends_require (b : Bool) (e : Err) : Ends good (fun _ => b = true) (require b e) := by
  cases b
  · exact trivial
  · exact rfl

theorem ends_lift (x : Except Err α) : Ends good (fun a => x = .ok a) (lift x) := by
  cases x
  · exact trivial
  · exact rfl

/-! ## The checks and the byte spaces -/

theorem ends_slotOperand (a : Byte) : Ends good (fun i => i < 40) (slotOperand a) :=
  .bind (ends_require _ _) fun _ h => .pure (by simpa using h)

theorem ends_offsetOperand (a : Byte) : Ends good (fun o => o < 102) (offsetOperand a) :=
  .bind (ends_require _ _) fun _ h => .pure (by simpa using h)

theorem ends_instanceOperand (g : Kind) (b : Half) : Ends good (fun k => k < g.count) (instanceOperand g b) :=
  .bind (ends_require _ _) fun _ h => .pure (by simpa using h)

theorem ends_indexOperand (b : Half) (len : Nat) : Ends good (fun i => i < len) (indexOperand b len) :=
  .bind (ends_require _ _) fun _ h => .pure (by simpa using h)

theorem ends_lengthOperand (b : Half) (len : Nat) : Ends good (fun n => n ≤ len) (lengthOperand b len) :=
  .bind (ends_require _ _) fun _ h => .pure (by simpa using h)

theorem ends_fieldOperand (c : Config) (f : Byte) :
    Ends good (fun r => c.field? (zext f) = some r) (fieldOperand c f) :=
  .intro (fun _ h => fieldOperand_eq_ok.1 h) fun _ _ h => nomatch (fieldOperand_eq_error.1 h).2

theorem ends_memRead {s : State} {sp : Space} {a n : Nat} (h : good → a + n ≤ sp.size) :
    Ends good (fun bs => a + n ≤ sp.size ∧ bs = (s.space sp).readRun a n) (memRead s sp a n) :=
  .intro (fun _ hx => memRead_eq_ok.1 hx) fun hg _ hx => (memRead_eq_error.1 hx).1 (h hg)

theorem ends_memReadByte {s : State} {sp : Space} {a : Nat} (h : good → a < sp.size) :
    Ends good (fun b => a < sp.size ∧ b = (s.space sp).read a) (memReadByte s sp a) :=
  .intro (fun _ hx => memReadByte_eq_ok.1 hx) fun hg _ hx => (memReadByte_eq_error.1 hx).1 (h hg)

theorem ends_memWrite {s : State} {sp : Space} {a : Nat} {bs : List Byte} (h : good → a + bs.length ≤ sp.size) :
    Ends good (fun t => a + bs.length ≤ sp.size ∧ t = s.setSpace sp ((s.space sp).writeRun a bs)) (memWrite s sp a bs) :=
  .intro (fun _ hx => memWrite_eq_ok.1 hx) fun hg _ hx => (memWrite_eq_error.1 hx).1 (h hg)

end

/-! ## The parse of a frame

DECODE takes only bytes below `IN_LEN`, so with `IN_LEN` inside IN the parse never faults. -/

theorem ends_take {s : State} {good : Prop} (h : good → zext s.inLen ≤ inMax) (c : Nat) :
    Ends good (fun _ => True) (take s c) :=
  .bind (ends_require _ _) fun _ hc =>
    .bind (ends_memReadByte fun hg => Nat.lt_of_lt_of_le (of_decide_eq_true hc) (h hg)) fun _ _ => .pure trivial

theorem ends_takeHeader {s : State} {good : Prop} (h : good → zext s.inLen ≤ inMax) (hs : List Byte) (c : Nat) :
    Ends good (fun _ => True) (takeHeader s hs c) := by
  induction hs generalizing c with
  | nil => exact trivial
  | cons b bs ih => exact .bind (ends_take h c) fun _ _ => .bind (ends_require _ _) fun _ _ => ih _

theorem ends_takePairs {s : State} {good : Prop} (h : good → zext s.inLen ≤ inMax) (m c : Nat) :
    Ends good (fun _ => True) (takePairs s m c) := by
  induction m generalizing c with
  | zero => exact trivial
  | succ m ih =>
    exact .bind (ends_take h c) fun _ _ => .bind (ends_take h _) fun _ _ => .bind (ends_lift _) fun _ _ =>
      .bind (ih _) fun _ _ => .pure trivial

theorem ends_takePatches {s : State} {good : Prop} (h : good → zext s.inLen ≤ inMax) (m i c : Nat) :
    Ends good (fun _ => True) (takePatches s m i c) := by
  induction m generalizing i c with
  | zero => exact trivial
  | succ m ih =>
    exact .bind (ends_takePairs h _ c) fun _ _ => .bind (ends_lift _) fun _ _ => .bind (ih _ _) fun _ _ => .pure trivial

theorem ends_patchCount (good : Prop) (dt : Byte) : Ends good (fun _ => True) (patchCount dt) := by
  unfold patchCount
  split
  · exact trivial
  · split <;> exact trivial

theorem ends_checkTrailing (good : Prop) (s : State) (c : Nat) : Ends good (fun _ => True) (checkTrailing s c) := by
  unfold checkTrailing
  split
  · exact trivial
  · exact (ends_require _ _).mono fun _ _ => trivial

theorem ends_parseFrame {s : State} {good : Prop} (h : good → zext s.inLen ≤ inMax) :
    Ends good (fun r => parseFrame s = .ok r) (parseFrame s) :=
  Ends.with_eq <| .bind (Q := fun _ => True) (ends_takeHeader h _ _) fun _ _ => .bind (ends_take h _) fun _ _ =>
    .bind (ends_take h _) fun _ _ => .bind (ends_patchCount _ _) fun _ _ => .bind (ends_takePatches h _ _ _) fun _ _ =>
    .bind (ends_take h _) fun _ _ => .bind (ends_require _ _) fun _ _ => .bind (ends_checkTrailing _ _ _) fun _ _ =>
    .pure trivial

/-- The patches of a parsed frame are in range, and its dump type says how many there are (R60, R162). -/
theorem parseFrame_patches {s : State} {ch dt : Byte} {ps : List Patch} (h : parseFrame s = .ok (ch, dt, ps)) :
    (∀ p ∈ ps, p.ok s.cfg = true) ∧ ((dt = 0x01 ∧ ps.length = 1) ∨ (dt = 0x02 ∧ ps.length = 40)) := by
  obtain ⟨n, -, -, -, hn, -, -, -, -, hdt, hlen, hps⟩ := parseFrame_eq_ok h
  dsimp only at hdt hlen hps
  constructor
  · intro p hp
    obtain ⟨k, hk, rfl⟩ := List.getElem_of_mem hp
    exact deserialize_ok (hps k hk).2
  · rw [hdt, hlen]; exact hn

/-! ## The frame that is built -/

theorem framePatch_ok {s : State} (hc : s.cfg.wf = true) (hs : s.StoreOk) (n : Nat) {i : Nat} (hi : i < 40) :
    (framePatch s n i).ok s.cfg = true := by
  unfold framePatch
  split
  · exact storeOk_slot hs hi
  · exact defaultPatch_ok hc

/-- From a store in range the frame of R155 is always built: 210 bytes for one patch, 8166 for a bank. -/
theorem frame_ok {s : State} (hc : s.cfg.wf = true) (hs : s.StoreOk) (ch : Byte) (n : Nat) :
    ∃ f, frame s ch n = .ok f ∧ (f.length = 210 ∨ f.length = 8166) := by
  have hm : (dumpFor n).2 = 1 ∨ (dumpFor n).2 = 40 := by
    unfold dumpFor
    split
    · exact .inl rfl
    · exact .inr rfl
  have hrun : ∀ k < (dumpFor n).2, ∃ r, serialize s.cfg (framePatch s n k) = .ok r ∧ r.length = 102 := fun k hk => by
    obtain ⟨f, -, -, h1, h2⟩ := serialize_ok hc (framePatch_ok hc hs n (i := k) (by omega))
    exact ⟨_, h1, h2⟩
  choose! r hr hl using hrun
  have hp := payload_of_ok (s := s) (n := n) (m := (dumpFor n).2) (i := 0) fun k _ hk => hr k (by omega)
  simp only [Nat.zero_add] at hp
  refine ⟨_, by rw [frame, hp]; rfl, ?_⟩
  simp only [List.length_append, length_payload hl, header, List.length_cons, List.length_nil]
  omega

/-! ## What a body that succeeds has written -/

/-- The piece of state a command writes besides STATUS (the write sets of R23 and R25 to R28). -/
inductive Target
  | nothing | reset | res | slot | lb | inByte | inLen | inBytes | out | frame

/-- The piece of state a command's rule lets it write. -/
def targetOf : Instr → Target
  | .nop => .nothing
  | .srst => .reset
  | .d2w _ | .w2d _ | .nibx _ | .nibc _ _ | .getf _ _ | .getname _ _ | .getnlen _ | .getb _ | .getin _ | .getout _ => .res
  | .setf _ _ _ | .lddef _ | .nameclr _ | .nameadd _ _ => .slot
  | .unpackName _ | .unpackEnv _ _ | .unpackLfo _ _ | .unpackOsc _ _ | .unpackMisc _ | .unpackPatch _ => .slot
  | .setb _ _ | .packName _ | .packEnv _ _ | .packLfo _ _ | .packOsc _ _ | .packMisc _ | .packPatch _ => .lb
  | .pokein _ _ => .inByte
  | .trimin _ | .clrin => .inLen
  | .putin _ | .xfer => .inBytes
  | .encode _ _ => .out
  | .decode => .frame

/-- The state a body that succeeds leaves, with what is known of the values it wrote. -/
inductive Effect (s : State) : Target → State → Prop
  | nothing : Effect s .nothing s
  | reset : Effect s .reset s.softReset
  | res (v : Half) : Effect s .res (s.setRes v)
  | slot (i : Nat) (p : Patch) (hp : s.Inv → p.ok s.cfg = true) : Effect s .slot (s.setSlot i p)
  | lb (a : Nat) (bs : List Byte) (h : a + bs.length ≤ patchLen) : Effect s .lb (s.setSpace .lb (s.lb.writeRun a bs))
  | inByte (a : Nat) (bs : List Byte) (h : a + bs.length ≤ inMax) :
      Effect s .inByte (s.setSpace .inp (s.inb.writeRun a bs))
  | inLen (n : Nat) (h : n ≤ zext s.inLen) : Effect s .inLen (s.setInLen n)
  | inBytes (a : Nat) (bs : List Byte) (h : a + bs.length ≤ inMax) :
      Effect s .inBytes ((s.setSpace .inp (s.inb.writeRun a bs)).setInLen (a + bs.length))
  | out (bs : List Byte) (h : bs.length ≤ outMax) (hl : s.Inv → bs.length = 210 ∨ bs.length = 8166) :
      Effect s .out ((s.setSpace .out (s.outb.writeRun 0 bs)).setOutLen bs.length)
  | frame (ch dt : Byte) (ps : List Patch) (hps : ∀ p ∈ ps, p.ok s.cfg = true)
      (hdt : (dt = 0x01 ∧ ps.length = 1) ∨ (dt = 0x02 ∧ ps.length = 40)) :
      Effect s .frame ((s.setSlots 0 ps).setFrame ch dt ps.length)

/-- A command answers a next state, completed from what its body left or with an error's STATUS, and faults only outside the
invariant. -/
def Answers (s : State) (P : State → Prop) : Host.Outcome State Fault Refusal → Prop
  | .next t => (∃ u, P u ∧ t = u.statusOk) ∨ ∃ e, t = s.statusErr e
  | .fault _ => ¬s.Inv
  | .refused _ => False

theorem complete_answers {s : State} {P : State → Prop} {c : Cmd State} (h : Ends s.Inv P c) : Answers s P (complete s c) :=
  match c, h with
  | .ok u, h => .inl ⟨u, h, rfl⟩
  | .error (.raised e), _ => .inr ⟨e, rfl⟩
  | .error (.faulted _), h => h

/-! ## The invariant's parts that a body relies on -/

theorem State.Inv.cfg_wf {s : State} (h : s.Inv) : s.cfg.wf = true := h.1
theorem State.Inv.storeOk {s : State} (h : s.Inv) : s.StoreOk := h.2.1

theorem State.Inv.inLen_le {s : State} (h : s.Inv) : zext s.inLen ≤ inMax := by
  obtain ⟨-, -, ⟨-, -, -, h, -⟩, -⟩ := h
  exact h

theorem State.Inv.outLen_le {s : State} (h : s.Inv) : zext s.outLen ≤ outMax := by
  obtain ⟨-, -, ⟨-, -, -, -, h⟩, -⟩ := h
  rcases h with h | h | h <;> rw [h] <;> decide

theorem State.Inv.slot_ok {s : State} (h : s.Inv) {i : Nat} (hi : i < 40) : (s.slot i).ok s.cfg = true :=
  storeOk_slot h.storeOk hi

/-- The run of every group lies inside LB (R50). -/
theorem groupRun_inside (g : Kind) {k : Nat} (hk : k < g.count) : g.base k + g.runLen ≤ patchLen := by
  cases g <;> simp only [Kind.count] at hk <;> simp only [Kind.base, Kind.runLen, patchLen] <;> omega

/-! ## Each command -/

section

variable {s : State}

/-- A write to LB ends a body with the effect on LB. -/
theorem ends_lbWrite {a : Nat} {bs : List Byte} (h : s.Inv → a + bs.length ≤ patchLen) :
    Ends s.Inv (Effect s .lb) (memWrite s .lb a bs) :=
  .intro (fun _ ht => by obtain ⟨hle, rfl⟩ := memWrite_eq_ok.1 ht; exact .lb a bs hle)
    fun hg => (ends_memWrite h).not_fault hg

theorem ends_packInto (g : Kind) {i k : Nat} (hi : i < 40) (hk : k < g.count) :
    Ends s.Inv (Effect s .lb) (packInto s g i k) :=
  .bind (ends_lift _) fun bs hbs => ends_lbWrite fun hg => by
    obtain ⟨bs', h1, h2⟩ := packGroup_ok (k := k) hg.cfg_wf ((Patch.ok_iff.1 (hg.slot_ok hi)).2 g k hk)
    obtain rfl : bs' = bs := Except.ok.inj (h1.symm.trans hbs)
    rw [h2]
    exact groupRun_inside g hk

theorem ends_unpackFrom (g : Kind) {i k : Nat} (hi : i < 40) (hk : k < g.count) :
    Ends s.Inv (Effect s .slot) (unpackFrom s g i k) :=
  .bind (ends_memRead fun _ => groupRun_inside g hk) fun _ _ => .bind (ends_lift _) fun _ hr =>
    .pure <| .slot _ _ fun hg => Patch.ok_setGroup (hg.slot_ok hi) hk (unpackFields_eq_ok (unpackGroup_eq_ok hr).1)

theorem execD2w_answers (a : Byte) : Answers s (Effect s .res) (execD2w a s) :=
  complete_answers <| .bind (ends_lift _) fun _ _ => .pure (.res _)

theorem execW2d_answers (a : Byte) : Answers s (Effect s .res) (execW2d a s) :=
  complete_answers <| .bind (ends_lift _) fun _ _ => .pure (.res _)

theorem execNibx_answers (a : Byte) : Answers s (Effect s .res) (execNibx a s) :=
  complete_answers <| .pure (.res _)

theorem execNibc_answers (a v : Byte) : Answers s (Effect s .res) (execNibc a v s) :=
  complete_answers <| .bind (ends_lift _) fun _ _ => .pure (.res _)

theorem execSetf_answers (a f v : Byte) : Answers s (Effect s .slot) (execSetf a f v s) :=
  complete_answers <| .bind (ends_slotOperand a) fun _ hi => .bind (ends_fieldOperand _ _) fun _ hr =>
    .bind (ends_lift _) fun _ hv => .pure <| .slot _ _ fun hg =>
      Patch.setField_ok hr (hg.slot_ok hi) (check_eq_ok.1 hv)

theorem execGetf_answers (a f : Byte) : Answers s (Effect s .res) (execGetf a f s) :=
  complete_answers <| .bind (ends_slotOperand a) fun _ _ => .bind (ends_fieldOperand _ _) fun _ _ => .pure (.res _)

theorem execLddef_answers (a : Byte) : Answers s (Effect s .slot) (execLddef a s) :=
  complete_answers <| .bind (ends_slotOperand a) fun _ _ => .pure <| .slot _ _ fun hg => defaultPatch_ok hg.cfg_wf

theorem execNameclr_answers (a : Byte) : Answers s (Effect s .slot) (execNameclr a s) :=
  complete_answers <| .bind (ends_slotOperand a) fun _ hi => .pure <| .slot _ _ fun hg =>
    Patch.ok_name (hg.slot_ok hi) (Nat.zero_le _)

/-- The name was not full, so with one byte more it still fits (R94). -/
theorem execNameadd_answers (a v : Byte) : Answers s (Effect s .slot) (execNameadd a v s) :=
  complete_answers <| .bind (ends_slotOperand a) fun i hi => .bind (ends_require _ _) fun _ hfull =>
    .pure <| .slot _ _ fun hg => Patch.ok_name (hg.slot_ok hi) <| by
      have hle := (Patch.ok_iff.1 (hg.slot_ok hi)).1
      have hne : (s.slot i).name.length ≠ nameMax := by simpa using hfull
      simp only [List.length_append, List.length_singleton]
      omega

theorem execGetname_answers (a : Byte) (b : Half) : Answers s (Effect s .res) (execGetname a b s) :=
  complete_answers <| .bind (ends_slotOperand a) fun _ _ => .bind (ends_indexOperand _ _) fun _ _ => .pure (.res _)

theorem execGetnlen_answers (a : Byte) : Answers s (Effect s .res) (execGetnlen a s) :=
  complete_answers <| .bind (ends_slotOperand a) fun _ _ => .pure (.res _)

theorem execSetb_answers (a v : Byte) : Answers s (Effect s .lb) (execSetb a v s) :=
  complete_answers <| .bind (ends_offsetOperand a) fun _ ho => ends_lbWrite fun _ => ho

theorem execGetb_answers (a : Byte) : Answers s (Effect s .res) (execGetb a s) :=
  complete_answers <| .bind (ends_offsetOperand a) fun _ ho => .bind (ends_memReadByte fun _ => ho) fun _ _ =>
    .pure (.res _)

theorem execPutin_answers (a : Byte) : Answers s (Effect s .inBytes) (execPutin a s) :=
  complete_answers <| .bind (ends_require _ _) fun _ hfull =>
    .bind (ends_memWrite fun hg => by
      have hle := hg.inLen_le
      have hne : zext s.inLen ≠ inMax := by simpa using hfull
      show zext s.inLen + 1 ≤ inMax
      omega) fun _ ht => .pure <| by
    obtain ⟨hle, rfl⟩ := ht
    exact .inBytes (zext s.inLen) [a] hle

theorem execPokein_answers (a : Byte) (b : Half) : Answers s (Effect s .inByte) (execPokein a b s) :=
  complete_answers <| .bind (ends_indexOperand _ _) fun i hi =>
    .intro (fun _ ht => by obtain ⟨hle, rfl⟩ := memWrite_eq_ok.1 ht; exact .inByte i [a] hle) fun hg =>
      (ends_memWrite (good := s.Inv) fun hg => Nat.le_trans hi hg.inLen_le).not_fault hg

theorem execTrimin_answers (b : Half) : Answers s (Effect s .inLen) (execTrimin b s) :=
  complete_answers <| .bind (ends_lengthOperand _ _) fun n hn => .pure (.inLen n hn)

theorem execClrin_answers : Answers s (Effect s .inLen) (execClrin s) :=
  complete_answers <| .pure (.inLen 0 (Nat.zero_le _))

theorem execGetin_answers (b : Half) : Answers s (Effect s .res) (execGetin b s) :=
  complete_answers <| .bind (ends_indexOperand _ _) fun _ hi =>
    .bind (ends_memReadByte fun hg => Nat.lt_of_lt_of_le hi hg.inLen_le) fun _ _ => .pure (.res _)

theorem execGetout_answers (b : Half) : Answers s (Effect s .res) (execGetout b s) :=
  complete_answers <| .bind (ends_indexOperand _ _) fun _ hi =>
    .bind (ends_memReadByte fun hg => Nat.lt_of_lt_of_le hi hg.outLen_le) fun _ _ => .pure (.res _)

/-- OUT is no longer than IN, so a frame that lies in OUT fits into IN (R105). -/
theorem execXfer_answers : Answers s (Effect s .inBytes) (execXfer s) :=
  complete_answers <| .bind (ends_memRead fun hg => (Nat.zero_add _).le.trans hg.outLen_le) fun bs hbs => by
    obtain ⟨hle, rfl⟩ := hbs
    refine .bind (ends_memWrite fun _ => ?_) fun t ht => .pure ?_
    · rw [Memory.length_readRun]
      exact hle.trans (by decide)
    · obtain ⟨hin, rfl⟩ := ht
      have h := Effect.inBytes (s := s) 0 _ hin
      rwa [Nat.zero_add, Memory.length_readRun] at h

theorem execPackName_answers (a : Byte) : Answers s (Effect s .lb) (execPackName a s) :=
  complete_answers <| .bind (ends_slotOperand a) fun _ _ => ends_lbWrite fun _ => by
    rw [length_norm]; decide

theorem execPackEnv_answers (a : Byte) (k : Half) : Answers s (Effect s .lb) (execPackEnv a k s) :=
  complete_answers <| .bind (ends_slotOperand a) fun _ hi => .bind (ends_instanceOperand _ _) fun _ hk =>
    ends_packInto .env hi hk

theorem execPackLfo_answers (a : Byte) (k : Half) : Answers s (Effect s .lb) (execPackLfo a k s) :=
  complete_answers <| .bind (ends_slotOperand a) fun _ hi => .bind (ends_instanceOperand _ _) fun _ hk =>
    ends_packInto .lfo hi hk

theorem execPackOsc_answers (a : Byte) (k : Half) : Answers s (Effect s .lb) (execPackOsc a k s) :=
  complete_answers <| .bind (ends_slotOperand a) fun _ hi => .bind (ends_instanceOperand _ _) fun _ hk =>
    ends_packInto .osc hi hk

theorem execPackMisc_answers (a : Byte) : Answers s (Effect s .lb) (execPackMisc a s) :=
  complete_answers <| .bind (ends_slotOperand a) fun _ hi => ends_packInto .misc hi Nat.zero_lt_one

theorem execPackPatch_answers (a : Byte) : Answers s (Effect s .lb) (execPackPatch a s) :=
  complete_answers <| .bind (ends_slotOperand a) fun _ hi => .bind (ends_lift _) fun bs hbs => ends_lbWrite fun hg => by
    obtain ⟨f, -, -, h1, h2⟩ := serialize_ok hg.cfg_wf (hg.slot_ok hi)
    obtain rfl := Except.ok.inj (h1.symm.trans hbs)
    rw [h2]

theorem execUnpackName_answers (a : Byte) : Answers s (Effect s .slot) (execUnpackName a s) :=
  complete_answers <| .bind (ends_slotOperand a) fun _ hi => .bind (ends_memRead fun _ => by decide) fun _ hbs =>
    .pure <| .slot _ _ fun hg => Patch.ok_name (hg.slot_ok hi) (by rw [hbs.2, Memory.length_readRun]; decide)

theorem execUnpackEnv_answers (a : Byte) (k : Half) : Answers s (Effect s .slot) (execUnpackEnv a k s) :=
  complete_answers <| .bind (ends_slotOperand a) fun _ hi => .bind (ends_instanceOperand _ _) fun _ hk =>
    ends_unpackFrom .env hi hk

theorem execUnpackLfo_answers (a : Byte) (k : Half) : Answers s (Effect s .slot) (execUnpackLfo a k s) :=
  complete_answers <| .bind (ends_slotOperand a) fun _ hi => .bind (ends_instanceOperand _ _) fun _ hk =>
    ends_unpackFrom .lfo hi hk

theorem execUnpackOsc_answers (a : Byte) (k : Half) : Answers s (Effect s .slot) (execUnpackOsc a k s) :=
  complete_answers <| .bind (ends_slotOperand a) fun _ hi => .bind (ends_instanceOperand _ _) fun _ hk =>
    ends_unpackFrom .osc hi hk

theorem execUnpackMisc_answers (a : Byte) : Answers s (Effect s .slot) (execUnpackMisc a s) :=
  complete_answers <| .bind (ends_slotOperand a) fun _ hi => ends_unpackFrom .misc hi Nat.zero_lt_one

theorem execUnpackPatch_answers (a : Byte) : Answers s (Effect s .slot) (execUnpackPatch a s) :=
  complete_answers <| .bind (ends_slotOperand a) fun _ _ => .bind (ends_memRead fun _ => Nat.le_refl _) fun _ _ =>
    .bind (ends_lift _) fun _ hp => .pure <| .slot _ _ fun _ => deserialize_ok hp

theorem execEncode_answers (a : Byte) (b : Half) : Answers s (Effect s .out) (execEncode a b s) :=
  complete_answers <| .bind (ends_require _ _) fun _ _ => .bind (ends_lift _) fun f hf => by
    have hlen : s.Inv → f.length = 210 ∨ f.length = 8166 := fun hg => by
      obtain ⟨f', h1, h2⟩ := frame_ok hg.cfg_wf hg.storeOk a (zext b)
      obtain rfl := Except.ok.inj (h1.symm.trans hf)
      exact h2
    refine .bind (ends_memWrite fun hg => ?_) fun t ht => .pure ?_
    · rcases hlen hg with h | h <;> rw [h] <;> decide
    · obtain ⟨hle, rfl⟩ := ht
      rw [Nat.zero_add] at hle
      exact .out f hle hlen

theorem execDecode_answers : Answers s (Effect s .frame) (execDecode s) :=
  complete_answers <| .bind (ends_parseFrame fun hg => hg.inLen_le) fun (ch, dt, ps) hr =>
    .pure <| .frame ch dt ps (parseFrame_patches hr).1 (parseFrame_patches hr).2

/-- What every command can do: it writes the piece of state that is its own, or reports an error, and faults only outside the
invariant. -/
theorem exec_answers (i : Instr) (s : State) : Answers s (Effect s (targetOf i)) (exec i s) := by
  cases i with
  | nop => exact complete_answers (.pure .nothing)
  | srst => exact complete_answers (.pure .reset)
  | d2w a => exact execD2w_answers a
  | w2d a => exact execW2d_answers a
  | nibx a => exact execNibx_answers a
  | nibc a v => exact execNibc_answers a v
  | setf a f v => exact execSetf_answers a f v
  | getf a f => exact execGetf_answers a f
  | lddef a => exact execLddef_answers a
  | nameclr a => exact execNameclr_answers a
  | nameadd a v => exact execNameadd_answers a v
  | getname a b => exact execGetname_answers a b
  | getnlen a => exact execGetnlen_answers a
  | setb a v => exact execSetb_answers a v
  | getb a => exact execGetb_answers a
  | putin a => exact execPutin_answers a
  | pokein a b => exact execPokein_answers a b
  | trimin b => exact execTrimin_answers b
  | clrin => exact execClrin_answers
  | getin b => exact execGetin_answers b
  | getout b => exact execGetout_answers b
  | xfer => exact execXfer_answers
  | packName a => exact execPackName_answers a
  | packEnv a k => exact execPackEnv_answers a k
  | packLfo a k => exact execPackLfo_answers a k
  | packOsc a k => exact execPackOsc_answers a k
  | packMisc a => exact execPackMisc_answers a
  | packPatch a => exact execPackPatch_answers a
  | unpackName a => exact execUnpackName_answers a
  | unpackEnv a k => exact execUnpackEnv_answers a k
  | unpackLfo a k => exact execUnpackLfo_answers a k
  | unpackOsc a k => exact execUnpackOsc_answers a k
  | unpackMisc a => exact execUnpackMisc_answers a
  | unpackPatch a => exact execUnpackPatch_answers a
  | encode a b => exact execEncode_answers a b
  | decode => exact execDecode_answers

end

/-- The two ways a command answers a next state. -/
theorem exec_eq_next {i : Instr} {s t : State} (h : exec i s = .next t) :
    (∃ u, Effect s (targetOf i) u ∧ t = u.statusOk) ∨ ∃ e, t = s.statusErr e := by
  have ha := exec_answers i s
  rwa [h] at ha

/-- From a state that meets the invariant every command answers a next state (R13). -/
theorem exec_isNext {i : Instr} {s : State} (hs : s.Inv) : ∃ t, exec i s = .next t := by
  have ha := exec_answers i s
  cases h : exec i s with
  | next t => exact ⟨t, rfl⟩
  | fault f => rw [h] at ha; exact absurd hs ha
  | refused r => rw [h] at ha; exact ha.elim

end Sys2Proof.Machine

/-! SUPPORT. The invariant of the block: it holds after reset, every piece a command may write keeps it, so every step keeps it, and
from it every step answers. -/

namespace Sys2Proof.Machine

/-! ## The invariant apart from STATUS -/

/-- The invariant without its clause on STATUS, which `complete` writes after the body has ended. -/
abbrev State.InvBody (s : State) : Prop := s.cfg.wf = true ∧ s.StoreOk ∧ s.SpacesOk ∧ s.FrameOk

theorem State.Inv.body {s : State} (h : s.Inv) : s.InvBody := by
  obtain ⟨hc, hstore, hspaces, -, hframe⟩ := h
  exact ⟨hc, hstore, hspaces, hframe⟩

/-- A success leaves STATUS at zero (R175). -/
theorem State.InvBody.statusOk {s : State} (h : s.InvBody) : s.statusOk.Inv := by
  obtain ⟨hc, hstore, hspaces, hframe⟩ := h
  exact ⟨hc, hstore, hspaces, ⟨(by decide : errNone ≠ 7), fun _ => ⟨rfl, rfl⟩, fun h => absurd rfl h⟩, hframe⟩

/-- An error leaves a code of R171 and STICKY set (R175). -/
theorem State.InvBody.statusErr {s : State} (h : s.InvBody) (e : Err) : (s.statusErr e).Inv := by
  obtain ⟨hc, hstore, hspaces, hframe⟩ := h
  exact ⟨hc, hstore, hspaces,
    ⟨errKind_code_ne_seven _, fun h => absurd h (errKind_code_ne_zero _), fun _ => rfl⟩, hframe⟩

theorem State.Inv.popWrite {s : State} (h : s.Inv) : s.popWrite.Inv := h

/-! ## Reset -/

theorem storeOk_replicate_default {s : State} (hc : s.cfg.wf = true)
    (h : s.pstore = Vector.replicate 40 (defaultPatch s.cfg)) : s.StoreOk := by
  intro i
  rw [h, Fin.getElem_fin, Vector.getElem_replicate]
  exact defaultPatch_ok hc

theorem powerOn_inv {c : Config} (hc : c.wf = true) : (State.powerOn c).Inv :=
  ⟨hc, storeOk_replicate_default hc rfl, ⟨rfl, rfl, rfl, Nat.zero_le _, .inl rfl⟩,
    ⟨(by decide : (0 : BitVec 3) ≠ 7), fun _ => ⟨rfl, rfl⟩, fun h => absurd rfl h⟩, .inl ⟨rfl, rfl, rfl⟩⟩

/-! ## The writes a body makes -/

theorem storeOk_setSlots {s : State} (hs : s.StoreOk) {ps : List Patch} (hps : ∀ p ∈ ps, p.ok s.cfg = true) (i : Nat) :
    (s.setSlots i ps).StoreOk := by
  induction ps generalizing s i with
  | nil => exact hs
  | cons p ps ih =>
    exact ih (storeOk_setSlot hs (hps p List.mem_cons_self)) (fun q hq => hps q (List.mem_cons_of_mem p hq)) (i + 1)

theorem zext_ofNat_le {n m : Nat} (h : n ≤ m) : zext (BitVec.ofNat 16 n) ≤ m :=
  (BitVec.toNat_ofNat n 16 ▸ Nat.mod_le n (2 ^ 16)).trans h

/-- Whatever piece of state a body writes, it keeps the invariant apart from STATUS. -/
theorem Effect.invBody {s u : State} {g : Target} (hs : s.Inv) (h : Effect s g u) : u.InvBody := by
  have hbody := hs.body
  obtain ⟨hc, hstore, ⟨hin, hout, hlb, hil, hol⟩, hframe⟩ := hbody
  cases h with
  | nothing => exact hs.body
  | reset =>
    exact ⟨hc, storeOk_replicate_default hc rfl, ⟨hin, hout, rfl, Nat.zero_le _, .inl rfl⟩, .inl ⟨rfl, rfl, rfl⟩⟩
  | res v => exact hs.body
  | slot i p hp => exact ⟨hc, storeOk_setSlot hstore (hp hs), ⟨hin, hout, hlb, hil, hol⟩, hframe⟩
  | lb a bs hle => exact ⟨hc, hstore, ⟨hin, hout, Memory.wf_writeRun hlb a bs hle, hil, hol⟩, hframe⟩
  | inByte a bs hle => exact ⟨hc, hstore, ⟨Memory.wf_writeRun hin a bs hle, hout, hlb, hil, hol⟩, hframe⟩
  | inLen n hn => exact ⟨hc, hstore, ⟨hin, hout, hlb, zext_ofNat_le (hn.trans hil), hol⟩, hframe⟩
  | inBytes a bs hle =>
    exact ⟨hc, hstore, ⟨Memory.wf_writeRun hin a bs hle, hout, hlb, zext_ofNat_le hle, hol⟩, hframe⟩
  | out bs hle hlen =>
    have hl : BitVec.ofNat 16 bs.length = 210#16 ∨ BitVec.ofNat 16 bs.length = 8166#16 :=
      (hlen hs).imp (fun h => by rw [h]) fun h => by rw [h]
    exact ⟨hc, hstore, ⟨hin, Memory.wf_writeRun hout 0 bs (by rwa [Nat.zero_add]), hlb, hil, .inr hl⟩, hframe⟩
  | frame ch dt ps hps hdt =>
    have hspaces : (s.setSlots 0 ps).SpacesOk := by
      simp only [State.SpacesOk, State.setSlots_inb, State.setSlots_outb, State.setSlots_lb, State.setSlots_inLen,
        State.setSlots_outLen]
      exact ⟨hin, hout, hlb, hil, hol⟩
    have hcount : (dt = 0x01 ∧ BitVec.ofNat 8 ps.length = 1) ∨ (dt = 0x02 ∧ BitVec.ofNat 8 ps.length = 40) :=
      hdt.imp (fun h => ⟨h.1, by rw [h.2]; rfl⟩) fun h => ⟨h.1, by rw [h.2]; rfl⟩
    exact ⟨by rw [State.setFrame_cfg, State.setSlots_cfg]; exact hc, storeOk_setSlots hstore hps 0, hspaces, .inr hcount⟩

/-! ## Steps -/

/-- A command keeps the invariant. -/
theorem exec_keeps_inv {i : Instr} {s t : State} (hs : s.Inv) (h : exec i s = .next t) : t.Inv := by
  rcases exec_eq_next h with ⟨u, hu, rfl⟩ | ⟨e, rfl⟩
  · exact (hu.invBody hs).statusOk
  · exact hs.body.statusErr e

/-- A word written to CMD keeps the invariant, be it a command or not. -/
theorem runWord_keeps_inv {w : Word} {s t : State} (hs : s.Inv) (h : runWord w s = .next t) : t.Inv := by
  cases hw : decode w with
  | ok i => exact exec_keeps_inv hs (runWord_of_ok hw s ▸ h)
  | error e =>
    obtain ⟨k, opc, he, -⟩ := illegal_eq e s
    rw [runWord_of_error hw, he] at h
    cases h
    exact hs.body.statusErr _

theorem runWord_isNext {s : State} (hs : s.Inv) (w : Word) : ∃ t, runWord w s = .next t := by
  cases hw : decode w with
  | ok i => rw [runWord_of_ok hw]; exact exec_isNext hs
  | error e =>
    obtain ⟨k, opc, he, -⟩ := illegal_eq e s
    exact ⟨_, (runWord_of_error hw s).trans he⟩

/-- Settles O58: idle, an ignored port write and a word at CMD each keep the invariant. -/
theorem stepKeepsInv : Obligations.StepKeepsInv := by
  intro s t hs h
  rcases step_cases hs.cfg_wf with ⟨-, he⟩ | ⟨p, rest, -, -, he⟩ | ⟨p, rest, -, -, he⟩ <;> rw [he] at h
  · cases h; exact hs
  · cases h; exact hs.popWrite
  · exact runWord_keeps_inv hs.popWrite h

/-- Settles O59: in an admitted configuration a step can stop only inside a command, and no command stops here. -/
theorem invStepAnswers : Obligations.InvStepAnswers := by
  intro s hs
  unfold State.Safe
  rcases step_cases hs.cfg_wf with ⟨-, he⟩ | ⟨p, rest, -, -, he⟩ | ⟨p, rest, -, -, he⟩ <;> rw [he]
  · exact ⟨_, rfl⟩
  · exact ⟨_, rfl⟩
  · exact runWord_isNext hs.popWrite p.word

/-- Settles O57: power-on under an admitted configuration meets the invariant, and that of R7 is admitted. -/
theorem resetInv : Obligations.ResetInv := powerOn_inv (by decide)

end Sys2Proof.Machine

/-! SUPPORT. Write sets: which piece of state each command's body leaves different, read off the effect of its target. -/

namespace Sys2Proof.Machine

section

variable {s u : State} {g : Target}

theorem Effect.cfg_eq (h : Effect s g u) : u.cfg = s.cfg := by
  cases h with
  | frame => exact State.setSlots_cfg _ _ _
  | _ => rfl

theorem Effect.hostq_eq (h : Effect s g u) : u.hostq = s.hostq := by
  cases h with
  | frame => exact State.setSlots_hostq _ _ _
  | _ => rfl

theorem Effect.res_eq (h : Effect s g u) (h0 : g ≠ .reset) (hg : g ≠ .res) : u.res = s.res := by
  cases h with
  | reset => exact absurd rfl h0
  | res => exact absurd rfl hg
  | frame => exact State.setSlots_res _ _ _
  | _ => rfl

theorem Effect.pstore_eq (h : Effect s g u) (h0 : g ≠ .reset) (hg : g ≠ .slot) (hg' : g ≠ .frame) :
    u.pstore = s.pstore := by
  cases h with
  | reset => exact absurd rfl h0
  | slot => exact absurd rfl hg
  | frame => exact absurd rfl hg'
  | _ => rfl

theorem Effect.lb_eq (h : Effect s g u) (h0 : g ≠ .reset) (hg : g ≠ .lb) : u.lb = s.lb := by
  cases h with
  | reset => exact absurd rfl h0
  | lb => exact absurd rfl hg
  | frame => exact State.setSlots_lb _ _ _
  | _ => rfl

theorem Effect.inb_eq (h : Effect s g u) (hg : g ≠ .inByte) (hg' : g ≠ .inBytes) : u.inb = s.inb := by
  cases h with
  | inByte => exact absurd rfl hg
  | inBytes => exact absurd rfl hg'
  | frame => exact State.setSlots_inb _ _ _
  | _ => rfl

theorem Effect.inLen_eq (h : Effect s g u) (h0 : g ≠ .reset) (hg : g ≠ .inLen) (hg' : g ≠ .inBytes) :
    u.inLen = s.inLen := by
  cases h with
  | reset => exact absurd rfl h0
  | inLen => exact absurd rfl hg
  | inBytes => exact absurd rfl hg'
  | frame => exact State.setSlots_inLen _ _ _
  | _ => rfl

theorem Effect.out_eq (h : Effect s g u) (h0 : g ≠ .reset) (hg : g ≠ .out) : u.outb = s.outb ∧ u.outLen = s.outLen := by
  cases h with
  | reset => exact absurd rfl h0
  | out => exact absurd rfl hg
  | frame => exact ⟨State.setSlots_outb _ _ _, State.setSlots_outLen _ _ _⟩
  | _ => exact ⟨rfl, rfl⟩

theorem Effect.frame_eq (h : Effect s g u) (h0 : g ≠ .reset) (hg : g ≠ .frame) :
    u.chan = s.chan ∧ u.dtype = s.dtype ∧ u.pcount = s.pcount := by
  cases h with
  | reset => exact absurd rfl h0
  | frame => exact absurd rfl hg
  | _ => exact ⟨rfl, rfl, rfl⟩

end

theorem targetOf_ne_reset {i : Instr} (h : i ≠ .srst) : targetOf i ≠ .reset := by
  cases i <;> simp_all [targetOf]

/-! ## The commands of each target, in the words of the statement -/

theorem of_targetOf_res {i : Instr} (h : targetOf i = .res) :
    (∃ a, i = .d2w a ∨ i = .w2d a ∨ i = .nibx a ∨ i = .getnlen a ∨ i = .getb a) ∨
      (∃ a v, i = .nibc a v ∨ i = .getf a v) ∨ (∃ a b, i = .getname a b) ∨ ∃ b, i = .getin b ∨ i = .getout b := by
  cases i <;> simp [targetOf] at h ⊢

theorem of_targetOf_slot {i : Instr} (h : targetOf i = .slot) :
    (∃ a, i = .lddef a ∨ i = .nameclr a ∨ i = .unpackName a ∨ i = .unpackMisc a ∨ i = .unpackPatch a) ∨
      (∃ a f v, i = .setf a f v) ∨ (∃ a v, i = .nameadd a v) ∨
      ∃ a k, i = .unpackEnv a k ∨ i = .unpackLfo a k ∨ i = .unpackOsc a k := by
  cases i <;> simp [targetOf] at h ⊢

theorem of_targetOf_lb {i : Instr} (h : targetOf i = .lb) :
    (∃ a v, i = .setb a v) ∨ (∃ a, i = .packName a ∨ i = .packMisc a ∨ i = .packPatch a) ∨
      ∃ a k, i = .packEnv a k ∨ i = .packLfo a k ∨ i = .packOsc a k := by
  cases i <;> simp [targetOf] at h ⊢

theorem of_targetOf_inByte {i : Instr} (h : targetOf i = .inByte) : ∃ a b, i = .pokein a b := by
  cases i <;> simp [targetOf] at h ⊢

theorem of_targetOf_inLen {i : Instr} (h : targetOf i = .inLen) : i = .clrin ∨ ∃ b, i = .trimin b := by
  cases i <;> simp [targetOf] at h ⊢

theorem of_targetOf_inBytes {i : Instr} (h : targetOf i = .inBytes) : i = .xfer ∨ ∃ a, i = .putin a := by
  cases i <;> simp [targetOf] at h ⊢

theorem of_targetOf_out {i : Instr} (h : targetOf i = .out) : ∃ a b, i = .encode a b := by
  cases i <;> simp [targetOf] at h ⊢

theorem of_targetOf_frame {i : Instr} (h : targetOf i = .frame) : i = .decode := by
  cases i <;> simp [targetOf] at h ⊢

/-- Settles O60: a piece of state that differs was in the command's target, and STATUS aside an error changes nothing. -/
theorem writeSets : Obligations.WriteSets := by
  intro i s t h
  rcases exec_eq_next h with ⟨u, hu, rfl⟩ | ⟨e, rfl⟩
  · refine ⟨hu.cfg_eq, hu.hostq_eq, fun hi => ?_⟩
    have h0 := targetOf_ne_reset hi
    refine ⟨fun hne => ?_, fun hne => ?_, fun hne => ?_, fun hne => ?_, fun hne => ?_, fun hne => ?_, fun hne => ?_⟩
    · exact of_targetOf_res (by_contra fun hg => hne (hu.res_eq h0 hg))
    · by_cases hg : targetOf i = .frame
      · exact .inl (of_targetOf_frame hg)
      · exact .inr (of_targetOf_slot (by_contra fun hg' => hne (hu.pstore_eq h0 hg' hg)))
    · exact of_targetOf_lb (by_contra fun hg => hne (hu.lb_eq h0 hg))
    · by_cases hg : targetOf i = .inByte
      · exact .inr (.inr (of_targetOf_inByte hg))
      · exact (of_targetOf_inBytes (by_contra fun hg' => hne (hu.inb_eq hg hg'))).imp_right .inl
    · by_cases hg : targetOf i = .inLen
      · exact .inr ((of_targetOf_inLen hg).imp_right .inr)
      · exact (of_targetOf_inBytes (by_contra fun hg' => hne (hu.inLen_eq h0 hg hg'))).imp_right fun ha => .inr (.inl ha)
    · refine of_targetOf_out (by_contra fun hg => ?_)
      obtain ⟨hb, hl⟩ := hu.out_eq h0 hg
      exact hne.elim (· hb) (· hl)
    · refine ⟨of_targetOf_frame (by_contra fun hg => ?_), rfl⟩
      obtain ⟨hc, hd, hp⟩ := hu.frame_eq h0 hg
      rcases hne with hne | hne | hne
      · exact hne hc
      · exact hne hd
      · exact hne hp
  · exact ⟨rfl, rfl, fun _ => by simp⟩

end Sys2Proof.Machine

/-! SUPPORT. Bytes of IN from `IN_LEN` on and of OUT from `OUT_LEN` on are never seen: a command run from two states that differ only
there ends the same way, in states that differ only there. -/

namespace Sys2Proof.Machine

open Sys2Proof.Claims

/-! ## Bodies that end alike -/

/-- Two bodies stop for the same reason, or answer values related by `R`. -/
def Alike {α : Type} (R : α → α → Prop) : Cmd α → Cmd α → Prop
  | .ok a, .ok b => R a b
  | .error e, .error e' => e = e'
  | _, _ => False

section

variable {α β : Type} {R : α → α → Prop} {Q : β → β → Prop}

theorem Alike.pure {a b : α} (h : R a b) : Alike R (Pure.pure a : Cmd α) (Pure.pure b) := h

/-- One first part, run twice, answers the same value. -/
theorem Alike.bind_same (x : Cmd α) {f g : α → Cmd β} (h : ∀ a, x = .ok a → Alike Q (f a) (g a)) :
    Alike Q (x >>= f) (x >>= g) := by
  cases x with
  | ok a => exact h a rfl
  | error e => exact rfl

theorem Alike.bind {x y : Cmd α} {f g : α → Cmd β} (hx : Alike R x y) (h : ∀ a b, R a b → Alike Q (f a) (g b)) :
    Alike Q (x >>= f) (y >>= g) := by
  cases x <;> cases y
  · exact hx
  · exact hx.elim
  · exact hx.elim
  · exact h _ _ hx

end

/-- Two outcomes the host cannot tell apart. -/
def OutcomesAlike : Host.Outcome State Fault Refusal → Host.Outcome State Fault Refusal → Prop
  | .next t, .next t' => SameVisible t t'
  | .fault f, .fault f' => f = f'
  | .refused r, .refused r' => r = r'
  | _, _ => False

/-! ## Hidden bytes replaced -/

/-- The state with other contents of IN and OUT. -/
abbrev State.withBuffers (s : State) (m n : Memory) : State := { s with inb := m, outb := n }

theorem sameVisible_iff {s s' : State} : SameVisible s s' ↔ ∃ m n, s' = s.withBuffers m n ∧
    (∀ x < zext s.inLen, m.read x = s.inb.read x) ∧ ∀ x < zext s.outLen, n.read x = s.outb.read x := by
  constructor
  · rintro ⟨he, hi, ho⟩
    exact ⟨s'.inb, s'.outb, he, hi, ho⟩
  · rintro ⟨m, n, rfl, hi, ho⟩
    exact ⟨rfl, hi, ho⟩

/-- STATUS is written the same way in both states, so the outcomes are alike when the bodies are. -/
theorem complete_alike {s s' : State} {c c' : Cmd State} (hs : SameVisible s s') (h : Alike SameVisible c c') :
    OutcomesAlike (complete s c) (complete s' c') := by
  obtain ⟨m, n, rfl, hi, ho⟩ := sameVisible_iff.1 hs
  match c, c', h with
  | .ok u, .ok u', h =>
    obtain ⟨m', n', rfl, hi', ho'⟩ := sameVisible_iff.1 h
    exact ⟨rfl, hi', ho'⟩
  | .error (.raised e), .error _, rfl => exact ⟨rfl, hi, ho⟩
  | .error (.faulted f), .error _, rfl => exact rfl

section

variable {s : State} {m n : Memory}

/-! ## What the parse and the frame read -/

/-- The parse of DECODE reads IN only below `IN_LEN` (R158). -/
theorem take_withBuffers (hi : ∀ x < zext s.inLen, m.read x = s.inb.read x) (c : Nat) :
    take (s.withBuffers m n) c = take s c := by
  rcases Nat.lt_or_ge c (zext s.inLen) with hc | hc
  · simp only [take, memReadByte, State.space, hi c hc]
  · rw [take_of_ge (s := s.withBuffers m n) hc, take_of_ge hc]

theorem takeHeader_withBuffers (hi : ∀ x < zext s.inLen, m.read x = s.inb.read x) (hs : List Byte) (c : Nat) :
    takeHeader (s.withBuffers m n) hs c = takeHeader s hs c := by
  induction hs generalizing c with
  | nil => rfl
  | cons b bs ih => simp only [takeHeader, take_withBuffers hi, ih]

theorem takePairs_withBuffers (hi : ∀ x < zext s.inLen, m.read x = s.inb.read x) (k c : Nat) :
    takePairs (s.withBuffers m n) k c = takePairs s k c := by
  induction k generalizing c with
  | zero => rfl
  | succ k ih => simp only [takePairs, take_withBuffers hi, ih]

theorem takePatches_withBuffers (hi : ∀ x < zext s.inLen, m.read x = s.inb.read x) (k i c : Nat) :
    takePatches (s.withBuffers m n) k i c = takePatches s k i c := by
  induction k generalizing i c with
  | zero => rfl
  | succ k ih => simp only [takePatches, takePairs_withBuffers hi, ih]

theorem parseFrame_withBuffers (hi : ∀ x < zext s.inLen, m.read x = s.inb.read x) :
    parseFrame (s.withBuffers m n) = parseFrame s := by
  simp only [parseFrame, takeHeader_withBuffers hi, take_withBuffers hi, takePatches_withBuffers hi, checkTrailing]

/-- A frame is built from the store and the configuration alone (R155, R156). -/
theorem payload_withBuffers (k j i : Nat) : payload (s.withBuffers m n) k j i = payload s k j i := by
  induction j generalizing i with
  | zero => rfl
  | succ j ih => simp only [payload, framePatch, State.slot, ih]

theorem frame_withBuffers (ch : Byte) (k : Nat) : frame (s.withBuffers m n) ch k = frame s ch k := by
  simp only [frame, payload_withBuffers]

/-! ## Writes -/

/-- A run written over two spaces that read the same below `len`: they read the same there and inside the run. -/
theorem read_writeRun_congr {p q : Memory} {len : Nat} (h : ∀ x < len, p.read x = q.read x) (a : Nat) (bs : List Byte)
    {x : Nat} (hx : x < len ∨ (a ≤ x ∧ x < a + bs.length)) : (p.writeRun a bs).read x = (q.writeRun a bs).read x := by
  rw [Memory.read_writeRun, Memory.read_writeRun]
  split
  · rfl
  · exact h x (by omega)

/-- A write that lies in its space ends alike when the states it leaves are alike; one that does not is the same fault. -/
theorem memWrite_alike {s s' : State} {sp : Space} {a : Nat} {bs : List Byte} {R : State → State → Prop}
    (h : a + bs.length ≤ sp.size →
      R (s.setSpace sp ((s.space sp).writeRun a bs)) (s'.setSpace sp ((s'.space sp).writeRun a bs))) :
    Alike R (memWrite s sp a bs) (memWrite s' sp a bs) := by
  unfold memWrite
  split
  · exact h ‹_›
  · exact rfl

/-- The visible bytes of OUT are read alike. -/
theorem memRead_out_alike (ho : ∀ x < zext s.outLen, n.read x = s.outb.read x) :
    Alike (fun bs bs' => bs = bs' ∧ bs.length = zext s.outLen) (memRead s .out 0 (zext s.outLen))
      (memRead (s.withBuffers m n) .out 0 (zext s.outLen)) := by
  have hrun : n.readRun 0 (zext s.outLen) = s.outb.readRun 0 (zext s.outLen) :=
    Memory.readRun_congr fun x hx => ho _ (by omega)
  simp only [memRead, State.space, hrun]
  split
  · exact ⟨rfl, Memory.length_readRun _ _ _⟩
  · exact rfl

/-- The slots are written without a look at IN or OUT (R161). -/
theorem setSlots_withBuffers (s : State) (i : Nat) (ps : List Patch) :
    (s.withBuffers m n).setSlots i ps = (s.setSlots i ps).withBuffers m n := by
  induction ps generalizing s i with
  | nil => rfl
  | cons p ps ih => exact ih (s.setSlot i p) (i + 1)

variable (hi : ∀ x < zext s.inLen, m.read x = s.inb.read x) (ho : ∀ x < zext s.outLen, n.read x = s.outb.read x)
include hi ho

theorem sameVisible_withBuffers : SameVisible s (s.withBuffers m n) := ⟨rfl, hi, ho⟩

/-- A run written to IN after which `IN_LEN` covers only old visible bytes and bytes of the run. -/
theorem inBytes_alike {a k : Nat} {bs : List Byte}
    (hk : ∀ x < k, x < zext s.inLen ∨ (a ≤ x ∧ x < a + bs.length)) :
    Alike SameVisible (memWrite s .inp a bs >>= fun t => pure (t.setInLen k))
      (memWrite (s.withBuffers m n) .inp a bs >>= fun t => pure (t.setInLen k)) :=
  .bind (R := fun t t' => SameVisible (t.setInLen k) (t'.setInLen k))
    (memWrite_alike fun _ => ⟨rfl, fun x hx => read_writeRun_congr hi a bs
      (hk x (Nat.lt_of_lt_of_le hx (zext_ofNat_le (Nat.le_refl k)))), ho⟩) fun _ _ h => .pure h

/-- A run written to OUT after which `OUT_LEN` covers only bytes of the run. -/
theorem outBytes_alike (bs : List Byte) :
    Alike SameVisible (memWrite s .out 0 bs >>= fun t => pure (t.setOutLen bs.length))
      (memWrite (s.withBuffers m n) .out 0 bs >>= fun t => pure (t.setOutLen bs.length)) :=
  .bind (R := fun t t' => SameVisible (t.setOutLen bs.length) (t'.setOutLen bs.length))
    (memWrite_alike fun _ => ⟨rfl, hi, fun x hx => read_writeRun_congr ho 0 bs <| .inr ⟨Nat.zero_le x, by
      rw [Nat.zero_add]; exact Nat.lt_of_lt_of_le hx (zext_ofNat_le (Nat.le_refl _))⟩⟩) fun _ _ h => .pure h

/-! ## The commands that use IN or OUT -/

/-- The byte that PUTIN makes visible is the one it writes (R99). -/
theorem execPutin_alike (a : Byte) : OutcomesAlike (execPutin a s) (execPutin a (s.withBuffers m n)) :=
  complete_alike (sameVisible_withBuffers hi ho) <| .bind_same _ fun _ _ => inBytes_alike hi ho fun x hx => by
    rw [List.length_singleton]
    omega

theorem execPokein_alike (a : Byte) (b : Half) : OutcomesAlike (execPokein a b s) (execPokein a b (s.withBuffers m n)) :=
  complete_alike (sameVisible_withBuffers hi ho) <| .bind_same _ fun _ _ =>
    memWrite_alike fun _ => ⟨rfl, fun _ hx => read_writeRun_congr hi _ _ (.inl hx), ho⟩

/-- TRIMIN never makes a byte visible (R101). -/
theorem execTrimin_alike (b : Half) : OutcomesAlike (execTrimin b s) (execTrimin b (s.withBuffers m n)) :=
  complete_alike (sameVisible_withBuffers hi ho) <| .bind_same _ fun _ hk => .pure
    ⟨rfl, fun x hx => hi x (Nat.lt_of_lt_of_le hx (zext_ofNat_le (by
      obtain ⟨h1, rfl⟩ := lengthOperand_eq_ok.1 hk; exact h1))), ho⟩

theorem execGetin_alike (b : Half) : OutcomesAlike (execGetin b s) (execGetin b (s.withBuffers m n)) :=
  complete_alike (sameVisible_withBuffers hi ho) <| .bind_same _ fun k hk => by
    obtain ⟨hlt, rfl⟩ := indexOperand_eq_ok.1 hk
    simp only [memReadByte, State.space, hi _ hlt]
    exact .bind_same _ fun _ _ => .pure ⟨rfl, hi, ho⟩

theorem execGetout_alike (b : Half) : OutcomesAlike (execGetout b s) (execGetout b (s.withBuffers m n)) :=
  complete_alike (sameVisible_withBuffers hi ho) <| .bind_same _ fun k hk => by
    obtain ⟨hlt, rfl⟩ := indexOperand_eq_ok.1 hk
    simp only [memReadByte, State.space, ho _ hlt]
    exact .bind_same _ fun _ _ => .pure ⟨rfl, hi, ho⟩

/-- XFER copies the visible bytes of OUT and makes only the copy visible (R105). -/
theorem execXfer_alike : OutcomesAlike (execXfer s) (execXfer (s.withBuffers m n)) :=
  complete_alike (sameVisible_withBuffers hi ho) <| .bind (memRead_out_alike ho) fun bs _ h => by
    obtain ⟨rfl, hlen⟩ := h
    exact inBytes_alike hi ho fun x hx => .inr ⟨Nat.zero_le x, by omega⟩

/-- ENCODE writes every byte of OUT that it makes visible (R155). -/
theorem execEncode_alike (a : Byte) (b : Half) : OutcomesAlike (execEncode a b s) (execEncode a b (s.withBuffers m n)) := by
  refine complete_alike (sameVisible_withBuffers hi ho) <| .bind_same _ fun _ _ => ?_
  rw [frame_withBuffers (s := s) (m := m) (n := n)]
  exact .bind_same _ fun f _ => outBytes_alike hi ho f

theorem execDecode_alike : OutcomesAlike (execDecode s) (execDecode (s.withBuffers m n)) := by
  refine complete_alike (sameVisible_withBuffers hi ho) ?_
  rw [parseFrame_withBuffers hi]
  refine .bind_same _ fun (ch, dt, ps) _ => .pure (sameVisible_iff.2 ⟨m, n, ?_, ?_, ?_⟩)
  · exact congrArg (·.setFrame ch dt ps.length) (setSlots_withBuffers s 0 ps)
  · simpa using hi
  · simpa using ho

end

/-- No command looks at a hidden byte: most read neither IN nor OUT, and the eight above read or show only visible bytes. -/
theorem exec_alike (i : Instr) {s s' : State} (h : SameVisible s s') : OutcomesAlike (exec i s) (exec i s') := by
  obtain ⟨m, n, rfl, hi, ho⟩ := sameVisible_iff.1 h
  cases i with
  | nop => exact complete_alike h (.pure h)
  | srst =>
    refine complete_alike h (.pure ⟨rfl, ?_, ?_⟩) <;> exact fun x hx => absurd hx x.not_lt_zero
  | nibx a => exact complete_alike h (.pure ⟨rfl, hi, ho⟩)
  | clrin =>
    refine complete_alike h (.pure ⟨rfl, ?_, ho⟩)
    exact fun x hx => absurd hx x.not_lt_zero
  | d2w a | w2d a | nibc a v | lddef a | nameclr a | getnlen a =>
    exact complete_alike h <| .bind_same _ fun _ _ => .pure ⟨rfl, hi, ho⟩
  | getf a f | getname a b | nameadd a v | getb a | unpackName a =>
    exact complete_alike h <| .bind_same _ fun _ _ => .bind_same _ fun _ _ => .pure ⟨rfl, hi, ho⟩
  | setf a f v | unpackPatch a =>
    exact complete_alike h <| .bind_same _ fun _ _ => .bind_same _ fun _ _ => .bind_same _ fun _ _ => .pure ⟨rfl, hi, ho⟩
  | setb a v | packName a => exact complete_alike h <| .bind_same _ fun _ _ => memWrite_alike fun _ => ⟨rfl, hi, ho⟩
  | packMisc a | packPatch a =>
    exact complete_alike h <| .bind_same _ fun _ _ => .bind_same _ fun _ _ => memWrite_alike fun _ => ⟨rfl, hi, ho⟩
  | packEnv a k | packLfo a k | packOsc a k =>
    exact complete_alike h <| .bind_same _ fun _ _ => .bind_same _ fun _ _ => .bind_same _ fun _ _ =>
      memWrite_alike fun _ => ⟨rfl, hi, ho⟩
  | unpackMisc a =>
    exact complete_alike h <| .bind_same _ fun _ _ => .bind_same _ fun _ _ => .bind_same _ fun _ _ => .pure ⟨rfl, hi, ho⟩
  | unpackEnv a k | unpackLfo a k | unpackOsc a k =>
    exact complete_alike h <| .bind_same _ fun _ _ => .bind_same _ fun _ _ => .bind_same _ fun _ _ =>
      .bind_same _ fun _ _ => .pure ⟨rfl, hi, ho⟩
  | putin a => exact execPutin_alike hi ho a
  | pokein a b => exact execPokein_alike hi ho a b
  | trimin b => exact execTrimin_alike hi ho b
  | getin b => exact execGetin_alike hi ho b
  | getout b => exact execGetout_alike hi ho b
  | xfer => exact execXfer_alike hi ho
  | encode a b => exact execEncode_alike hi ho a b
  | decode => exact execDecode_alike hi ho

/-- Settles O28: outcomes that are alike are both a next state, and the two states are the same but for hidden bytes. -/
theorem hiddenBytesUnobservable : Obligations.HiddenBytesUnobservable := by
  intro i s s' t hs ht
  have h := exec_alike i hs
  rw [ht] at h
  cases ht' : exec i s' with
  | next t' => rw [ht'] at h; exact ⟨t', rfl, h⟩
  | fault f => rw [ht'] at h; exact h.elim
  | refused r => rw [ht'] at h; exact h.elim

end Sys2Proof.Machine

/-! SUPPORT. The statements on reset, the field table, the read port and the step. -/

namespace Sys2Proof.Machine

open Sys2Proof.Claims

/-! ## Reset -/

/-- With `IN_LEN` at 0 no index is below it, so GETIN reads no byte (R103). -/
theorem execGetin_of_empty {s : State} (h : s.inLen = 0) (b : Half) :
    execGetin b s = .next (failed s 6 2 b.toNat) := by
  unfold execGetin
  rw [indexOperand_of_ge (by rw [h]; exact Nat.zero_le _)]
  rfl

/-- With `OUT_LEN` at 0 no index is below it, so GETOUT reads no byte (R104). -/
theorem execGetout_of_empty {s : State} (h : s.outLen = 0) (b : Half) :
    execGetout b s = .next (failed s 6 2 b.toNat) := by
  unfold execGetout
  rw [indexOperand_of_ge (by rw [h]; exact Nat.zero_le _)]
  rfl

/-- Settles O1: each value as `State.powerOn` gives it, the default patch evaluated under the parameters of R7. -/
theorem resetLeaves : Obligations.ResetLeaves := by
  refine ⟨fun i => ?_, fun o _ => Memory.read_nil o, rfl, rfl, rfl, rfl, rfl, rfl, rfl, rfl, rfl, rfl,
    execGetin_of_empty rfl, execGetout_of_empty rfl⟩
  have hslot : State.reset.pstore[i] = defaultPatch Config.standard := by
    show (Vector.replicate 40 (defaultPatch Config.standard))[i.val] = _
    exact Vector.getElem_replicate _
  rw [hslot]
  rfl

/-! ## The field table -/

/-- An id is put together again from the three parts it splits into (R17). -/
theorem idBase_idSplit (id : Nat) : (idSplit id).1.idBase (idSplit id).2.1 + (idSplit id).2.2 = id := by
  unfold idSplit
  split_ifs <;> simp only [Kind.idBase] <;> omega

theorem id_of_field?_eq_some {c : Config} {id : Nat} {r : FieldRef} (h : c.field? id = some r) :
    id = r.kind.idBase r.k + r.j := by
  have hid := idBase_idSplit id
  rw [← (field?_eq_some h).1] at hid
  exact hid.symm

/-- An id outside the four lists of R17 names no field of the standard tables. -/
theorem standard_field?_eq_none {id : Nat} (he : ¬∃ k j, k < 4 ∧ j < 10 ∧ id = 0x00 + 16 * k + j)
    (hl : ¬∃ k j, k < 3 ∧ j < 8 ∧ id = 0x40 + 8 * k + j) (ho : ¬∃ k j, k < 3 ∧ j < 13 ∧ id = 0x60 + 16 * k + j)
    (hm : ¬∃ j, j < 27 ∧ id = 0xA0 + j) : Config.standard.field? id = none := by
  cases hr : Config.standard.field? id with
  | none => rfl
  | some r =>
    have hid := id_of_field?_eq_some hr
    obtain ⟨-, hk, hj⟩ := field?_eq_some hr
    obtain ⟨hj, -⟩ := List.getElem?_eq_some_iff.1 hj
    obtain ⟨g, k, j, f⟩ := r
    cases g with
    | env => exact absurd ⟨k, j, hk, hj, hid⟩ he
    | lfo => exact absurd ⟨k, j, hk, hj, hid⟩ hl
    | osc => exact absurd ⟨k, j, hk, hj, hid⟩ ho
    | misc => exact absurd ⟨j, hj, hid⟩ hm

/-- Settles O2: the named ids and the rows are finite tables; every other id is outside them by `standard_field?_eq_none`. -/
theorem fieldTable : Obligations.FieldTable :=
  ⟨by decide, by decide, by decide, by decide, fun _ _ => standard_field?_eq_none, by decide, by decide, by decide, by decide,
    rfl⟩

/-! ## The read port and the step -/

/-- Settles O4: each address evaluated; a register narrower than 16 bits is zero-extended. -/
theorem portMap : Obligations.PortMap := by
  refine ⟨fun s => ?_, fun s p rest hc hq ha => ?_⟩
  · have hsticky : (if s.sticky then 1 else 0 : Half) = BitVec.ofNat 16 s.sticky.toNat := by cases s.sticky <;> rfl
    simp only [BitVec.ofNat_toNat, ← hsticky]
    exact ⟨rfl, rfl, rfl, rfl, rfl, rfl, rfl, rfl, rfl, rfl, by simp [portRead], rfl⟩
  · rw [step_of_cons hq, if_pos hc, popWrite_eq hq]
    exact if_neg ha

/-- A word written to CMD under an admitted configuration is what the step runs (R30). -/
theorem step_of_cmd {s : State} {w : Word} {rest : List PortWrite} (hc : s.cfg.wf = true)
    (hq : s.hostq = ⟨cmdAddr, w⟩ :: rest) : step s = runWord w { s with hostq := rest } := by
  rw [step_of_cons hq, if_pos hc, popWrite_eq hq]
  exact if_pos rfl

/-- The subcode of `ILLEGAL_CMD` (R173). -/
def illegalSub : Illegal → Nat
  | .unassigned _ => 0
  | .reservedField _ => 1

/-- A word that is no command is reported with its opcode (R173). -/
theorem illegal_of_decode {w : Word} {e : Illegal} (h : decode w = .error e) (s : State) :
    illegal e s = .next (failed s 5 (illegalSub e) (w.toNat / 2 ^ 24)) := by
  rw [← opcOf_toNat]
  rcases decode_cases w with ⟨f, i, -, -, -, hd⟩ | ⟨f, i, -, -, -, hd⟩ | ⟨-, hd⟩ <;> cases hd.symm.trans h
  · rfl
  · rfl

/-- Settles O5: the queue's head is the word that runs; `withFetchWord` puts it there and the step takes it off again. -/
theorem stepRunsDecoded : Obligations.StepRunsDecoded := by
  refine ⟨fun s w rest i hc hq hw => ?_, fun s w rest e hc hq hw => ?_, fun s w i hc hlt hw => ?_, fun s => step_of_nil⟩
  · rw [step_of_cmd hc hq, runWord_of_ok hw]
  · rw [step_of_cmd hc hq, runWord_of_error hw, illegal_of_decode hw]
    cases e <;> rfl
  · have hq : (s.withFetchWord 32 w).hostq = ⟨cmdAddr, BitVec.ofNat 32 w⟩ :: s.hostq := by
      rw [State.withFetchWord, Nat.mod_eq_of_lt hlt]; rfl
    rw [step_of_cmd (s := s.withFetchWord 32 w) hc hq, runWord_of_ok hw]
    rfl

end Sys2Proof.Machine

/-! SUPPORT. The statements on the decoder and the encoder. A command is its format, its opcode and the operand fields of its word
(`Format.assemble`); a word whose reserved bits are 0 is put together again from these, and that is the encoding of what it
decodes to. -/

namespace Sys2Proof

open Sys2Proof.Machine Sys2Proof.Claims

/-! ## Reserved fields (R53, R57) -/

/-- The word of format `f` with opcode `opc` and the operand fields of `w`, the reserved fields 0 (R53, R69). -/
def Format.assemble (f : Format) (opc : Byte) (w : Word) : Word :=
  match f with
  | .n => wordN opc
  | .a => wordA opc (aOf w)
  | .b => wordB opc (bOf w)
  | .ab8 => wordAB8 opc (aOf w) (vOf w)
  | .ab | .ak => wordAB opc (aOf w) (bOf w)
  | .af => wordAF opc (aOf w) (fOf w)
  | .afv => wordAFV opc (aOf w) (fOf w) (vOf w)

/-- A field that lies inside a mask is 0 in a word that has no bit under the mask. -/
theorem extractLsb'_eq_zero_of_and {w m : Word} {start len : Nat} (h : w &&& m = 0)
    (hm : m.extractLsb' start len = BitVec.allOnes len) : w.extractLsb' start len = 0 := by
  rw [← BitVec.and_allOnes (x := w.extractLsb' start len), ← hm, ← BitVec.extractLsb'_and, h]
  exact BitVec.extractLsb'_zero

/-- A word whose reserved bits are 0 is made of its opcode and its operand fields alone. -/
theorem Format.assemble_opcOf {f : Format} {w : Word} (h : w &&& f.reserved = 0) : f.assemble (opcOf w) w = w := by
  cases f with
  | n =>
    have ha : aOf w = 0 := extractLsb'_eq_zero_of_and h (by decide)
    have hb : bOf w = 0 := extractLsb'_eq_zero_of_and h (by decide)
    rw [assemble, wordN_eq, ← ha, ← hb, word_eq_fields]
  | a =>
    have hb : bOf w = 0 := extractLsb'_eq_zero_of_and h (by decide)
    rw [assemble, wordA_eq, ← hb, word_eq_fields]
  | b =>
    have ha : aOf w = 0 := extractLsb'_eq_zero_of_and h (by decide)
    rw [assemble, wordB_eq, ← ha, word_eq_fields]
  | ab8 =>
    have hf : fOf w = 0 := extractLsb'_eq_zero_of_and h (by decide)
    rw [assemble, wordAB8_eq, ← hf, bOf_eq_fields, word_eq_fields]
  | ab | ak => exact word_eq_fields w
  | af =>
    have hv : vOf w = 0 := extractLsb'_eq_zero_of_and h (by decide)
    rw [assemble, wordAF_eq, ← hv, bOf_eq_fields, word_eq_fields]
  | afv => rw [assemble, wordAFV_eq, bOf_eq_fields, word_eq_fields]

/-! ## The opcode map (R55) -/

/-- The opcode map gives a command's opcode the command's format. -/
theorem formatOf_opcode (i : Instr) : formatOf i.opcode = some i.format := by cases i <;> rfl

/-- The command read from a word has the word's opcode, and its encoding has the word's operand fields. -/
theorem commandOf_eq_some {w : Word} {i : Instr} (h : commandOf w = some i) :
    opcOf w = i.opcode ∧ encode i = i.format.assemble i.opcode w := by
  unfold commandOf at h
  split at h <;> cases h <;> exact ⟨BitVec.eq_of_toNat_eq ‹_›, rfl⟩

/-- Every opcode that has a format has a command. -/
theorem exists_commandOf {w : Word} {f : Format} (h : formatOf (opcOf w) = some f) : ∃ i, commandOf w = some i := by
  unfold formatOf at h
  unfold commandOf
  split at h
  case h_37 => cases h
  all_goals
    rw [‹(opcOf w).toNat = _›]
    exact ⟨_, rfl⟩

/-- The table of R53, R55 and R56 opcode by opcode: which are assigned, and the reserved bits of each. -/
theorem map_reserved_formatOf (opc : Byte) : (formatOf opc).map Format.reserved =
    if opc.toNat ∈ assigned then some (reservedBits opc.toNat) else none := by
  revert opc
  decide +kernel

/-! ## Words that are no command (R56, R57) -/

theorem formatOf_of_unassigned {opc : Byte} (h : opc.toNat ∉ assigned) : formatOf opc = none := by
  have ht := map_reserved_formatOf opc
  rwa [if_neg h, Option.map_eq_none_iff] at ht

theorem formatOf_of_assigned {opc : Byte} (h : opc.toNat ∈ assigned) :
    ∃ f, formatOf opc = some f ∧ f.reserved = reservedBits opc.toNat := by
  have ht := map_reserved_formatOf opc
  rwa [if_pos h, Option.map_eq_some_iff] at ht

theorem decode_of_unassigned {w : Word} (h : (opcOf w).toNat ∉ assigned) :
    decode w = .error (.unassigned (opcOf w)) := by
  unfold decode
  rw [formatOf_of_unassigned h]

/-- A word with an assigned opcode is decided by its reserved bits. -/
theorem decode_of_assigned {w : Word} (h : (opcOf w).toNat ∈ assigned) :
    ∃ i, decode w = if w &&& reservedBits (opcOf w).toNat = 0 then .ok i else .error (.reservedField (opcOf w)) := by
  obtain ⟨f, hf, hr⟩ := formatOf_of_assigned h
  obtain ⟨i, hi⟩ := exists_commandOf hf
  refine ⟨i, ?_⟩
  unfold decode
  rw [hf, hi, ← hr]

/-- Settles O9: the opcode map gives the first clause, the reserved bits of the opcode's format the other two. -/
theorem illegalWords : Obligations.IllegalWords := by
  refine ⟨fun w s h => ?_, fun w s h hr => ?_, fun w h hr => ?_⟩ <;> rw [← opcOf_toNat] at h
  · have hd := decode_of_unassigned h
    rw [runWord_of_error hd, illegal_of_decode hd]
    rfl
  · obtain ⟨i, hd⟩ := decode_of_assigned h
    rw [opcOf_toNat, if_neg hr] at hd
    rw [runWord_of_error hd, illegal_of_decode hd]
    rfl
  · obtain ⟨i, hd⟩ := decode_of_assigned h
    rw [opcOf_toNat, if_pos hr] at hd
    exact ⟨i, hd⟩

/-! ## Decoding and encoding -/

/-- Settles O8: the command has the word's opcode and operand fields, and the word's reserved fields are 0. -/
theorem encodeDecode : Obligations.EncodeDecode := by
  intro w i h
  rcases decode_cases w with ⟨f, i', hf, hc, hr, hd⟩ | ⟨f, i', -, -, -, hd⟩ | ⟨-, hd⟩ <;> cases h.symm.trans hd
  obtain ⟨hop, henc⟩ := commandOf_eq_some hc
  rw [hop, formatOf_opcode] at hf
  cases hf
  rw [henc, ← hop, Format.assemble_opcOf hr]

/-- The opcode of an encoded command. -/
theorem opcOf_encode (i : Instr) : opcOf (encode i) = i.opcode := by
  cases i with
  | nop | srst | clrin | xfer | decode => rw [encode, wordN_eq, opcOf_wordAB]; rfl
  | nibc | nameadd | setb => rw [encode, wordAB8_eq, opcOf_wordAB]; rfl
  | getf => rw [encode, wordAF_eq, opcOf_wordAB]; rfl
  | setf => rw [encode, wordAFV_eq, opcOf_wordAB]; rfl
  | _ => exact opcOf_wordAB _ _ _

/-- The command read from an encoded command is that command: every operand stands in its field. -/
theorem commandOf_encode (i : Instr) : commandOf (encode i) = some i := by
  unfold commandOf
  rw [opcOf_encode]
  cases i with
  | nop | srst | clrin | xfer | decode => rfl
  | nibc | nameadd | setb =>
    exact congrArg some (by rw [encode, wordAB8_eq, aOf_wordAB, vOf_wordAB])
  | getf =>
    exact congrArg some (by rw [encode, wordAF_eq, aOf_wordAB, fOf_wordAB])
  | setf =>
    exact congrArg some (by rw [encode, wordAFV_eq, aOf_wordAB, fOf_wordAB, vOf_wordAB])
  | trimin | getin | getout =>
    exact congrArg some (by rw [encode, wordB_eq, bOf_wordAB])
  | getname | pokein | encode | packEnv | packLfo | packOsc | unpackEnv | unpackLfo | unpackOsc =>
    exact congrArg some (by rw [encode, aOf_wordAB, bOf_wordAB])
  | _ =>
    exact congrArg some (by rw [encode, wordA_eq, aOf_wordAB])

/-- Every encoded command is identified by the mask of its format (R53). -/
theorem encode_matchMask (i : Instr) : Laws.MatchMask.Statement i := by
  cases i with
  | nop | srst | clrin | xfer | decode => exact wordN_mask _
  | trimin | getin | getout => exact wordB_mask _ _
  | nibc | nameadd | setb => exact wordAB8_mask _ _ _
  | getname | pokein | encode => exact wordAB_mask _ _ _
  | packEnv | packLfo | packOsc | unpackEnv | unpackLfo | unpackOsc => exact wordAB_mask _ _ _
  | getf => exact wordAF_mask _ _ _
  | setf => exact wordAFV_mask _ _ _ _
  | _ => exact wordA_mask _ _

/-- Settles O7: opcode, operand fields and reserved fields of an encoded command are what the decoder looks for. -/
theorem decodeEncode : Obligations.DecodeEncode := by
  intro i
  refine decode_of_format (f := i.format) ?_ (commandOf_encode i) (encode_reserved (encode_matchMask i))
  rw [opcOf_encode, formatOf_opcode]

/-- Settles O10: each word is the encoding of its command. -/
theorem decodeSampleWords : Obligations.DecodeSampleWords :=
  ⟨decodeEncode .nop, decodeEncode (.d2w 0xFB), decodeEncode (.w2d 0x7B), decodeEncode (.nibx 0xA7),
    decodeEncode (.nibc 7 10), decodeEncode (.setf 0 0 0xEC), decodeEncode (.nameadd 0 0x61), decodeEncode (.setb 6 0x80),
    decodeEncode (.putin 0xF0), decodeEncode (.pokein 0 209), decodeEncode (.trimin 100), decodeEncode (.packEnv 0 3),
    decodeEncode (.unpackPatch 2), decodeEncode (.encode 3 1), decodeEncode .decode⟩

end Sys2Proof

/-! SUPPORT. The byte round trip of a patch run (R148): a group that unpacks packs again to its own bytes under the mask of its
table's slices, and those masks are the complements of the unused bits of R65. -/

namespace Sys2Proof.Machine

open Sys2Proof.Claims

/-! ## One group -/

/-- Packing what a group run unpacked to gives each byte back, cleared where no slice of the table stands. -/
theorem packGroup_of_unpackGroup {c : Config} (hc : c.wf = true) {g : Kind} {k : Nat} {bytes : List Byte} {r : Record}
    (h : unpackGroup c g k bytes = .ok r) :
    ∃ bs, packGroup c g k r = .ok bs ∧ bs.length = g.runLen ∧
      ∀ n, bs.getD n 0 = bytes.getD n 0 &&& BitVec.ofNat 8 (usedBits (c.fields g) n) := by
  obtain ⟨bs, hpack, hlen, hbits⟩ := packFields_unpackFields (base := g.base k) (id := g.idBase k)
    (Config.table_ok hc g).good (List.length_replicate (a := (0 : Byte))) (unpackGroup_eq_ok h).1
  refine ⟨bs, hpack, hlen, fun n => BitVec.eq_of_getLsbD_eq fun i hi => ?_⟩
  have hbit := hbits n i hi
  rw [bitAt_zeros, Bool.false_or, ← testBit_usedBits, bitAt, bitAt] at hbit
  rw [hbit, BitVec.getLsbD_and, BitVec.getLsbD_ofNat, Bool.and_comm]
  simp [hi]

/-- The mask of a byte depends only on where the slices of the table stand. -/
theorem usedBits_congr {fs gs : List FieldSpec} (h : sameSlices fs gs = true) (n : Nat) :
    usedBits fs n = usedBits gs n := by
  simp only [sameSlices, beq_iff_eq] at h
  rw [usedBits, usedBits, List.flatMap_def, List.flatMap_def, h]

/-- With the aux fields kept and the MISC layout of R130, every admitted table has the slices of the standard one. -/
theorem sameSlices_standard {c : Config} (hc : c.wf = true) (haux : c.lfoAux = .preserve)
    (hmisc : c.miscFields = stdMiscFields) (g : Kind) : sameSlices (c.fields g) (Config.standard.fields g) = true := by
  obtain ⟨-, ⟨-, he⟩, ⟨-, hl⟩, ⟨-, ho⟩, -⟩ := Config.wf_iff.1 hc
  cases g with
  | env => exact he
  | lfo => rw [Config.fields, haux]; exact hl
  | osc => exact ho
  | misc => rw [Config.fields, hmisc]; exact beq_self_eq_true _

/-- The bits of R65 are those no slice of the standard tables covers (R126, R127, R129, R130). -/
theorem usedBits_standard : ∀ (g : Kind), ∀ k < g.count, ∀ n < g.runLen,
    BitVec.ofNat 8 (usedBits (Config.standard.fields g) n) = ~~~unusedBits (g.base k + n) := by
  intro g
  cases g <;> decide +kernel

/-! ## The patch run -/

theorem getD_groupRun {b : List Byte} {g : Kind} {k n : Nat} (hn : n < g.runLen) :
    (groupRun b g k).getD n 0 = b.getD (g.base k + n) 0 := by
  simp [groupRun, List.getD_eq_getElem?_getD, hn]

theorem getD_joinRun_name {m : List Byte} {f : Kind → Nat → List Byte} (hm : m.length = 6) {o : Nat} (ho : o < 6) :
    (joinRun m f).getD o 0 = m.getD o 0 := by
  conv_rhs => rw [← take_joinRun (f := f) hm]
  simp [nameLen, List.getD_eq_getElem?_getD, ho]

theorem getD_joinRun_group {m : List Byte} {f : Kind → Nat → List Byte} (hm : m.length = 6)
    (hf : ∀ g k, k < Kind.count g → (f g k).length = g.runLen) {g : Kind} {k n : Nat} (hk : k < g.count)
    (hn : n < g.runLen) : (joinRun m f).getD (g.base k + n) 0 = (f g k).getD n 0 := by
  rw [← getD_groupRun hn, groupRun_joinRun hm hf hk]

/-- Every offset above the name lies in the run of one group (R50). -/
theorem exists_base_add {o : Nat} (h1 : 6 ≤ o) (h2 : o < 102) :
    ∃ g k n, k < Kind.count g ∧ n < g.runLen ∧ o = g.base k + n := by
  by_cases he : o < 46
  · exact ⟨.env, (o - 6) / 10, (o - 6) % 10, by simp only [Kind.count]; omega, by simp only [Kind.runLen]; omega,
      by simp only [Kind.base]; omega⟩
  by_cases hl : o < 58
  · exact ⟨.lfo, (o - 46) / 4, (o - 46) % 4, by simp only [Kind.count]; omega, by simp only [Kind.runLen]; omega,
      by simp only [Kind.base]; omega⟩
  by_cases ho : o < 88
  · exact ⟨.osc, (o - 58) / 10, (o - 58) % 10, by simp only [Kind.count]; omega, by simp only [Kind.runLen]; omega,
      by simp only [Kind.base]; omega⟩
  · exact ⟨.misc, 0, o - 88, by simp only [Kind.count]; omega, by simp only [Kind.runLen]; omega,
      by simp only [Kind.base]; omega⟩

/-- The letters a..z by their codes (R131). -/
theorem upperByte_eq (b : Byte) : upperByte b =
    if 0x61 ≤ b.toNat ∧ b.toNat ≤ 0x7A then BitVec.ofNat 8 (b.toNat - 0x20) else b := by
  revert b
  decide +kernel

/-- Byte `o` of the name of a run, normalised. -/
theorem getD_norm_take {b : List Byte} (hb : b.length = 102) {o : Nat} (ho : o < 6) :
    (norm (b.take nameLen)).getD o 0 = upperByte (b.getD o 0) := by
  have hlt : o < b.length := by omega
  rw [List.getD_eq_getElem?_getD, getElem?_norm, if_pos ho, List.getElem?_take, nameLen, if_pos ho]
  simp [hlt]

/-- What deserializes serializes again: the name normalised, and each byte of a group under the mask of its table. -/
theorem serialize_of_deserialize {c : Config} (hc : c.wf = true) {b : List Byte} {p : Patch}
    (h : deserialize c b = .ok p) :
    ∃ f : Kind → Nat → List Byte, serialize c p = .ok (joinRun (norm (b.take nameLen)) f) ∧
      (∀ g k, k < Kind.count g → (f g k).length = g.runLen) ∧
      ∀ g k n, k < Kind.count g → n < g.runLen →
        (f g k).getD n 0 = b.getD (g.base k + n) 0 &&& BitVec.ofNat 8 (usedBits (c.fields g) n) := by
  obtain ⟨hname, hgroups⟩ := deserialize_eq_ok.1 h
  obtain ⟨f, hpack, hlen, hser, -⟩ := serialize_ok hc (deserialize_ok h)
  refine ⟨f, hname ▸ hser, hlen, fun g k n hk hn => ?_⟩
  obtain ⟨bs, hbs, -, hbytes⟩ := packGroup_of_unpackGroup hc (hgroups g k hk)
  cases (hpack g k hk).symm.trans hbs
  rw [hbytes, getD_groupRun hn]

/-- Settles O43: byte by byte, the name by its normalisation and a group by the mask of its table. -/
theorem byteRoundTrip : Obligations.ByteRoundTrip := by
  intro c b p hc haux hmisc hb h
  obtain ⟨f, hser, hlen, hbytes⟩ := serialize_of_deserialize hc h
  refine ⟨_, hser, length_joinRun (length_norm _) hlen, fun o ho => ?_⟩
  by_cases hname : o < 6
  · rw [if_pos hname, getD_joinRun_name (length_norm _) hname, getD_norm_take hb hname, upperByte_eq]
  · rw [if_neg hname]
    obtain ⟨g, k, n, hk, hn, rfl⟩ := exists_base_add (Nat.le_of_not_lt hname) ho
    rw [getD_joinRun_group (length_norm _) hlen hk hn, hbytes g k n hk hn,
      usedBits_congr (sameSlices_standard hc haux hmisc g), usedBits_standard g k hk n hn]

end Sys2Proof.Machine

/-! SUPPORT. The access commands (40_field_access.md): what a check at the head of a body gives, refused or passed, and with that
the outcome of every command on patch fields, names, the logical buffer and the input and output buffers. -/

namespace Sys2Proof.Machine

open Sys2Proof.Claims

/-! ## A command whose check refuses or passes (R172) -/

section
variable {s : State} {a : Byte} {b : Half} {body : Nat → Cmd State}

theorem complete_slotOperand_of_ge (h : 40 ≤ a.toNat) :
    complete s (slotOperand a >>= body) = .next (failed s 6 1 a.toNat) := by
  rw [slotOperand_of_ge h]; rfl

theorem complete_slotOperand_of_lt (h : a.toNat < 40) :
    complete s (slotOperand a >>= body) = complete s (body a.toNat) := by
  rw [slotOperand_of_lt h]; rfl

theorem complete_offsetOperand_of_ge (h : 102 ≤ a.toNat) :
    complete s (offsetOperand a >>= body) = .next (failed s 6 1 a.toNat) := by
  rw [offsetOperand_of_ge h]; rfl

theorem complete_offsetOperand_of_lt (h : a.toNat < 102) :
    complete s (offsetOperand a >>= body) = complete s (body a.toNat) := by
  rw [offsetOperand_of_lt h]; rfl

theorem complete_indexOperand_of_ge {len : Nat} (h : len ≤ b.toNat) :
    complete s (indexOperand b len >>= body) = .next (failed s 6 2 b.toNat) := by
  rw [indexOperand_of_ge h]; rfl

theorem complete_indexOperand_of_lt {len : Nat} (h : b.toNat < len) :
    complete s (indexOperand b len >>= body) = complete s (body b.toNat) := by
  rw [indexOperand_of_lt h]; rfl

theorem complete_lengthOperand_of_gt {len : Nat} (h : len < b.toNat) :
    complete s (lengthOperand b len >>= body) = .next (failed s 6 2 b.toNat) := by
  rw [lengthOperand_of_gt h]; rfl

theorem complete_lengthOperand_of_le {len : Nat} (h : b.toNat ≤ len) :
    complete s (lengthOperand b len >>= body) = complete s (body b.toNat) := by
  rw [lengthOperand_of_le h]; rfl

theorem complete_fieldOperand_of_none {c : Config} {f : Byte} {body : FieldRef → Cmd State}
    (h : c.field? f.toNat = none) : complete s (fieldOperand c f >>= body) = .next (failed s 6 2 f.toNat) := by
  rw [fieldOperand_of_none h]; rfl

theorem complete_fieldOperand_of_some {c : Config} {f : Byte} {r : FieldRef} {body : FieldRef → Cmd State}
    (h : c.field? f.toNat = some r) : complete s (fieldOperand c f >>= body) = complete s (body r) := by
  rw [fieldOperand_of_some h]; rfl

theorem complete_capacity_of_eq {n full : Nat} {body : Unit → Cmd State} (h : n = full) :
    complete s (require (n != full) (atCapacity full) >>= body) = .next (failed s 6 3 full) := by
  rw [bne_eq_false_iff_eq.2 h]; rfl

theorem complete_capacity_of_ne {n full : Nat} {e : Err} {body : Unit → Cmd State} (h : n ≠ full) :
    complete s (require (n != full) e >>= body) = complete s (body ()) := by
  rw [bne_iff_ne.2 h]; rfl

end

/-! ## One byte of a space -/

section
variable {s : State} {sp : Space} {a : Nat}

/-- A command that reads a byte into RES. -/
theorem complete_memReadByte_setRes (h : a < sp.size) :
    complete s (memReadByte s sp a >>= fun b => pure (s.setRes (b.setWidth 16))) =
      .next (done { s with res := BitVec.ofNat 16 ((s.space sp).read a).toNat }) := by
  rw [memReadByte_of_lt h, BitVec.ofNat_toNat]; rfl

theorem memWrite_byte_of_lt {b : Byte} (h : a < sp.size) :
    memWrite s sp a [b] = .ok (s.setSpace sp ((s.space sp).write a b)) :=
  memWrite_of_le h

end

/-! ## Patch fields -/

/-- The operand V as the number a field takes (R54, R90). -/
theorem fieldValue_eq (f : FieldSpec) (v : Byte) :
    fieldValue f v = if f.cls = .sgn then v.toInt else (v.toNat : Int) := by
  unfold fieldValue
  split
  next h => rw [if_pos h]
  next h => rw [if_neg h]

section
variable {s : State} {a f v : Byte} {r : FieldRef}

/-- SETF with a slot and a field that exist comes down to the range check (R86). -/
theorem execSetf_of_field (h : a.toNat < 40) (hr : s.cfg.field? f.toNat = some r) :
    execSetf a f v s = complete s (do
      lift (check r.spec f.toNat (fieldValue r.spec v) a.toNat)
      pure (s.setSlot a.toNat ((s.slot a.toNat).setField r (fieldValue r.spec v)))) := by
  rw [execSetf, complete_slotOperand_of_lt h, complete_fieldOperand_of_some hr]

/-- A value outside the field's range is refused (R86, R88). -/
theorem execSetf_outside (h : a.toNat < 40) (hr : s.cfg.field? f.toNat = some r)
    (hv : r.spec.inRange (fieldValue r.spec v) = false) :
    execSetf a f v s = .next (failed s 1 f.toNat a.toNat) := by
  rw [execSetf_of_field h hr, check_eq_error.2 ⟨hv, rfl⟩]; rfl

/-- A value inside the field's range is written (R90). -/
theorem execSetf_inside (h : a.toNat < 40) (hr : s.cfg.field? f.toNat = some r)
    (hv : r.spec.inRange (fieldValue r.spec v) = true) :
    execSetf a f v s =
      .next (done (withPatch s a.toNat (s.pstore[a.toNat].setField r (fieldValue r.spec v)))) := by
  rw [execSetf_of_field h hr, check_eq_ok.2 hv, State.slot_of_lt s h]; rfl

end

/-- Settles O16: the slot, the id and the range refuse in this order, and the patch that is written is the old one with the one
field set. -/
theorem setfResult : Obligations.SetfResult := by
  intro s a f v
  refine ⟨decodeEncode (.setf a f v), fun h => complete_slotOperand_of_ge h, fun h hf => ?_, fun r x h hr hx => ?_⟩
  · exact (complete_slotOperand_of_lt h).trans (complete_fieldOperand_of_none hf)
  · rw [← fieldValue_eq] at hx
    subst hx
    refine ⟨fun hout => execSetf_outside h hr ?_, fun _ hs hmin hmax => ?_⟩
    · rw [Bool.eq_false_iff, ne_eq, FieldSpec.inRange_iff, not_and_or, not_le, not_le]
      exact hout
    · have hin := FieldSpec.inRange_iff.2 ⟨hmin, hmax⟩
      have hp : s.pstore[a.toNat].ok s.cfg = true := hs ⟨a.toNat, h⟩
      exact ⟨_, execSetf_inside h hr hin, Patch.setField_ok hr hp hin, Patch.setGroup_name .., Patch.field_setField hr hp,
        fun id r' hr' hne => Patch.field_setField_ne hr hr' hne⟩

/-- Settles O17: past its two checks GETF only reads. -/
theorem getfResult : Obligations.GetfResult := by
  intro s a f
  refine ⟨decodeEncode (.getf a f), fun h => complete_slotOperand_of_ge h, fun h hf => ?_, fun h r hr => ?_⟩
  · exact (complete_slotOperand_of_lt h).trans (complete_fieldOperand_of_none hf)
  · rw [exec, execGetf, complete_slotOperand_of_lt h, complete_fieldOperand_of_some hr, State.slot_of_lt s h]
    rfl

/-- Settles O18: the slot check is LDDEF's only one, and the default patch is a constant of the configuration. -/
theorem lddefResult : Obligations.LddefResult := fun _ a =>
  ⟨decodeEncode (.lddef a), fun h => complete_slotOperand_of_ge h, fun h => complete_slotOperand_of_lt h, rfl⟩

/-! ## Names -/

/-- Settles O19: past the slot check NAMECLR writes, and NAMEADD has its capacity check before it does. -/
theorem nameWrites : Obligations.NameWrites := by
  intro s a v
  refine ⟨decodeEncode (.nameclr a), decodeEncode (.nameadd a v),
    fun h => ⟨complete_slotOperand_of_ge h, complete_slotOperand_of_ge h⟩, fun h => ?_⟩
  rw [← State.slot_of_lt s h]
  refine ⟨?_, fun hfull => ?_, fun hroom => ?_⟩
  · exact complete_slotOperand_of_lt h
  · exact (complete_slotOperand_of_lt h).trans (complete_capacity_of_eq hfull)
  · exact (complete_slotOperand_of_lt h).trans (complete_capacity_of_ne hroom)

/-- Settles O20: an index below the name's length is read, any other refused. -/
theorem nameReads : Obligations.NameReads := by
  intro s a b
  refine ⟨decodeEncode (.getname a b), decodeEncode (.getnlen a),
    fun h => ⟨complete_slotOperand_of_ge h, complete_slotOperand_of_ge h⟩, fun h => ⟨fun hb => ?_, fun hb => ?_, ?_⟩⟩
  · rw [exec, execGetname, complete_slotOperand_of_lt h, State.slot_of_lt s h, complete_indexOperand_of_lt hb,
      List.getD_eq_getElem _ _ hb, BitVec.ofNat_toNat]
    rfl
  · rw [exec, execGetname, complete_slotOperand_of_lt h, State.slot_of_lt s h, complete_indexOperand_of_ge hb]
  · rw [exec, execGetnlen, complete_slotOperand_of_lt h, State.slot_of_lt s h]
    rfl

/-! ## Logical buffer -/

/-- Settles O21: an offset below 102 is an address of LB. -/
theorem logicalByte : Obligations.LogicalByte := by
  intro s a v
  refine ⟨decodeEncode (.setb a v), decodeEncode (.getb a),
    fun h => ⟨complete_offsetOperand_of_ge h, complete_offsetOperand_of_ge h⟩, fun h => ?_, fun h => ?_⟩
  · refine ⟨s.lb.write a.toNat v, ?_, Memory.read_write s.lb a.toNat v⟩
    rw [exec, execSetb, complete_offsetOperand_of_lt h, memWrite_byte_of_lt h]
    rfl
  · exact (complete_offsetOperand_of_lt h).trans (complete_memReadByte_setRes h)

/-! ## Input and output buffers -/

/-- Settles O22: below 8192 `IN_LEN` is an address of IN, and the byte goes there. -/
theorem putinResult : Obligations.PutinResult := by
  intro s a
  refine ⟨decodeEncode (.putin a), fun h => ?_, fun h => ?_⟩
  · rw [exec, execPutin, show zext s.inLen = inMax from h]
    exact complete_capacity_of_eq rfl
  · refine ⟨s.inb.write s.inLen.toNat a, ?_, Memory.read_write s.inb s.inLen.toNat a⟩
    rw [exec, execPutin, complete_capacity_of_ne (Nat.ne_of_lt h), memWrite_byte_of_lt h]
    rfl

/-- Settles O23: an index below `IN_LEN` is an address of IN. -/
theorem pokeinResult : Obligations.PokeinResult := by
  intro s a b
  refine ⟨decodeEncode (.pokein a b), fun h => complete_indexOperand_of_ge h, fun hlen h => ?_⟩
  refine ⟨s.inb.write b.toNat a, ?_, Memory.read_write s.inb b.toNat a⟩
  rw [exec, execPokein, complete_indexOperand_of_lt h, memWrite_byte_of_lt (sp := .inp) (Nat.lt_of_lt_of_le h hlen)]
  rfl

/-- Settles O24: TRIMIN takes its operand as the new length when it is no longer than the old one. -/
theorem inLength : Obligations.InLength := by
  intro s b
  refine ⟨decodeEncode (.trimin b), decodeEncode .clrin, fun h => complete_lengthOperand_of_gt h, fun h => ?_, rfl⟩
  have hb : s.setInLen b.toNat = { s with inLen := b } := by rw [State.setInLen, BitVec.ofNat_toNat, BitVec.setWidth_eq]
  rw [exec, execTrimin, complete_lengthOperand_of_le h, hb]
  rfl

/-- Settles O25: an index below `IN_LEN` is an address of IN. -/
theorem getinResult : Obligations.GetinResult := fun _ b =>
  ⟨decodeEncode (.getin b), fun h => complete_indexOperand_of_ge h, fun hlen h =>
    (complete_indexOperand_of_lt h).trans (complete_memReadByte_setRes (sp := .inp) (Nat.lt_of_lt_of_le h hlen))⟩

/-- Settles O26: an index below `OUT_LEN` is an address of OUT. -/
theorem getoutResult : Obligations.GetoutResult := fun _ b =>
  ⟨decodeEncode (.getout b), fun h => complete_indexOperand_of_ge h, fun hlen h =>
    (complete_indexOperand_of_lt h).trans (complete_memReadByte_setRes (sp := .out) (Nat.lt_of_lt_of_le h hlen))⟩

/-- What IN reads after the first `n` bytes of OUT are written to it. -/
theorem Memory.read_writeRun_readRun_zero (m o : Memory) (n x : Nat) :
    (m.writeRun 0 (o.readRun 0 n)).read x = if x < n then o.read x else m.read x := by
  rw [Memory.read_writeRun, Memory.length_readRun]
  by_cases h : x < n
  · rw [if_pos h, if_pos (by omega), Memory.getD_readRun o 0 n (x - 0) (by omega)]
    congr 1
    omega
  · rw [if_neg h, if_neg (by omega)]

/-- Settles O27: `OUT_LEN` bytes fit in OUT and in IN, so the run is read and written. -/
theorem xferResult : Obligations.XferResult := by
  intro s
  refine ⟨decodeEncode .xfer, fun h => ?_⟩
  refine ⟨s.inb.writeRun 0 (s.outb.readRun 0 s.outLen.toNat), ?_, Memory.read_writeRun_readRun_zero s.inb s.outb _⟩
  have hread : 0 + s.outLen.toNat ≤ Space.size .out := by rw [Nat.zero_add]; exact h
  have hwrite : 0 + (s.outb.readRun 0 s.outLen.toNat).length ≤ Space.size .inp := by
    rw [Memory.length_readRun, Nat.zero_add]
    exact Nat.le_trans h (by decide)
  have hlen : BitVec.ofNat 16 s.outLen.toNat = s.outLen := by rw [BitVec.ofNat_toNat, BitVec.setWidth_eq]
  rw [exec, execXfer, memRead_of_le hread, cmd_ok_bind, State.space_out, memWrite_of_le hwrite, cmd_ok_bind, complete_pure,
    State.setInLen, hlen]
  rfl

end Sys2Proof.Machine

/-! SUPPORT. The range codec (41_range_codec.md): the sign codec in each direction as one equation and its relation to 7-bit two's
complement, and the outcome of D2W and W2D from what the codec answers. -/

namespace Sys2Proof.Machine

open Sys2Proof.Claims

/-! ## The sign codec as one equation -/

/-- The wire value of a display value, as an integer; the caller only places the error (R111). -/
theorem exists_d2w {v : Int} (h1 : -63 ≤ v) (h2 : v ≤ 63) :
    ∃ w : Nat, (w : Int) = (if v < 0 then 128 + v else v) ∧ ∀ sub pos, d2w sub pos v = .ok w :=
  ⟨_, by split <;> omega, fun _ _ => d2w_of_mem h1 h2⟩

/-- The display value of a wire value that is not the hole of the code (R112). -/
theorem w2d_of_le {p : W2dHighPolicy} {sub pos w : Nat} (h1 : w ≤ 127) (h2 : w ≠ 64) :
    w2d p sub pos w = .ok (if w < 64 then (w : Int) else (w : Int) - 128) := by
  split
  next hlow => exact w2d_of_lt hlow
  next hhigh => exact w2d_of_mem (by omega) h1

/-! ## Two's complement (R116) -/

/-- The lift of a negative display value by 128 is its residue at 7 bits. -/
theorem toNat_ofInt_seven {v : Int} {w : Nat} (h1 : -63 ≤ v) (h2 : v ≤ 63)
    (hw : (w : Int) = if v < 0 then 128 + v else v) : (BitVec.ofInt 7 v).toNat = w := by
  rw [BitVec.toNat_ofInt]
  split at hw <;> omega

/-- A wire value of 64 and above has its sign bit set at 7 bits. -/
theorem toInt_ofNat_seven {w : Nat} (h : w ≤ 127) :
    (BitVec.ofNat 7 w).toInt = if w < 64 then (w : Int) else (w : Int) - 128 := by
  rw [BitVec.toInt_eq_toNat_cond, BitVec.toNat_ofNat, Nat.mod_eq_of_lt (by omega)]
  split <;> split <;> omega

/-- Settles O13: each direction is an affine map on each side of 0 and of 64, and the other direction takes it back. -/
theorem signCodec : Obligations.SignCodec := by
  refine ⟨fun sub pos v h1 h2 => ?_, fun _ _ _ h => d2w_of_not_mem h, fun p sub pos w h1 h2 => ?_, fun _ _ _ => w2d_64,
    fun _ _ _ _ h => w2d_of_gt h⟩
  · obtain ⟨w, hw, hd⟩ := exists_d2w h1 h2
    have hle : w ≤ 127 := by split at hw <;> omega
    have hne : w ≠ 64 := by split at hw <;> omega
    have hback : (if w < 64 then (w : Int) else (w : Int) - 128) = v := by split at hw <;> split <;> omega
    exact ⟨w, hd sub pos, hle, hne, hw, (toNat_ofInt_seven h1 h2 hw).symm,
      fun _ _ _ => (w2d_of_le hle hne).trans (congrArg _ hback)⟩
  · have hw := w2d_of_le (p := p) (sub := sub) (pos := pos) h1 h2
    obtain ⟨hmin, hmax, hback⟩ := w2d_eq_ok hw
    exact ⟨_, hw, hmin, hmax, rfl, (toInt_ofNat_seven h1).symm, hback⟩

/-! ## The commands -/

section
variable {s : State} {a : Byte}

theorem execD2w_of_ok {w : Nat} (h : d2w 0xFF 0 a.toInt = .ok w) :
    execD2w a s = .next (done { s with res := BitVec.ofNat 16 w }) := by
  rw [execD2w, h]; rfl

theorem execD2w_of_error {e : Err} (h : d2w 0xFF 0 a.toInt = .error e) : execD2w a s = .next (s.statusErr e) := by
  rw [execD2w, h]; rfl

theorem execW2d_of_ok {v : Int} (h : w2d s.cfg.w2dHigh 0xFF 0 a.toNat = .ok v) :
    execW2d a s = .next (done { s with res := BitVec.ofInt 16 v }) := by
  rw [execW2d, h]; rfl

theorem execW2d_of_error {e : Err} (h : w2d s.cfg.w2dHigh 0xFF 0 a.toNat = .error e) :
    execW2d a s = .next (s.statusErr e) := by
  rw [execW2d, h]; rfl

end

/-- Settles O14: RES takes the wire value the codec answers, and the codec's error ends the command. -/
theorem d2wResult : Obligations.D2wResult := by
  intro s a
  refine ⟨decodeEncode (.d2w a), fun h1 h2 => ?_, fun h => execD2w_of_error (d2w_of_not_mem h)⟩
  obtain ⟨w, hw, hd⟩ := exists_d2w h1 h2
  rw [← hw, BitVec.ofInt_natCast]
  exact execD2w_of_ok (hd 0xFF 0)

/-- Settles O15: the operand meets the codec's branches one by one, the low and the high wire values and the two errors. -/
theorem w2dResult : Obligations.W2dResult := by
  intro s a
  refine ⟨decodeEncode (.w2d a), fun hlow => ?_, fun h1 h2 => execW2d_of_ok (w2d_of_mem h1 h2), fun h => ?_,
    fun h => execW2d_of_error (w2d_of_gt h)⟩
  · rw [← BitVec.ofInt_natCast]
    exact execW2d_of_ok (w2d_of_lt hlow)
  · exact execW2d_of_error (h ▸ w2d_64)

end Sys2Proof.Machine

/-! SUPPORT. The record round trip (R146) and the unused bits (R125): a packed record sets no bit outside its table's slices, so the
check of R125 passes on it; and what that check answers on any run. -/

namespace Sys2Proof.Machine

open Sys2Proof.Claims

/-! ## The bits a table covers -/

/-- A bit that a slice covers, in the words of the statement. -/
theorem used_iff {fs : List FieldSpec} {n i : Nat} :
    Used fs n i ↔ (fs.flatMap (·.slices)).any (fun sl => sl.hits n i) = true := by
  simp only [Used, List.any_eq_true, List.mem_flatMap, Slice.hits_eq_true]
  constructor
  · rintro ⟨f, hf, sl, hs, h⟩; exact ⟨sl, ⟨f, hf, hs⟩, h⟩
  · rintro ⟨sl, ⟨f, hf, hs⟩, h⟩; exact ⟨f, hf, sl, hs, h⟩

/-- A set bit stands in one of the eight places of its byte. -/
theorem lt_eight_of_bitAt {bs : List Byte} {n i : Nat} (h : bitAt bs n i = true) : i < 8 :=
  BitVec.lt_of_getLsbD h

/-! ## What packing a group gives -/

/-- A packed record in range: a run of its kind's length, with no bit set outside the slices, whose fields are the record. -/
theorem packGroup_spec {c : Config} (hc : c.wf = true) {g : Kind} (k : Nat) {r : Record}
    (hr : recordOk (c.fields g) r = true) : ∃ bs, packGroup c g k r = .ok bs ∧ bs.length = g.runLen ∧
      (∀ n i, bitAt bs n i = true → Used (c.fields g) n i) ∧
      unpackFields c bs (g.base k) (c.fields g) (g.idBase k) = .ok r := by
  have ht := Config.table_ok hc g
  obtain ⟨bs, hpack, hlen, hrest, hunpack⟩ := packFields_ok (c := c) (base := g.base k) (id := g.idBase k) ht.good
    ht.disjoint (List.length_replicate (a := (0 : Byte))) (clean_zeros _ _) hr
  refine ⟨bs, hpack, hlen, fun n i hbit => ?_, hunpack _ _⟩
  by_contra hused
  have hno := hrest n i (lt_eight_of_bitAt hbit) fun sl hsl => by
    rw [used_iff, List.any_eq_true] at hused
    exact Bool.eq_false_iff.2 fun hhit => hused ⟨sl, hsl, hhit⟩
  rw [hno, bitAt_zeros] at hbit
  cases hbit

/-- A packed record unpacks to itself under every policy: the check of R125 finds no unused bit set. -/
theorem unpackGroup_packGroup {c : Config} (hc : c.wf = true) {g : Kind} {k : Nat} {r : Record}
    (hr : recordOk (c.fields g) r = true) {bs : List Byte} (h : packGroup c g k r = .ok bs) :
    unpackGroup c g k bs = .ok r := by
  obtain ⟨bs', hpack, -, hused, hunpack⟩ := packGroup_spec hc k hr
  obtain rfl := Except.ok.inj (hpack.symm.trans h)
  refine unpackGroup_of_ok hunpack (checkUnused_of_covered fun n i _ hbit => ?_)
  rw [Nat.zero_add]
  exact used_iff.1 (hused n i hbit)

/-- The groups of a patch do not depend on its name. -/
@[simp] theorem Patch.group_withName (p : Patch) (n : List Byte) (g : Kind) (k : Nat) :
    ({ p with name := n } : Patch).group g k = p.group g k := by
  cases g <;> rfl

/-- Settles O42: each group reads its own packed run back, and that run stands at its base in the serialized patch. -/
theorem recordRoundTrip : Obligations.RecordRoundTrip := by
  refine fun c hc => ⟨fun g k r hr => ?_, fun p hp => ?_⟩
  · obtain ⟨bs, hpack, hlen⟩ := packGroup_ok hc hr
    exact ⟨bs, hpack, hlen, unpackGroup_packGroup hc hr hpack⟩
  · obtain ⟨f, hpack, hlen, hser, hrun⟩ := serialize_ok hc hp
    refine ⟨_, hser, hrun, deserialize_eq_ok.2 ⟨(take_joinRun (length_norm _)).symm, fun g k hk => ?_⟩⟩
    rw [unpackAt, groupRun_joinRun (length_norm _) hlen hk, Patch.group_withName]
    exact unpackGroup_packGroup hc ((Patch.ok_iff.1 hp).2 g k hk) (hpack g k hk)

/-! ## The check of R125 -/

/-- What the check answers: nothing, with every bit of the run covered, or the error of a byte that has an uncovered bit set. -/
theorem checkUnused_cases (fs : List FieldSpec) (base n : Nat) (bs : List Byte) :
    (checkUnused fs base n bs = .ok () ∧ ∀ k i, bitAt bs k i = true → Used fs (n + k) i) ∨
    ∃ k i, bitAt bs k i = true ∧ ¬Used fs (n + k) i ∧ checkUnused fs base n bs = .error (unusedBitSet (base + (n + k))) := by
  induction bs generalizing n with
  | nil => exact .inl ⟨rfl, fun k i h => by simp [bitAt] at h⟩
  | cons b bs ih =>
    by_cases hb : zext b ||| usedBits fs n = usedBits fs n
    · have hhead := (or_usedBits_eq_iff fs n b).1 hb
      rw [checkUnused, if_pos hb]
      rcases ih (n + 1) with ⟨hok, hall⟩ | ⟨k, i, hbit, hused, herr⟩
      · refine .inl ⟨hok, fun k i hbit => ?_⟩
        cases k with
        | zero => exact used_iff.2 (hhead i (lt_eight_of_bitAt hbit) hbit)
        | succ k => rw [Nat.add_comm k, ← Nat.add_assoc]; exact hall k i hbit
      · rw [Nat.add_assoc, Nat.add_comm 1] at hused herr
        exact .inr ⟨k + 1, i, hbit, hused, herr⟩
    · rw [checkUnused, if_neg hb]
      rw [or_usedBits_eq_iff] at hb
      push Not at hb
      obtain ⟨i, -, hbit, hno⟩ := hb
      exact .inr ⟨0, i, hbit, fun h => hno (used_iff.1 h), rfl⟩

/-! ## Unpacking under each policy -/

theorem unpackGroup_of_ignore {c : Config} (hu : c.unused = .ignore) (g : Kind) (k : Nat) (bs : List Byte) :
    unpackGroup c g k bs = unpackFields c bs (g.base k) (c.fields g) (g.idBase k) := by
  rw [unpackGroup, hu]

/-- Where the check passes, `reject` gives what the fields give. -/
theorem unpackGroup_of_check_ok {c : Config} {g : Kind} {k : Nat} {bs : List Byte}
    (h : checkUnused (c.fields g) (g.base k) 0 bs = .ok ()) :
    unpackGroup c g k bs = unpackFields c bs (g.base k) (c.fields g) (g.idBase k) := by
  unfold unpackGroup
  split
  · rfl
  · split
    · rw [h, except_ok_bind]
    · cases unpackFields c bs (g.base k) (c.fields g) (g.idBase k) <;> simp [h, pure, Except.pure]

/-- Where the fields decode, `reject` gives the error of the check, in either order of the two (assumption 6). -/
theorem unpackGroup_of_check_error {c : Config} (hu : c.unused = .reject) {g : Kind} {k : Nat} {bs : List Byte} {r : Record}
    {e : Err} (hr : unpackFields c bs (g.base k) (c.fields g) (g.idBase k) = .ok r)
    (h : checkUnused (c.fields g) (g.base k) 0 bs = .error e) : unpackGroup c g k bs = .error e := by
  unfold unpackGroup
  rw [hu]
  cases c.unusedFirst <;> simp [h, hr]

/-- Decoding reads no part of the configuration: `W2D_HIGH_POLICY` has one value. -/
theorem decField_config (c c' : Config) (f : FieldSpec) (id pos u : Nat) :
    decField c f id pos u = decField c' f id pos u := by
  unfold decField
  cases c.w2dHigh
  cases c'.w2dHigh
  rfl

theorem unpackFields_config (c c' : Config) (bs : List Byte) (base : Nat) (fs : List FieldSpec) (id : Nat) :
    unpackFields c bs base fs id = unpackFields c' bs base fs id := by
  induction fs generalizing id with
  | nil => rfl
  | cons f fs ih => rw [unpackFields, unpackFields, decField_config c c', ih]

/-- The policy on unused bits is no part of a table. -/
theorem fields_withUnused (c : Config) (p : UnusedPolicy) (g : Kind) :
    ({ c with unused := p } : Config).fields g = c.fields g := by
  cases g <;> rfl

/-- Unpacking with the policy set to `ignore` decodes the fields of the same table. -/
theorem unpackGroup_withIgnore (c : Config) (g : Kind) (k : Nat) (bs : List Byte) :
    unpackGroup { c with unused := .ignore } g k bs = unpackFields c bs (g.base k) (c.fields g) (g.idBase k) := by
  rw [unpackGroup_of_ignore rfl, fields_withUnused]
  exact unpackFields_config _ _ _ _ _ _

/-- Settles O41: packing sets covered bits only, decoding reads covered bits only, and the check reports a byte with an uncovered
one. -/
theorem unusedBits : Obligations.UnusedBits := by
  intro c g k hc
  refine ⟨fun r bs n i hpack hr _ hused => ?_, fun hu bs bs' _ _ hsame => ?_, fun hu bs _ => ⟨fun hall => ?_, ?_⟩⟩
  · obtain ⟨bs', hpack', -, hcov, -⟩ := packGroup_spec hc k hr
    obtain rfl := Except.ok.inj (hpack'.symm.trans hpack)
    exact Bool.eq_false_iff.2 fun hbit => hused (hcov n i hbit)
  · rw [unpackGroup_of_ignore hu, unpackGroup_of_ignore hu]
    exact unpackFields_congr (Config.table_ok hc g).good fun n i _ hhit => hsame n i (used_iff.2 hhit)
  · rw [unpackGroup_withIgnore]
    refine unpackGroup_of_check_ok (checkUnused_of_covered fun n i _ hbit => ?_)
    rw [Nat.zero_add]
    exact used_iff.1 (hall n i hbit)
  · rintro r hr ⟨n, i, hbit, hused⟩
    rw [unpackGroup_withIgnore] at hr
    rcases checkUnused_cases (c.fields g) (g.base k) 0 bs with ⟨-, hcov⟩ | ⟨n', i', hbit', hused', herr⟩
    · exact absurd (Nat.zero_add n ▸ hcov n i hbit) hused
    · rw [Nat.zero_add] at hused' herr
      exact ⟨n', i', hbit', hused', unpackGroup_of_check_error hu hr herr⟩

end Sys2Proof.Machine

/-! SUPPORT. The group runs of the standard tables by byte (R126, R127, R129, R130): what a run of fields whose ranges are full
unpacks to, by one induction; that evaluated on the four tables; and the packed run, read off from it because a run is known by its
record and its unused bits. -/

namespace Sys2Proof.Machine

open Sys2Proof.Claims

/-! ## Fields whose range is all that their slices carry -/

/-- A field that refuses no coded value but the reserved one of an SGN field. -/
def fullRange (f : FieldSpec) : Bool := f.codedRange == (f.min, f.max)

/-- The value a field reads as in a run, the reserved code apart. -/
def readField (bytes : List Byte) (f : FieldSpec) : Int :=
  if f.cls = .sgn then display7 (gatherField f bytes) else gatherField f bytes

/-- A field of full range decodes to what it reads as, but for the reserved code of an SGN field (R112, R124). -/
theorem decField_of_fullRange {c : Config} {len : Nat} {f : FieldSpec} (hg : f.Good len) (hf : fullRange f = true)
    (id pos : Nat) (bytes : List Byte) : decField c f id pos (gatherField f bytes) =
      if f.cls = .sgn ∧ gatherField f bytes = 64 then .error (invalidCodeErr id pos) else .ok (readField bytes f) := by
  have hlt := gatherField_lt hg bytes
  have hrange : f.codedRange = (f.min, f.max) := beq_iff_eq.1 hf
  by_cases hs : f.cls = .sgn
  · simp only [FieldSpec.codedRange, hs, Prod.mk.injEq] at hrange
    rw [hg.sgn hs] at hlt
    rw [decField_of_sgn hs]
    by_cases h64 : gatherField f bytes = 64
    · rw [if_pos ⟨hs, h64⟩, h64, w2d_64, except_error_bind]
    · have hin : f.inRange (display7 (gatherField f bytes)) = true := by
        rw [FieldSpec.inRange_iff, ← hrange.1, ← hrange.2, display7]
        split <;> omega
      rw [if_neg (fun h => h64 h.2), w2d_of_le (by omega) h64, except_ok_bind, readField, if_pos hs, ← display7,
        check_eq_ok.2 hin]
      rfl
  · have hcoded : f.codedRange = (0, 2 ^ f.width - 1) := by
      unfold FieldSpec.codedRange
      split
      · contradiction
      · rfl
    have hin : f.inRange (gatherField f bytes : Int) = true := by
      rw [hcoded, Prod.mk.injEq] at hrange
      rw [FieldSpec.inRange_iff, ← hrange.1, ← hrange.2]
      have : (gatherField f bytes : Int) < ((2 ^ f.width : Nat) : Int) := Int.ofNat_lt.2 hlt
      push_cast at this
      omega
    rw [decField_of_ne_sgn hs, if_neg (fun h => hs h.1), check_eq_ok.2 hin, readField, if_neg hs]
    rfl

/-- The SGN fields of a table in `j` order: the wire value, the id and the offset at which an error is reported. -/
def sgnEntries (bytes : List Byte) (base : Nat) : List FieldSpec → Nat → List (Nat × Nat × Nat)
  | [], _ => []
  | f :: fs, id =>
    (if f.cls = .sgn then [(gatherField f bytes, id, base + f.firstByte)] else []) ++ sgnEntries bytes base fs (id + 1)

/-- The record, or the error of the first entry that holds the reserved code. -/
def unlessReserved (l : List (Nat × Nat × Nat)) (r : Record) : Except Err Record :=
  match firstReserved l with
  | some (_, id, off) => .error (invalidCodeErr id off)
  | none => .ok r

theorem unlessReserved_of_some {l : List (Nat × Nat × Nat)} {u id off : Nat} (h : firstReserved l = some (u, id, off))
    (r : Record) : unlessReserved l r = .error (invalidCodeErr id off) := by
  rw [unlessReserved, h]

theorem unlessReserved_of_none {l : List (Nat × Nat × Nat)} (h : firstReserved l = none) (r : Record) :
    unlessReserved l r = .ok r := by
  rw [unlessReserved, h]

theorem unlessReserved_eq_ok {l : List (Nat × Nat × Nat)} {r r' : Record} (h : unlessReserved l r = .ok r') : r = r' := by
  unfold unlessReserved at h
  split at h
  · cases h
  · exact Except.ok.inj h

theorem unlessReserved_cons (u id off : Nat) (l : List (Nat × Nat × Nat)) (r : Record) :
    unlessReserved ((u, id, off) :: l) r = if u = 64 then .error (invalidCodeErr id off) else unlessReserved l r := by
  by_cases h : u = 64 <;> simp [unlessReserved, firstReserved, h]

/-- A value in front of a record changes nothing of the error. -/
theorem unlessReserved_bind_cons (l : List (Nat × Nat × Nat)) (v : Int) (r : Record) :
    (unlessReserved l r >>= fun vs => pure (v :: vs)) = unlessReserved l (v :: r) := by
  cases h : firstReserved l with
  | none => rw [unlessReserved_of_none h, unlessReserved_of_none h]; rfl
  | some t => rw [unlessReserved_of_some h, unlessReserved_of_some h]; rfl

/-- A table of full ranges unpacks to what its fields read as, or to the first SGN field that holds 64. -/
theorem unpackFields_of_fullRange {c : Config} {bytes : List Byte} {base len : Nat} {fs : List FieldSpec}
    (hg : ∀ f ∈ fs, f.Good len) (hf : ∀ f ∈ fs, fullRange f = true) (id : Nat) :
    unpackFields c bytes base fs id = unlessReserved (sgnEntries bytes base fs id) (fs.map (readField bytes)) := by
  induction fs generalizing id with
  | nil => rfl
  | cons f fs ih =>
    rw [unpackFields, ih (fun g h => hg g (by simp [h])) (fun g h => hf g (by simp [h])),
      decField_of_fullRange (hg f (by simp)) (hf f (by simp)), sgnEntries, List.map_cons]
    by_cases hs : f.cls = .sgn
    · rw [if_pos hs, List.singleton_append, unlessReserved_cons]
      by_cases h64 : gatherField f bytes = 64
      · rw [if_pos ⟨hs, h64⟩, if_pos h64, except_error_bind]
      · rw [if_neg (fun h => h64 h.2), if_neg h64, except_ok_bind, unlessReserved_bind_cons]
    · rw [if_neg hs, if_neg (fun h => hs h.1), List.nil_append, except_ok_bind, unlessReserved_bind_cons]

/-! ## The standard tables -/

/-- The parameters of R7 with a policy for the aux fields. -/
def stdConfig (p : LfoAuxPolicy) : Config := { Config.standard with lfoAux := p }

theorem stdConfig_wf (p : LfoAuxPolicy) : (stdConfig p).wf = true := by
  cases p <;> decide

theorem stdConfig_fullRange (p : LfoAuxPolicy) (g : Kind) : ∀ f ∈ (stdConfig p).fields g, fullRange f = true := by
  cases g <;> cases p <;> decide

/-- The record of a run of a kind under a policy for the aux fields. -/
def stdRecord (p : LfoAuxPolicy) (g : Kind) (b : Nat → Nat) : Record :=
  match g with
  | .env => envRecord b
  | .lfo => lfoHeld p (lfoRecord b)
  | .osc => oscRecord b
  | .misc => miscRecord b

/-- The SGN fields of a run of a kind: the wire value, the id and the logical offset. -/
def stdReserved (g : Kind) (base id : Nat) (b : Nat → Nat) : List (Nat × Nat × Nat) :=
  match g with
  | .env => [(b 0 / 2, id + 0, base + 0), (b 1 / 2, id + 1, base + 1), (b 2 / 2, id + 2, base + 2)]
  | .lfo => []
  | .osc => [(b 3 / 2, id + 4, base + 3), (b 4 / 2, id + 5, base + 4), (b 8 / 2, id + 11, base + 8),
      (b 9 / 2, id + 12, base + 9)]
  | .misc => [(b 0 % 128, id + 0, base + 0), (b 4 / 2, id + 9, base + 4), (b 5 / 2, id + 10, base + 5),
      (b 8 / 2, id + 15, base + 8)]

/-- The run of a record of a kind. -/
def stdRun (g : Kind) (r : Record) : List Int :=
  match g with
  | .env => envRun r
  | .lfo => lfoRun r
  | .osc => oscRun r
  | .misc => miscRun r

/-! ## The bits of a byte as a number -/

/-- Byte `n` of a run as a number. -/
def byteNat (bytes : List Byte) (n : Nat) : Nat := (bytes.getD n 0).toNat

theorem byteNat_lt (bytes : List Byte) (n : Nat) : byteNat bytes n < 256 := (bytes.getD n 0).isLt

/-- A run is known by its bytes as numbers. -/
theorem map_byteNat (bytes : List Byte) :
    (List.range bytes.length).map (BitVec.ofInt 8 ∘ fun n => (byteNat bytes n : Int)) = bytes := by
  refine List.ext_getElem (by simp) fun n h1 h2 => ?_
  simp [byteNat, h2]

/-- The bits from `lo` up to the top of a byte. -/
theorem bits_to_top (bytes : List Byte) (n : Nat) {lo : Nat} (h : lo ≤ 7) :
    bits (byteNat bytes n) 7 lo = byteNat bytes n / 2 ^ lo := by
  rw [bits, Nat.shiftRight_eq_div_pow, Nat.mod_eq_of_lt]
  rw [Nat.div_lt_iff_lt_mul (Nat.two_pow_pos lo), ← Nat.pow_add, show 7 - lo + 1 + lo = 8 by omega]
  exact byteNat_lt bytes n

/-- The bits `hi` down to `lo` below the top of a byte. -/
theorem bits_below_top (v : Nat) {hi lo : Nat} (_ : hi < 7) : bits v hi lo = v / 2 ^ lo % 2 ^ (hi - lo + 1) := by
  rw [bits, Nat.shiftRight_eq_div_pow]

/-- A field of one slice is gathered from that slice alone. -/
theorem gatherField_oneSlice {f : FieldSpec} {n hi lo : Nat} (h : f.slices = oneSlice n hi lo) (bytes : List Byte) :
    gatherField f bytes = bits (byteNat bytes n) hi lo := by
  rw [gatherField, h]
  simp [oneSlice, byteNat]

@[simp] theorem readField_rawField (bytes : List Byte) (n hi lo : Nat) :
    readField bytes (rawField n hi lo) = bits (byteNat bytes n) hi lo := by
  rw [readField, gatherField_oneSlice rfl]; rfl

@[simp] theorem readField_auxField (bytes : List Byte) (n hi lo : Nat) :
    readField bytes (auxField n hi lo) = bits (byteNat bytes n) hi lo := by
  rw [readField, gatherField_oneSlice rfl]; rfl

@[simp] theorem readField_srcField (bytes : List Byte) (n lo : Nat) :
    readField bytes (srcField n lo) = bits (byteNat bytes n) (lo + 3) lo := by
  rw [readField, gatherField_oneSlice rfl]; rfl

@[simp] theorem readField_boolField (bytes : List Byte) (n b : Nat) :
    readField bytes (boolField n b) = bits (byteNat bytes n) b b := by
  rw [readField, gatherField_oneSlice rfl]; rfl

@[simp] theorem readField_sgnField (bytes : List Byte) (n lo : Nat) :
    readField bytes (sgnField n lo) = display7 (bits (byteNat bytes n) (lo + 6) lo) := by
  rw [readField, gatherField_oneSlice rfl]; rfl

/-- The two slices of the LFO source: its high bits in byte 1, its low bits in byte 2 (R127). -/
@[simp] theorem readField_lfoSource (bytes : List Byte) :
    readField bytes lfoSourceField = (4 * (byteNat bytes 1 / 64) + byteNat bytes 2 / 64 : Nat) := by
  have h1 := bits_to_top bytes 1 (lo := 6) (by decide)
  have h2 := bits_to_top bytes 2 (lo := 6) (by decide)
  have hlt := byteNat_lt bytes 2
  have hg : gatherField lfoSourceField bytes = bits (byteNat bytes 1) 7 6 <<< 2 ||| bits (byteNat bytes 2) 7 6 := by
    simp [gatherField, lfoSourceField, byteNat]
  rw [readField, if_neg (by decide), hg, h1, h2, ← Nat.shiftLeft_add_eq_or_of_lt (by omega), Nat.shiftLeft_eq,
    Nat.mul_comm]
  rfl

/-! ## What a run of a standard table reads as -/

/-- Under `drop` the LFO table is its first six rows (R128). -/
theorem stdConfig_drop_lfo : (stdConfig .drop).fields .lfo = stdLfoFields.take 6 := by decide

/-- The fields of a standard table read as the record of the run. -/
theorem map_readField_std (p : LfoAuxPolicy) (g : Kind) (bytes : List Byte) :
    ((stdConfig p).fields g).map (readField bytes) = stdRecord p g (byteNat bytes) := by
  cases g with
  | env => simp [stdConfig, Config.fields, Config.standard, stdEnvFields, bits_to_top, stdRecord, envRecord]
  | lfo =>
    have h : stdLfoFields.map (readField bytes) = lfoRecord (byteNat bytes) := by
      simp [stdLfoFields, bits_to_top, bits_below_top, lfoRecord]
    cases p with
    | preserve => exact h
    | drop => rw [stdConfig_drop_lfo, List.map_take, h]; rfl
  | osc =>
    simp [stdConfig, Config.fields, Config.standard, stdOscFields, bits_to_top, bits_below_top, stdRecord, oscRecord]
  | misc =>
    simp [stdConfig, Config.fields, Config.standard, stdMiscFields, bits_to_top, bits_below_top, stdRecord, miscRecord]

@[simp] theorem rawField_cls (n hi lo : Nat) : (rawField n hi lo).cls = .raw := rfl
@[simp] theorem auxField_cls (n hi lo : Nat) : (auxField n hi lo).cls = .aux := rfl
@[simp] theorem srcField_cls (n lo : Nat) : (srcField n lo).cls = .src := rfl
@[simp] theorem boolField_cls (n b : Nat) : (boolField n b).cls = .bool := rfl

@[simp] theorem sgnField_cls (n lo : Nat) : (sgnField n lo).cls = .sgn := rfl
@[simp] theorem sgnField_firstByte (n lo : Nat) : (sgnField n lo).firstByte = n := rfl

@[simp] theorem gatherField_sgnField (bytes : List Byte) (n lo : Nat) :
    gatherField (sgnField n lo) bytes = bits (byteNat bytes n) (lo + 6) lo := gatherField_oneSlice rfl bytes

/-- The SGN fields of a standard table with the places at which they are reported. -/
theorem sgnEntries_std (p : LfoAuxPolicy) (g : Kind) (bytes : List Byte) (base id : Nat) :
    sgnEntries bytes base ((stdConfig p).fields g) id = stdReserved g base id (byteNat bytes) := by
  cases g with
  | env => simp [stdConfig, Config.fields, Config.standard, stdEnvFields, sgnEntries, bits_to_top, stdReserved]
  | lfo => cases p <;> rfl
  | osc => simp [stdConfig, Config.fields, Config.standard, stdOscFields, sgnEntries, bits_to_top, stdReserved]
  | misc =>
    simp [stdConfig, Config.fields, Config.standard, stdMiscFields, sgnEntries, bits_to_top, bits_below_top, stdReserved]

/-! ## The run of a record that was read -/

theorem wire7_display7 {w : Nat} (h : w < 128) : wire7 (display7 w) = w := by
  unfold wire7 display7
  split <;> omega

/-- How many of the low bits of byte `n` of a run no slice of the standard table covers (R65). -/
def lowUnused (p : LfoAuxPolicy) (g : Kind) (n : Nat) : Nat :=
  match g with
  | .env => if n ∈ [0, 1, 2] then 1 else if n = 7 then 2 else 0
  | .lfo =>
    match p with
    | .preserve => 0
    | .drop => if n ∈ [1, 2] then 6 else 0
  | .osc => if n = 1 then 3 else if n ∈ [3, 4, 6, 8, 9] then 1 else 0
  | .misc => if n ∈ [4, 5, 8] then 1 else 0

/-- The low bits of `lowUnused` are covered by no slice. -/
theorem lowUnused_spec (p : LfoAuxPolicy) (g : Kind) : ∀ n < g.runLen, ∀ i < lowUnused p g n,
    (((stdConfig p).fields g).flatMap (·.slices)).any (fun sl => sl.hits n i) = false := by
  cases p <;> cases g <;> decide

/-- A byte whose low bits are clear. -/
theorem mod_two_pow_of_clear {bytes : List Byte} {n m : Nat} (h : ∀ i < m, bitAt bytes n i = false) :
    byteNat bytes n % 2 ^ m = 0 := by
  apply Nat.eq_of_testBit_eq
  intro i
  rw [Nat.testBit_mod_two_pow, Nat.zero_testBit, Bool.and_eq_false_imp]
  intro hi
  exact h i (of_decide_eq_true hi)

/-- The run of the record that a run of clear unused bits reads as is that run, byte by byte. -/
theorem stdRun_stdRecord (p : LfoAuxPolicy) (g : Kind) {b : Nat → Nat} (hb : ∀ n, b n < 256)
    (hclear : ∀ n < g.runLen, b n % 2 ^ lowUnused p g n = 0) :
    stdRun g (stdRecord p g b) = (List.range g.runLen).map fun n => (b n : Int) := by
  have hw : ∀ n, wire7 (display7 (b n / 2)) = (b n / 2 : Nat) := fun n => wire7_display7 (by have := hb n; omega)
  have hw' : ∀ n, wire7 (display7 (b n % 128)) = (b n % 128 : Nat) := fun n => wire7_display7 (by omega)
  cases g with
  | env =>
    have h0 : b 0 % 2 = 0 := hclear 0 (by decide)
    have h1 : b 1 % 2 = 0 := hclear 1 (by decide)
    have h2 : b 2 % 2 = 0 := hclear 2 (by decide)
    have h7 : b 7 % 4 = 0 := hclear 7 (by decide)
    simp [stdRun, stdRecord, envRun, envRecord, val, hw, Kind.runLen, List.range, List.range.loop]
    omega
  | lfo =>
    have hb1 := hb 1
    have hb2 := hb 2
    cases p with
    | preserve =>
      simp [stdRun, stdRecord, lfoRun, lfoHeld, lfoRecord, val, Kind.runLen, List.range, List.range.loop]
      omega
    | drop =>
      have h1 : b 1 % 64 = 0 := hclear 1 (by decide)
      have h2 : b 2 % 64 = 0 := hclear 2 (by decide)
      simp [stdRun, stdRecord, lfoRun, lfoHeld, lfoRecord, val, Kind.runLen, List.range, List.range.loop]
      omega
  | osc =>
    have h1 : b 1 % 8 = 0 := hclear 1 (by decide)
    have h3 : b 3 % 2 = 0 := hclear 3 (by decide)
    have h4 : b 4 % 2 = 0 := hclear 4 (by decide)
    have h6 : b 6 % 2 = 0 := hclear 6 (by decide)
    have h8 : b 8 % 2 = 0 := hclear 8 (by decide)
    have h9 : b 9 % 2 = 0 := hclear 9 (by decide)
    simp [stdRun, stdRecord, oscRun, oscRecord, val, hw, Kind.runLen, List.range, List.range.loop]
    omega
  | misc =>
    have h4 : b 4 % 2 = 0 := hclear 4 (by decide)
    have h5 : b 5 % 2 = 0 := hclear 5 (by decide)
    have h8 : b 8 % 2 = 0 := hclear 8 (by decide)
    simp [stdRun, stdRecord, miscRun, miscRecord, val, hw, hw', Kind.runLen, List.range, List.range.loop]
    omega

/-! ## Packing and unpacking under a standard table -/

/-- The table of a kind is the standard one (R126, R127, R129, R130). -/
def StdTable (c : Config) (g : Kind) : Prop := c.fields g = (stdConfig c.lfoAux).fields g

theorem stdTable_env {c : Config} (h : c.envFields = stdEnvFields) : StdTable c .env := h
theorem stdTable_osc {c : Config} (h : c.oscFields = stdOscFields) : StdTable c .osc := h
theorem stdTable_misc {c : Config} (h : c.miscFields = stdMiscFields) : StdTable c .misc := h

theorem stdTable_lfo {c : Config} (h : c.lfoFields = stdLfoFields) : StdTable c .lfo := by
  rw [StdTable, Config.fields, h]; rfl

/-- Unpacking under a standard table: the record of the run, or the first SGN field that holds 64. -/
theorem unpackGroup_std {c : Config} {g : Kind} (ht : StdTable c g) (hu : c.unused = .ignore) (k : Nat) (bytes : List Byte) :
    unpackGroup c g k bytes = unlessReserved (stdReserved g (g.base k) (g.idBase k) (byteNat bytes))
      (stdRecord c.lfoAux g (byteNat bytes)) := by
  rw [unpackGroup_of_ignore hu, ht, unpackFields_of_fullRange (Config.table_ok (stdConfig_wf _) g).good
    (stdConfig_fullRange _ g), sgnEntries_std, map_readField_std]

/-- Packing under a standard table: the bytes of the record's run. -/
theorem packGroup_std {c : Config} {g : Kind} (ht : StdTable c g) (k : Nat) {r : Record}
    (hr : recordOk (c.fields g) r = true) : packGroup c g k r = .ok ((stdRun g r).map (BitVec.ofInt 8)) := by
  rw [ht] at hr
  obtain ⟨bs, hpack, hlen, hcov, hunpack⟩ := packGroup_spec (stdConfig_wf c.lfoAux) k hr
  rw [unpackFields_of_fullRange (Config.table_ok (stdConfig_wf _) g).good (stdConfig_fullRange _ g), sgnEntries_std,
    map_readField_std] at hunpack
  have hclear : ∀ n < g.runLen, byteNat bs n % 2 ^ lowUnused c.lfoAux g n = 0 := fun n hn =>
    mod_two_pow_of_clear fun i hi => Bool.eq_false_iff.2 fun hbit => by
      have := used_iff.1 (hcov n i hbit)
      rw [lowUnused_spec _ _ n hn i hi] at this
      cases this
  have hval : stdRecord c.lfoAux g (byteNat bs) = r := unlessReserved_eq_ok hunpack
  have hrun := stdRun_stdRecord _ _ (byteNat_lt bs) hclear
  rw [packGroup, ht, ← congrArg (stdRun g) hval, hrun, List.map_map]
  exact hpack.trans (congrArg _ (hlen ▸ (map_byteNat bs).symm))

end Sys2Proof.Machine

/-! SUPPORT. The commands that pack or unpack one part of a patch: each is its checks and then one run written to LB or one record
written to the slot. -/

namespace Sys2Proof.Machine

open Sys2Proof.Claims

/-! ## The check of a group's index (R172) -/

section
variable {s : State} {g : Kind} {k : Half} {body : Nat → Cmd State}

theorem complete_instanceOperand_of_ge (h : g.count ≤ k.toNat) :
    complete s (instanceOperand g k >>= body) = .next (failed s 6 2 k.toNat) := by
  rw [instanceOperand_of_ge h]; rfl

theorem complete_instanceOperand_of_lt (h : k.toNat < g.count) :
    complete s (instanceOperand g k >>= body) = complete s (body k.toNat) := by
  rw [instanceOperand_of_lt h]; rfl

/-- A command on a slot that exists and a group of it that does not. -/
theorem complete_slot_group_of_ge {a : Byte} {body : Nat → Nat → Cmd State} (h : a.toNat < 40) (hk : g.count ≤ k.toNat) :
    complete s (slotOperand a >>= fun i => instanceOperand g k >>= body i) = .next (failed s 6 2 k.toNat) :=
  (complete_slotOperand_of_lt h).trans (complete_instanceOperand_of_ge hk)

end

/-- The slot's groups by name. -/
theorem Patch.group_env (p : Patch) {k : Nat} (h : k < 4) : p.group .env k = p.env[k] := by simp [Patch.group, h]
theorem Patch.group_lfo (p : Patch) {k : Nat} (h : k < 3) : p.group .lfo k = p.lfo[k] := by simp [Patch.group, h]
theorem Patch.group_osc (p : Patch) {k : Nat} (h : k < 3) : p.group .osc k = p.osc[k] := by simp [Patch.group, h]

/-! ## The default run -/

/-- Settles O3: a closed run, evaluated group by group. -/
theorem defaultRun : Obligations.DefaultRun := by
  unfold Obligations.DefaultRun
  decide

/-! ## The name -/

/-- PACK_NAME with a slot that exists writes the normalised name. -/
theorem exec_packName {s : State} {a : Byte} (h : a.toNat < 40) :
    exec (.packName a) s = .next (done { s with lb := s.lb.writeRun 0 (norm (s.slot a.toNat).name) }) := by
  rw [exec, execPackName, complete_slotOperand_of_lt h, memWrite_of_le (by rw [length_norm]; decide)]
  rfl

/-- UNPACK_NAME with a slot that exists takes the first six bytes of LB. -/
theorem exec_unpackName {s : State} {a : Byte} (h : a.toNat < 40) :
    exec (.unpackName a) s =
      .next (done (withPatch s a.toNat { s.slot a.toNat with name := s.lb.readRun 0 nameLen })) := by
  rw [exec, execUnpackName, complete_slotOperand_of_lt h, memRead_of_le (by decide)]
  rfl

/-- Settles O29: the normalised name, byte by byte, in front of what LB held. -/
theorem packName : Obligations.PackName := by
  intro s a
  refine ⟨decodeEncode (.packName a), fun h => complete_slotOperand_of_ge h, fun h => ⟨_, exec_packName h, fun x => ?_⟩⟩
  rw [Memory.read_writeRun, length_norm, State.slot_of_lt s h]
  by_cases hx : x < 6
  · rw [if_pos hx, if_pos (by omega), Nat.sub_zero, List.getD_eq_getElem?_getD, getElem?_norm, if_pos hx]
    cases s.pstore[a.toNat].name[x]? with
    | none => rfl
    | some b => exact upperByte_eq b
  · rw [if_neg hx, if_neg (by omega)]

/-- Settles O35: the six bytes are read and become the name. -/
theorem unpackName : Obligations.UnpackName := by
  intro s a
  refine ⟨decodeEncode (.unpackName a), fun h => complete_slotOperand_of_ge h, fun h => ?_⟩
  rw [exec_unpackName h, State.slot_of_lt s h]
  rfl

/-! ## Packing a group -/

/-- The command that packs group `k` of a kind. -/
def packInstr (a : Byte) (g : Kind) (k : Half) : Instr :=
  match g with
  | .env => .packEnv a k
  | .lfo => .packLfo a k
  | .osc => .packOsc a k
  | .misc => .packMisc a

theorem exec_packInstr {s : State} {a : Byte} {g : Kind} {k : Half} (h : a.toNat < 40) (hk : k.toNat < g.count) :
    exec (packInstr a g k) s = complete s (packInto s g a.toNat k.toNat) := by
  cases g with
  | misc =>
    have hk0 : k.toNat = 0 := Nat.lt_one_iff.1 hk
    rw [hk0]
    exact complete_slotOperand_of_lt h
  | _ => exact (complete_slotOperand_of_lt h).trans (complete_instanceOperand_of_lt hk)

/-- A group that packs to a run of its length has that run written at its base. -/
theorem exec_packInstr_of_ok {s : State} {a : Byte} {g : Kind} {k : Half} {bs : List Byte} (h : a.toNat < 40)
    (hk : k.toNat < g.count) (hpack : packGroup s.cfg g k.toNat ((s.slot a.toNat).group g k.toNat) = .ok bs)
    (hlen : bs.length = g.runLen) :
    exec (packInstr a g k) s = .next (done { s with lb := s.lb.writeRun (g.base k.toNat) bs }) := by
  rw [exec_packInstr h hk, packInto, hpack, lift_ok, cmd_ok_bind,
    memWrite_of_le (by rw [hlen]; exact groupRun_inside g hk)]
  rfl

/-- LB after the bytes of a run are written. -/
theorem lbIs_writeRun (s : State) (base : Nat) (run : List Int) :
    LbIs (s.lb.writeRun base (run.map (BitVec.ofInt 8))) s base run := by
  intro x
  rw [Memory.read_writeRun, List.length_map]
  by_cases hx : base ≤ x ∧ x < base + run.length
  · have hlt : x - base < run.length := by omega
    rw [if_pos hx, if_pos hx]
    simp [hlt]
  · rw [if_neg hx, if_neg hx]

theorem length_stdRun (g : Kind) (r : Record) : (stdRun g r).length = g.runLen := by
  cases g <;> rfl

/-- Packing a group of the store under a standard table. -/
theorem exec_packInstr_std {s : State} {a : Byte} {g : Kind} {k : Half} {r : Record} (h : a.toNat < 40)
    (hk : k.toNat < g.count) (hs : s.StoreOk) (ht : StdTable s.cfg g) (hr : s.pstore[a.toNat].group g k.toNat = r) :
    ∃ m, exec (packInstr a g k) s = .next (done { s with lb := m }) ∧ LbIs m s (g.base k.toNat) (stdRun g r) := by
  subst hr
  have hok := (Patch.ok_iff.1 (storeOk_slot hs h)).2 g k.toNat hk
  have hpack := packGroup_std ht k.toNat hok
  rw [← State.slot_of_lt s h]
  exact ⟨_, exec_packInstr_of_ok h hk hpack (by rw [List.length_map, length_stdRun]), lbIs_writeRun _ _ _⟩

/-- Settles O30: the two checks, then the run of the envelope at its base. -/
theorem packEnv : Obligations.PackEnv := fun _ a k =>
  ⟨decodeEncode (.packEnv a k), fun h => complete_slotOperand_of_ge h, fun h hk => complete_slot_group_of_ge h hk,
    fun h hk hs ht => exec_packInstr_std (g := .env) h hk hs (stdTable_env ht) (Patch.group_env _ hk)⟩

/-- Settles O31: the two checks, then the run of the LFO at its base; under `drop` the table, and so the record, ends before the
aux fields. -/
theorem packLfo : Obligations.PackLfo := fun _ a k =>
  ⟨decodeEncode (.packLfo a k), fun h => complete_slotOperand_of_ge h, fun h hk => complete_slot_group_of_ge h hk,
    fun h hk hs ht => exec_packInstr_std (g := .lfo) h hk hs (stdTable_lfo ht) (Patch.group_lfo _ hk)⟩

/-- Settles O32: the two checks, then the run of the oscillator at its base. -/
theorem packOsc : Obligations.PackOsc := fun _ a k =>
  ⟨decodeEncode (.packOsc a k), fun h => complete_slotOperand_of_ge h, fun h hk => complete_slot_group_of_ge h hk,
    fun h hk hs ht => exec_packInstr_std (g := .osc) h hk hs (stdTable_osc ht) (Patch.group_osc _ hk)⟩

/-- Settles O33: the slot check, then the run of the MISC block at 88. -/
theorem packMisc : Obligations.PackMisc := fun _ a =>
  ⟨decodeEncode (.packMisc a), fun h => complete_slotOperand_of_ge h,
    fun h hs ht => exec_packInstr_std (g := .misc) (k := 0) h Nat.zero_lt_one hs (stdTable_misc ht) rfl⟩

/-! ## Unpacking a group -/

/-- The command that unpacks group `k` of a kind. -/
def unpackInstr (a : Byte) (g : Kind) (k : Half) : Instr :=
  match g with
  | .env => .unpackEnv a k
  | .lfo => .unpackLfo a k
  | .osc => .unpackOsc a k
  | .misc => .unpackMisc a

/-- The run of group `k` of a kind as LB holds it. -/
def lbRun (s : State) (g : Kind) (k : Nat) : List Byte := s.lb.readRun (g.base k) g.runLen

/-- Past its checks an unpack command is the unpacking of the run that LB holds. -/
theorem exec_unpackInstr {s : State} {a : Byte} {g : Kind} {k : Half} (h : a.toNat < 40) (hk : k.toNat < g.count) :
    exec (unpackInstr a g k) s = complete s (lift (unpackGroup s.cfg g k.toNat (lbRun s g k.toNat)) >>= fun r =>
      pure (s.setSlot a.toNat ((s.slot a.toNat).setGroup g k.toNat r))) := by
  have hfrom : exec (unpackInstr a g k) s = complete s (unpackFrom s g a.toNat k.toNat) := by
    cases g with
    | misc =>
      have hk0 : k.toNat = 0 := Nat.lt_one_iff.1 hk
      rw [hk0]
      exact complete_slotOperand_of_lt h
    | _ => exact (complete_slotOperand_of_lt h).trans (complete_instanceOperand_of_lt hk)
  rw [hfrom, unpackFrom, memRead_of_le (groupRun_inside g hk)]
  rfl

theorem exec_unpackInstr_of_ok {s : State} {a : Byte} {g : Kind} {k : Half} {r : Record} (h : a.toNat < 40)
    (hk : k.toNat < g.count) (hr : unpackGroup s.cfg g k.toNat (lbRun s g k.toNat) = .ok r) :
    exec (unpackInstr a g k) s = .next (done (withPatch s a.toNat ((s.slot a.toNat).setGroup g k.toNat r))) := by
  rw [exec_unpackInstr h hk, hr]; rfl

theorem exec_unpackInstr_of_error {s : State} {a : Byte} {g : Kind} {k : Half} {e : Err} (h : a.toNat < 40)
    (hk : k.toNat < g.count) (hr : unpackGroup s.cfg g k.toNat (lbRun s g k.toNat) = .error e) :
    exec (unpackInstr a g k) s = .next (s.statusErr e) := by
  rw [exec_unpackInstr h hk, hr]; rfl

/-- A record is read from the bytes of its run alone, each of which is a byte of LB. -/
theorem stdRecord_lbRun (p : LfoAuxPolicy) (s : State) (g : Kind) (k : Nat) :
    stdRecord p g (byteNat (lbRun s g k)) = stdRecord p g (lbByte s (g.base k)) := by
  cases g <;> rfl

theorem stdReserved_lbRun (base id : Nat) (s : State) (g : Kind) (k : Nat) :
    stdReserved g base id (byteNat (lbRun s g k)) = stdReserved g base id (lbByte s (g.base k)) := by
  cases g <;> rfl

/-- The run of LB unpacked under a standard table. -/
theorem unpackGroup_lbRun_std {s : State} {g : Kind} (ht : StdTable s.cfg g) (hu : s.cfg.unused = .ignore) (k : Nat) :
    unpackGroup s.cfg g k (lbRun s g k) = unlessReserved (stdReserved g (g.base k) (g.idBase k) (lbByte s (g.base k)))
      (stdRecord s.cfg.lfoAux g (lbByte s (g.base k))) := by
  rw [unpackGroup_std ht hu, stdRecord_lbRun, stdReserved_lbRun]

section
variable {s : State} {a : Byte} {g : Kind} {k : Half} {base id : Nat} {b : Nat → Nat}

/-- An SGN field that holds 64 ends the command with its id and offset (R64, R124). -/
theorem exec_unpackInstr_reserved (h : a.toNat < 40) (hk : k.toNat < g.count) (ht : StdTable s.cfg g)
    (hu : s.cfg.unused = .ignore) (hbase : base = g.base k.toNat) (hid : id = g.idBase k.toNat) (hb : b = lbByte s base)
    {t : Nat × Nat × Nat} (hres : firstReserved (stdReserved g base id b) = some t) :
    exec (unpackInstr a g k) s = .next (failed s 4 t.2.1 t.2.2) := by
  subst hbase hid hb
  exact exec_unpackInstr_of_error h hk ((unpackGroup_lbRun_std ht hu _).trans (unlessReserved_of_some hres _))

/-- With none that does, the group takes the record of the run. -/
theorem exec_unpackInstr_plain (h : a.toNat < 40) (hk : k.toNat < g.count) (ht : StdTable s.cfg g)
    (hu : s.cfg.unused = .ignore) (hbase : base = g.base k.toNat) (hid : id = g.idBase k.toNat) (hb : b = lbByte s base)
    (hres : firstReserved (stdReserved g base id b) = none) :
    exec (unpackInstr a g k) s =
      .next (done (withPatch s a.toNat (s.pstore[a.toNat].setGroup g k.toNat (stdRecord s.cfg.lfoAux g b)))) := by
  subst hbase hid hb
  rw [← State.slot_of_lt s h]
  exact exec_unpackInstr_of_ok h hk ((unpackGroup_lbRun_std ht hu _).trans (unlessReserved_of_none hres _))

end

/-- Settles O36: the three levels in `j` order, then the ten values. -/
theorem unpackEnv : Obligations.UnpackEnv := by
  refine fun s a k => ⟨decodeEncode (.unpackEnv a k), fun h => complete_slotOperand_of_ge h,
    fun h hk => complete_slot_group_of_ge h hk, fun h hk base b ht hu hbase hb => ?_⟩
  have hid : 16 * k.toNat = Kind.idBase .env k.toNat := (Nat.zero_add _).symm
  split
  next hres => exact exec_unpackInstr_reserved (g := .env) h hk (stdTable_env ht) hu hbase hid hb hres
  next hres => exact exec_unpackInstr_plain (g := .env) h hk (stdTable_env ht) hu hbase hid hb hres

/-- Settles O37: the LFO has no SGN field, so its run always gives the values. -/
theorem unpackLfo : Obligations.UnpackLfo := by
  refine fun s a k => ⟨decodeEncode (.unpackLfo a k), fun h => complete_slotOperand_of_ge h,
    fun h hk => complete_slot_group_of_ge h hk, fun h r hk ht hu hr => ?_⟩
  subst hr
  exact exec_unpackInstr_plain (g := .lfo) h hk (stdTable_lfo ht) hu rfl rfl rfl rfl

/-- Settles O38: the four amounts in `j` order, then the thirteen values. -/
theorem unpackOsc : Obligations.UnpackOsc := by
  refine fun s a k => ⟨decodeEncode (.unpackOsc a k), fun h => complete_slotOperand_of_ge h,
    fun h hk => complete_slot_group_of_ge h hk, fun h hk base id b ht hu hbase hid hb => ?_⟩
  split
  next hres => exact exec_unpackInstr_reserved (g := .osc) h hk (stdTable_osc ht) hu hbase hid hb hres
  next hres => exact exec_unpackInstr_plain (g := .osc) h hk (stdTable_osc ht) hu hbase hid hb hres

/-- Settles O39: the four SGN fields in `j` order, then the twenty-seven values. -/
theorem unpackMisc : Obligations.UnpackMisc := by
  refine fun s a => ⟨decodeEncode (.unpackMisc a), fun h => complete_slotOperand_of_ge h, fun h b ht hu hb => ?_⟩
  split
  next hres =>
    exact exec_unpackInstr_reserved (g := .misc) (k := 0) h Nat.zero_lt_one (stdTable_misc ht) hu rfl rfl hb hres
  next hres =>
    exact exec_unpackInstr_plain (g := .misc) (k := 0) h Nat.zero_lt_one (stdTable_misc ht) hu rfl rfl hb hres

end Sys2Proof.Machine

/-! SUPPORT. The commands on a whole patch: runs written one after the other are one run, so PACK_PATCH is its twelve packs (R138);
and the twelve unpacks, which stop at the first failure, fail where `deserialize` does and give what it gives (R143, R145). -/

namespace Sys2Proof.Machine

open Sys2Proof.Claims

/-- The groups of a patch by kind and index, in the order of R144. -/
def groupOrder : List (Kind × Half) :=
  [(.env, 0), (.env, 1), (.env, 2), (.env, 3), (.lfo, 0), (.lfo, 1), (.lfo, 2), (.osc, 0), (.osc, 1), (.osc, 2), (.misc, 0)]

/-! ## Runs written one after the other -/

theorem Memory.cells_append (a : Nat) (bs cs : List Byte) :
    Memory.cells a (bs ++ cs) = Memory.cells a bs ++ Memory.cells (a + bs.length) cs := by
  induction bs generalizing a with
  | nil => rfl
  | cons b bs ih =>
    rw [List.cons_append, Memory.cells, Memory.cells, ih, List.length_cons, Nat.add_right_comm, ← Nat.add_assoc]
    split <;> rfl

/-- A run written right behind another one: the two written as one. -/
theorem Memory.writeRun_writeRun (m : Memory) (a : Nat) (bs cs : List Byte) :
    (m.writeRun a bs).writeRun (a + bs.length) cs = m.writeRun a (bs ++ cs) := by
  have hcells : ∀ c ∈ Memory.cells a bs, a ≤ c.1 ∧ c.1 < a + bs.length := fun c hc => Memory.mem_cells hc
  have hbelow : (m.writeRun a bs).filter (fun c => c.1 < a + bs.length) =
      m.filter (fun c => c.1 < a) ++ Memory.cells a bs := by
    have h1 : (m.filter (fun c => c.1 < a)).filter (fun c => c.1 < a + bs.length) = m.filter (fun c => c.1 < a) :=
      List.filter_eq_self.2 fun c hc => by have := (List.mem_filter.1 hc).2; simp at this ⊢; omega
    have h2 : (Memory.cells a bs).filter (fun c => c.1 < a + bs.length) = Memory.cells a bs :=
      List.filter_eq_self.2 fun c hc => by simpa using (hcells c hc).2
    have h3 : (m.filter (fun c => a + bs.length ≤ c.1)).filter (fun c => c.1 < a + bs.length) = [] :=
      List.filter_eq_nil_iff.2 fun c hc => by have := (List.mem_filter.1 hc).2; simp at this ⊢; omega
    rw [Memory.writeRun, List.filter_append, List.filter_append, h1, h2, h3, List.append_nil]
  have habove : (m.writeRun a bs).filter (fun c => a + bs.length + cs.length ≤ c.1) =
      m.filter (fun c => a + (bs ++ cs).length ≤ c.1) := by
    have h1 : (m.filter (fun c => c.1 < a)).filter (fun c => a + bs.length + cs.length ≤ c.1) = [] :=
      List.filter_eq_nil_iff.2 fun c hc => by have := (List.mem_filter.1 hc).2; simp at this ⊢; omega
    have h2 : (Memory.cells a bs).filter (fun c => a + bs.length + cs.length ≤ c.1) = [] :=
      List.filter_eq_nil_iff.2 fun c hc => by have := hcells c hc; simp; omega
    have h3 : (m.filter (fun c => a + bs.length ≤ c.1)).filter (fun c => a + bs.length + cs.length ≤ c.1) =
        m.filter (fun c => a + (bs ++ cs).length ≤ c.1) := by
      rw [List.filter_filter]
      refine List.filter_congr fun c _ => ?_
      rw [List.length_append, ← Bool.decide_and, decide_eq_decide]
      omega
    rw [Memory.writeRun, List.filter_append, List.filter_append, h1, h2, h3, List.nil_append, List.nil_append]
  rw [Memory.writeRun, hbelow, habove, Memory.writeRun, Memory.cells_append, List.append_assoc, List.append_assoc]

/-- Whether the runs of the listed groups stand one after the other from `a` on (R50). -/
def inTurn : Nat → List (Kind × Half) → Bool
  | _, [] => true
  | a, (g, k) :: l => decide (k.toNat < g.count) && g.base k.toNat == a && inTurn (a + g.runLen) l

theorem inTurn_cons {a : Nat} {g : Kind} {k : Half} {l : List (Kind × Half)} :
    inTurn a ((g, k) :: l) = true ↔ (k.toNat < g.count ∧ g.base k.toNat = a) ∧ inTurn (a + g.runLen) l = true := by
  simp [inTurn]

/-! ## Packing a patch -/

/-- The packs of groups that stand one after the other extend the run written so far by theirs. -/
theorem execAll_packInstr {s : State} {a : Byte} {f : Kind → Nat → List Byte} (h : a.toNat < 40)
    (hpack : ∀ g k, k < Kind.count g → packGroup s.cfg g k ((s.slot a.toNat).group g k) = .ok (f g k))
    (hlen : ∀ g k, k < Kind.count g → (f g k).length = g.runLen) {l : List (Kind × Half)} (pre : List Byte)
    (hl : inTurn pre.length l = true) :
    execAll (l.map fun x => packInstr a x.1 x.2) (done { s with lb := s.lb.writeRun 0 pre }) =
      .next (done { s with lb := s.lb.writeRun 0 (pre ++ l.flatMap fun x => f x.1 x.2.toNat) }) := by
  induction l generalizing pre with
  | nil => rw [List.flatMap_nil, List.append_nil]; rfl
  | cons x l ih =>
    obtain ⟨g, k⟩ := x
    obtain ⟨⟨hk, hbase⟩, hrest⟩ := inTurn_cons.1 hl
    have hfk := hlen g k.toNat hk
    have hwrite : (s.lb.writeRun 0 pre).writeRun (g.base k.toNat) (f g k.toNat) = s.lb.writeRun 0 (pre ++ f g k.toNat) := by
      rw [hbase, ← Memory.writeRun_writeRun, Nat.zero_add]
    have hexec : exec (packInstr a g k) (done { s with lb := s.lb.writeRun 0 pre }) =
        .next (done { s with lb := s.lb.writeRun 0 (pre ++ f g k.toNat) }) :=
      (exec_packInstr_of_ok (s := done { s with lb := s.lb.writeRun 0 pre }) h hk (hpack g k.toNat hk) hfk).trans
        (congrArg (fun m => Host.Outcome.next (done { s with lb := m })) hwrite)
    rw [List.map_cons, execAll, hexec, List.flatMap_cons, ← List.append_assoc]
    exact ih _ (by rw [List.length_append, hfk]; exact hrest)

/-- A joined run is the name and the runs of the groups in their order. -/
theorem joinRun_eq (n : List Byte) (f : Kind → Nat → List Byte) :
    joinRun n f = n ++ groupOrder.flatMap fun x => f x.1 x.2.toNat := by
  simp [joinRun, groupOrder, List.flatMap]

/-- PACK_PATCH with a slot that serializes to a run of 102 bytes writes it over LB. -/
theorem exec_packPatch {s : State} {a : Byte} {bs : List Byte} (h : a.toNat < 40)
    (hser : serialize s.cfg (s.slot a.toNat) = .ok bs) (hlen : bs.length = 102) :
    exec (.packPatch a) s = .next (done { s with lb := s.lb.writeRun 0 bs }) := by
  rw [exec, execPackPatch, complete_slotOperand_of_lt h, hser, lift_ok, cmd_ok_bind, memWrite_of_le (by rw [hlen]; decide)]
  rfl

/-- Settles O34: the serialized run is the name and the groups' runs joined, and the twelve packs write just these in turn. -/
theorem packPatchIsTheSequence : Obligations.PackPatchIsTheSequence := by
  refine fun s a => ⟨decodeEncode (.packPatch a), fun h => complete_slotOperand_of_ge h, fun h hinv => ?_⟩
  obtain ⟨f, hpack, hlen, hser, hrun⟩ := serialize_ok hinv.cfg_wf (hinv.slot_ok h)
  have hexec := exec_packPatch h hser hrun
  refine ⟨⟨_, _, State.slot_of_lt s h ▸ hser, hrun, hexec, fun x => ?_⟩, ?_⟩
  · rw [Memory.read_writeRun, hrun, Nat.zero_add, Nat.sub_zero]
    simp
  · have hname : exec (.packName a) s = _ := exec_packName h
    have hgroups := execAll_packInstr h hpack hlen (l := groupOrder) (norm (s.slot a.toNat).name)
      (by rw [length_norm]; decide)
    rw [hexec, joinRun_eq, ← hgroups, execAll, hname]
    rfl

/-! ## Unpacking a patch -/

/-- The groups of a patch replaced one after the other by what their runs unpack to, until one fails. -/
def unpackGroups (c : Config) (b : List Byte) : List (Kind × Half) → Patch → Except Err Patch
  | [], p => .ok p
  | (g, k) :: l, p => do
    let r ← unpackAt c b g k.toNat
    unpackGroups c b l (p.setGroup g k.toNat r)

theorem Vector.setIfInBounds_all_four {α : Type} (v : Vector α 4) (a b c d : α) :
    (((v.setIfInBounds 0 a).setIfInBounds 1 b).setIfInBounds 2 c).setIfInBounds 3 d = #v[a, b, c, d] := by
  apply Vector.ext
  intro i hi
  interval_cases i <;> simp

theorem Vector.setIfInBounds_all_three {α : Type} (v : Vector α 3) (a b c : α) :
    ((v.setIfInBounds 0 a).setIfInBounds 1 b).setIfInBounds 2 c = #v[a, b, c] := by
  apply Vector.ext
  intro i hi
  interval_cases i <;> simp

/-- With every group replaced nothing is left of the old patch but its name. -/
theorem setGroup_all (p : Patch) (e0 e1 e2 e3 l0 l1 l2 o0 o1 o2 m : Record) :
    ((((((((((p.setGroup .env 0 e0).setGroup .env 1 e1).setGroup .env 2 e2).setGroup .env 3 e3).setGroup .lfo 0 l0).setGroup
      .lfo 1 l1).setGroup .lfo 2 l2).setGroup .osc 0 o0).setGroup .osc 1 o1).setGroup .osc 2 o2).setGroup .misc 0 m =
      { name := p.name, env := #v[e0, e1, e2, e3], lfo := #v[l0, l1, l2], osc := #v[o0, o1, o2], misc := m } := by
  simp only [Patch.setGroup, Vector.setIfInBounds_all_four, Vector.setIfInBounds_all_three]

/-- `deserialize` replaces the name and then every group of whatever patch. -/
theorem deserialize_eq_unpackGroups (c : Config) (b : List Byte) (p : Patch) :
    deserialize c b = unpackGroups c b groupOrder { p with name := b.take nameLen } := by
  unfold deserialize groupOrder
  iterate 11 refine congrArg _ (funext fun _ => ?_)
  exact congrArg Except.ok (setGroup_all { p with name := b.take nameLen } _ _ _ _ _ _ _ _ _ _ _).symm

/-- The bytes of LB from `a` on, listed. -/
theorem Memory.readRun_eq_map (m : Memory) (a n : Nat) : m.readRun a n = (List.range n).map fun i => m.read (a + i) :=
  List.ext_getElem (by simp) fun i _ _ => by simp

/-- The run of a group in the first 102 bytes of LB. -/
theorem groupRun_readRun (s : State) {g : Kind} {k : Nat} (hk : k < g.count) :
    groupRun (s.lb.readRun 0 patchLen) g k = lbRun s g k := by
  have hin := groupRun_inside g hk
  apply List.ext_getElem?
  intro i
  rw [groupRun, lbRun, List.getElem?_take, List.getElem?_drop, Memory.getElem?_readRun, Memory.getElem?_readRun, Nat.zero_add]
  by_cases hi : i < g.runLen
  · rw [if_pos hi, if_pos hi, if_pos (by omega)]
  · rw [if_neg hi, if_neg hi]

theorem execUntilError_cons_of_ok {i : Instr} {is : List Instr} {s t : State} (h : exec i s = .next (done t)) :
    execUntilError (i :: is) s = execUntilError is (done t) := by
  rw [execUntilError, h]
  exact if_pos rfl

theorem execUntilError_cons_of_error {i : Instr} {is : List Instr} {s t : State} {e : Err}
    (h : exec i s = .next (t.statusErr e)) : execUntilError (i :: is) s = t.statusErr e := by
  rw [execUntilError, h]
  exact if_neg (errKind_code_ne_zero e.kind)

/-- A slot written twice holds the second patch. -/
theorem done_withPatch_withPatch (s : State) (i : Nat) (p q : Patch) :
    done (withPatch (done (withPatch s i p)) i q) = done (withPatch s i q) := by
  show done ((s.setSlot i p).setSlot i q) = done (s.setSlot i q)
  rw [setSlot_setSlot]

/-- The listed unpacks, each on the slot as the one before left it: all the groups, or the error of the first that fails. -/
theorem execUntilError_unpackInstr {s : State} {a : Byte} (h : a.toNat < 40) {l : List (Kind × Half)}
    (hl : ∀ x ∈ l, x.2.toNat < x.1.count) (p : Patch) :
    (∃ q, unpackGroups s.cfg (s.lb.readRun 0 patchLen) l p = .ok q ∧
      execUntilError (l.map fun x => unpackInstr a x.1 x.2) (done (withPatch s a.toNat p)) = done (withPatch s a.toNat q)) ∨
    ∃ e q, unpackGroups s.cfg (s.lb.readRun 0 patchLen) l p = .error e ∧
      execUntilError (l.map fun x => unpackInstr a x.1 x.2) (done (withPatch s a.toNat p)) =
        (done (withPatch s a.toNat q)).statusErr e := by
  induction l generalizing p with
  | nil => exact .inl ⟨p, rfl, rfl⟩
  | cons x l ih =>
    obtain ⟨g, k⟩ := x
    have hk : k.toNat < g.count := hl (g, k) List.mem_cons_self
    have hslot : (done (withPatch s a.toNat p)).slot a.toNat = p := slot_setSlot h
    have hat : unpackAt s.cfg (s.lb.readRun 0 patchLen) g k.toNat =
        unpackGroup s.cfg g k.toNat (lbRun (done (withPatch s a.toNat p)) g k.toNat) := by
      rw [unpackAt, groupRun_readRun s hk]; rfl
    rw [unpackGroups, hat, List.map_cons]
    cases hr : unpackGroup s.cfg g k.toNat (lbRun (done (withPatch s a.toNat p)) g k.toNat) with
    | ok r =>
      have hexec := exec_unpackInstr_of_ok (s := done (withPatch s a.toNat p)) h hk hr
      rw [hslot, done_withPatch_withPatch] at hexec
      rw [except_ok_bind, execUntilError_cons_of_ok hexec]
      exact ih (fun x hx => hl x (List.mem_cons_of_mem _ hx)) _
    | error e => exact .inr ⟨e, p, rfl, execUntilError_cons_of_error (exec_unpackInstr_of_error h hk hr)⟩

section
variable {s : State} {a : Byte}

theorem exec_unpackPatch_of_ok {p : Patch} (h : a.toNat < 40) (hp : deserialize s.cfg (s.lb.readRun 0 patchLen) = .ok p) :
    exec (.unpackPatch a) s = .next (done (withPatch s a.toNat p)) := by
  rw [exec, execUnpackPatch, complete_slotOperand_of_lt h, memRead_of_le (Nat.le_refl _), cmd_ok_bind]
  rw [State.space_lb, hp]; rfl

theorem exec_unpackPatch_of_error {e : Err} (h : a.toNat < 40)
    (he : deserialize s.cfg (s.lb.readRun 0 patchLen) = .error e) : exec (.unpackPatch a) s = .next (s.statusErr e) := by
  rw [exec, execUnpackPatch, complete_slotOperand_of_lt h, memRead_of_le (Nat.le_refl _), cmd_ok_bind]
  rw [State.space_lb, he]; rfl

/-- UNPACK_NAME and the eleven group unpacks from any state: where LB deserializes they leave that patch in the slot, and where it
does not they stop with the same error. -/
theorem execUntilError_unpackAll (h : a.toNat < 40) :
    (∃ p, deserialize s.cfg (s.lb.readRun 0 patchLen) = .ok p ∧
      execUntilError (.unpackName a :: groupOrder.map fun x => unpackInstr a x.1 x.2) s = done (withPatch s a.toNat p)) ∨
    ∃ e q, deserialize s.cfg (s.lb.readRun 0 patchLen) = .error e ∧
      execUntilError (.unpackName a :: groupOrder.map fun x => unpackInstr a x.1 x.2) s =
        (done (withPatch s a.toNat q)).statusErr e := by
  have hname : (s.lb.readRun 0 patchLen).take nameLen = s.lb.readRun 0 nameLen := rfl
  rw [deserialize_eq_unpackGroups _ _ (s.slot a.toNat), hname, execUntilError_cons_of_ok (exec_unpackName h)]
  exact execUntilError_unpackInstr h (by decide) _

end

/-- Settles O40: both come to `deserialize` on the bytes of LB, and an error leaves the slot to the one command alone. -/
theorem unpackPatchIsTheAtomicSequence : Obligations.UnpackPatchIsTheAtomicSequence := by
  refine fun s a => ⟨decodeEncode (.unpackPatch a), fun h => complete_slotOperand_of_ge h, fun u h hu => ?_, fun p h hp => ?_⟩
  · rcases execUntilError_unpackAll (s := s) h with ⟨p, hp, hseq⟩ | ⟨e, q, he, hseq⟩
    · obtain rfl := hu.trans hseq
      exact ⟨fun _ => exec_unpackPatch_of_ok h hp, fun hne => absurd rfl hne⟩
    · obtain rfl := hu.trans hseq
      exact ⟨fun h0 => absurd h0 (errKind_code_ne_zero e.kind), fun _ => exec_unpackPatch_of_error h he⟩
  · refine exec_unpackPatch_of_ok h ?_
    rw [Memory.readRun_eq_map]
    simpa only [Nat.zero_add] using hp

end Sys2Proof.Machine

/-! SUPPORT. The nibble commands (R152, R153), and DECODE from the bytes in IN: the head, the patches before the place where the parse
stops, and that place. Every outcome of DECODE is the parse's answer, so each statement is the parse at its own place. -/

namespace Sys2Proof.Machine

open Sys2Proof.Claims

/-! ## Nibbles -/

/-- The two nibbles of a byte side by side in 16 bits (R152). -/
theorem expand_append (b : Byte) : (expand b).2 ++ (expand b).1 = BitVec.ofNat 16 (256 * (b.toNat / 16) + b.toNat % 16) := by
  apply BitVec.eq_of_toNat_eq
  rw [BitVec.toNat_append, ← Nat.shiftLeft_add_eq_or_of_lt (expand b).1.isLt, BitVec.toNat_ofNat]
  have hlow : (expand b).1.toNat = b.toNat % 16 := expand_low b
  have hhigh : (expand b).2.toNat = b.toNat / 16 := expand_high b
  have hb : b.toNat < 256 := b.isLt
  rw [hlow, hhigh, Nat.shiftLeft_eq]
  omega

/-- Contracting two nibbles and expanding the byte gives them back. -/
theorem expand_pairByte {lo hi : Byte} (hlo : lo.toNat ≤ 0x0F) (hhi : hi.toNat ≤ 0x0F) :
    expand (pairByte lo hi) = (lo, hi) := by
  have hbyte : (pairByte lo hi).toNat = lo.toNat + 16 * hi.toNat := by
    rw [pairByte, BitVec.toNat_ofNat]
    exact Nat.mod_eq_of_lt (by simp only [zext]; omega)
  have hlow : (expand (pairByte lo hi)).1 = lo := BitVec.eq_of_toNat_eq ((expand_low _).trans (by simp only [zext]; omega))
  have hhigh : (expand (pairByte lo hi)).2 = hi := BitVec.eq_of_toNat_eq ((expand_high _).trans (by simp only [zext]; omega))
  exact Prod.ext hlow hhigh

/-- What a contraction under `reject` answers, and that both bytes were nibbles (R151). -/
theorem contract_reject_eq_ok {lo hi b : Byte} {p : Nat} (h : contract .reject lo hi p = .ok b) :
    lo.toNat ≤ 0x0F ∧ hi.toNat ≤ 0x0F ∧ b = pairByte lo hi := by
  rcases Nat.lt_or_ge 0x0F lo.toNat with hlo | hlo
  · rw [contract_low hlo] at h; cases h
  · rcases Nat.lt_or_ge 0x0F hi.toNat with hhi | hhi
    · rw [contract_high hlo hhi] at h; cases h
    · rw [contract_of_ok (.inr ⟨hlo, hhi⟩)] at h
      exact ⟨hlo, hhi, (Except.ok.inj h).symm⟩

/-- Settles O44: the nibbles of a byte are its quotient and remainder by 16, which contraction puts together again. -/
theorem nibbleExpand : Obligations.NibbleExpand := by
  refine ⟨fun s a => ⟨decodeEncode (.nibx a), ?_⟩, fun b p => ⟨?_, expand_low b, expand_high b⟩, fun lo hi p b h => ?_⟩
  · rw [exec, execNibx, complete_pure, expand_append]
    rfl
  · have hlow := expand_low b
    have hhigh := expand_high b
    have hb : zext b < 256 := b.isLt
    rw [contract_of_ok (.inr ⟨by omega, by omega⟩), pairByte_expand]
  · obtain ⟨hlo, hhi, rfl⟩ := contract_reject_eq_ok h
    exact expand_pairByte hlo hhi

section
variable {s : State} {a v : Byte}

theorem execNibc_of_ok (h : s.cfg.nibble = .wrap8 ∨ (zext a ≤ 0x0F ∧ zext v ≤ 0x0F)) :
    execNibc a v s = .next (done { s with res := (pairByte a v).setWidth 16 }) := by
  rw [execNibc, contract_of_ok h]; rfl

theorem execNibc_of_error {e : Err} (h : contract s.cfg.nibble a v 0 = .error e) : execNibc a v s = .next (s.statusErr e) := by
  rw [execNibc, h]; rfl

theorem setWidth_pairByte : (pairByte a v).setWidth 16 = BitVec.ofNat 16 ((a.toNat + 16 * v.toNat) % 256) := by
  rw [pairByte, ← BitVec.ofNat_toNat, BitVec.toNat_ofNat]

end

/-- Settles O45: the contraction answers the sum, which two nibbles keep below 256, or fails at the first byte above 0x0F. -/
theorem nibbleContract : Obligations.NibbleContract := by
  refine fun s a v => ⟨decodeEncode (.nibc a v), fun ha hv => ?_, fun hp ha => ?_, fun hp ha hv => ?_, fun hp => ?_⟩
  · rw [exec, execNibc_of_ok (.inr ⟨ha, hv⟩), setWidth_pairByte, Nat.mod_eq_of_lt (by omega)]
  · exact execNibc_of_error (hp ▸ contract_low ha)
  · exact execNibc_of_error (hp ▸ contract_high ha hv)
  · rw [exec, execNibc_of_ok (.inl hp), setWidth_pairByte]

/-! ## The outcome of DECODE from the outcome of its parse -/

/-- A parse that raises leaves an error and nothing else (R159, R161). -/
theorem exec_decode_of_raise {s : State} {e : Err} (h : parseFrame s = raise e) : exec .decode s = .next (s.statusErr e) := by
  rw [exec, execDecode, h]; rfl

/-- A parse that answers is committed (R161). -/
theorem exec_decode_of_ok {s : State} {ch dt : Byte} {ps : List Patch} (h : parseFrame s = .ok (ch, dt, ps)) :
    exec .decode s = .next ((s.setSlots 0 ps).setFrame ch dt ps.length).statusOk := by
  rw [exec, execDecode, h]; rfl

/-! ## The head -/

/-- A header byte is wrong. -/
theorem parseFrame_wrongHeader {s : State} {k : Nat} (hk : k < 3) (hlen : k < zext s.inLen)
    (hgood : ∀ j < k, s.inb.read j = header.getD j 0) (hbad : s.inb.read k ≠ header.getD k 0) :
    parseFrame s = raise (badHeader k) := by
  rw [parseFrame, takeHeader_wrong hk hlen hgood hbad]; rfl

/-- IN ends before the dump type. -/
theorem parseFrame_shortHead {s : State} (hlen : zext s.inLen ≤ 4)
    (hgood : ∀ j, j < 3 → j < zext s.inLen → s.inb.read j = header.getD j 0) :
    parseFrame s = raise (truncated (zext s.inLen)) := by
  rcases Nat.lt_or_ge (zext s.inLen) 3 with hshort | hfull
  · rw [parseFrame, takeHeader_truncated hshort fun j hj => hgood j (by omega) hj]; rfl
  · rw [parseFrame, takeHeader_of_ok hfull (hgood 0 (by omega) (by omega)) (hgood 1 (by omega) (by omega))
      (hgood 2 (by omega) (by omega)), cmd_ok_bind]
    rcases Nat.lt_or_ge 3 (zext s.inLen) with hch | hch
    · rw [take_of_lt hch (by omega), cmd_ok_bind]
      dsimp only
      rw [take_of_ge hlen]; rfl
    · rw [take_of_ge hch]; rfl

/-- The dump type is neither 1 nor 2. -/
theorem parseFrame_badDumpType {s : State} (hlen : 5 ≤ zext s.inLen) (hgood : ∀ j < 3, s.inb.read j = header.getD j 0)
    (h1 : s.inb.read 4 ≠ 0x01) (h2 : s.inb.read 4 ≠ 0x02) : parseFrame s = raise badDumpType := by
  rw [parseFrame, takeHeader_of_ok (by omega) (hgood 0 (by omega)) (hgood 1 (by omega)) (hgood 2 (by omega)), cmd_ok_bind,
    take_of_lt (by omega) (by omega), cmd_ok_bind]
  dsimp only
  rw [take_of_lt (c := 3 + 1) (by omega) (by omega), cmd_ok_bind]
  dsimp only
  rw [patchCount_bad h1 h2]; rfl

/-- Settles O48: the parse stops at the header byte, at the end of IN, or at the dump type. -/
theorem decodeHeaderErrors : Obligations.DecodeHeaderErrors := fun _ _ =>
  ⟨fun _ hk hlen hgood hbad => exec_decode_of_raise (parseFrame_wrongHeader hk hlen hgood hbad),
    fun hlen hgood => exec_decode_of_raise (parseFrame_shortHead hlen hgood),
    fun hlen hgood h1 h2 => exec_decode_of_raise (parseFrame_badDumpType hlen hgood h1 h2)⟩

/-! ## The payload -/

/-- The statement's run of patch `i` is the parse's. -/
theorem wireRun_eq_pairRun (s : State) (i : Nat) : wireRun s i = pairRun s (5 + 204 * i) 102 := by
  unfold wireRun pairRun
  refine List.map_congr_left fun o _ => ?_
  rw [show 6 + 204 * i + 2 * o = 5 + 204 * i + 2 * o + 1 by omega]
  rfl

section
variable {s : State} {n m : Nat} {ps : Nat → Patch}

/-- A pair of the payload that lies in IN and whose two bytes the policy accepts. -/
theorem pairOk_of_nibbleOk {c j : Nat} (hc : c = 5 + j) (hin : c + 1 < zext s.inLen) (hmax : c + 1 < 8192)
    (hlow : NibbleOk s j) (hhigh : NibbleOk s (j + 1)) : PairOk s c := by
  subst hc
  refine ⟨hin, hmax, ?_⟩
  rcases hlow with hwrap | hlow
  · exact .inl hwrap
  · exact hhigh.imp_right fun hhigh => ⟨hlow, hhigh⟩

/-- A patch that lies in IN, whose bytes the policy accepts and whose run deserializes. -/
theorem patchOk_of_nibbleOk {k : Nat} {p : Patch} (hin : 5 + 204 * (k + 1) ≤ zext s.inLen) (hk : k < 40)
    (hnib : ∀ j, j < 204 * (k + 1) → NibbleOk s j) (hp : deserialize s.cfg (wireRun s k) = .ok p) : PatchOk s 5 k p :=
  ⟨fun o ho => pairOk_of_nibbleOk (j := 204 * k + 2 * o) (by omega) (by omega) (by omega) (hnib _ (by omega))
    (hnib _ (by omega)), wireRun_eq_pairRun s k ▸ hp⟩

/-- A frame has at most 40 patches, so every index into it lies inside IN. -/
theorem count_le_of_head (h : FrameHead s n) : n ≤ 40 := by
  obtain ⟨-, -, -, ⟨-, rfl⟩ | ⟨-, rfl⟩⟩ := h <;> decide

/-- With a good head the parse is that of the patches, the footer and what follows it. -/
theorem parseFrame_eq_of_head (h : FrameHead s n) (hlen : 5 ≤ zext s.inLen) :
    parseFrame s = (takePatches s n 0 5 >>= fun r => take s r.2 >>= fun b =>
      require (b.1 == footer) (badFooter r.2) >>= fun _ => checkTrailing s b.2 >>= fun _ =>
        pure (s.inb.read 3, s.inb.read 4, r.1)) := by
  obtain ⟨h0, h1, h2, h4⟩ := h
  exact parseFrame_of_head hlen h0 h1 h2 h4

/-- The parse stops where the patches after `m` good ones stop. -/
theorem parseFrame_stops (h : FrameHead s n) (hlen : 5 ≤ zext s.inLen) (hm : m < n)
    (hgood : ∀ k < m, PatchOk s 5 k (ps k)) {e : Err}
    (hstop : ∀ r, takePatches s (r + 1) m (5 + 204 * m) = raise e) : parseFrame s = raise e := by
  obtain ⟨r, rfl⟩ : ∃ r, n = m + (r + 1) := ⟨n - m - 1, by omega⟩
  rw [parseFrame_eq_of_head h hlen, takePatches_add hgood, Nat.zero_add, hstop r]
  rfl

/-- The parse stops at pair `o` of patch `m`, every pair before it being good. -/
theorem parseFrame_stops_at_pair (h : FrameHead s n) (hlen : 5 ≤ zext s.inLen) (hm : m < n)
    (hgood : ∀ k < m, PatchOk s 5 k (ps k)) {o : Nat} (ho : o < 102)
    (hpairs : ∀ o' < o, PairOk s (5 + 204 * m + 2 * o')) {e : Err}
    (hstop : ∀ r, takePairs s (r + 1) (5 + 204 * m + 2 * o) = raise e) : parseFrame s = raise e := by
  refine parseFrame_stops h hlen hm hgood fun r => takePatches_of_pairs_error ?_
  obtain ⟨q, hq⟩ : ∃ q, patchLen = o + (q + 1) := ⟨102 - o - 1, by simp only [patchLen]; omega⟩
  rw [hq, takePairs_add hpairs, hstop q]
  rfl

/-- The parse after `n` good patches. -/
theorem parseFrame_of_patches (h : FrameHead s n) (hlen : 5 ≤ zext s.inLen)
    (hgood : ∀ k < n, PatchOk s 5 k (ps k)) :
    parseFrame s = (take s (5 + 204 * n) >>= fun b =>
      require (b.1 == footer) (badFooter (5 + 204 * n)) >>= fun _ => checkTrailing s b.2 >>= fun _ =>
        pure (s.inb.read 3, s.inb.read 4, (List.range n).map ps)) := by
  rw [parseFrame_eq_of_head h hlen, takePatches_of_ok hgood, cmd_ok_bind]

/-! ## IN ends, or a pair or a patch is bad -/

/-- IN ends at the footer's place, or inside pair `(L - 5) % 204 / 2` of patch `(L - 5) / 204` for a length `L`. -/
theorem parseFrame_truncated (h : FrameHead s n) (hlen : 5 ≤ zext s.inLen) (hshort : zext s.inLen < 6 + 204 * n)
    (hnib : ∀ j, 5 + 2 * (j / 2) + 1 < zext s.inLen → j < 204 * n → NibbleOk s j)
    (hps : ∀ i, i < n → 5 + 204 * (i + 1) ≤ zext s.inLen → deserialize s.cfg (wireRun s i) = .ok (ps i)) :
    parseFrame s = raise (truncated (zext s.inLen)) := by
  have hn := count_le_of_head h
  have hgood : ∀ k, k < n → 5 + 204 * (k + 1) ≤ zext s.inLen → PatchOk s 5 k (ps k) := fun k hk hin =>
    patchOk_of_nibbleOk hin (by omega) (fun j hj => hnib j (by omega) (by omega)) (hps k hk hin)
  rcases Nat.lt_or_ge (zext s.inLen) (5 + 204 * n) with hin | hall
  · refine parseFrame_stops_at_pair h (m := (zext s.inLen - 5) / 204) (o := (zext s.inLen - 5) % 204 / 2) hlen (by omega)
      (fun k hk => hgood k (by omega) (by omega)) (by omega) (fun o ho => ?_) fun r => takePairs_truncated (by omega) (by omega)
    exact pairOk_of_nibbleOk (j := 204 * ((zext s.inLen - 5) / 204) + 2 * o) (by omega) (by omega) (by omega)
      (hnib _ (by omega) (by omega)) (hnib _ (by omega) (by omega))
  · rw [parseFrame_of_patches h hlen fun k hk => hgood k hk (by omega), take_of_ge (by omega)]
    rfl

/-- Payload byte `j`, the first above 0x0F, is byte `j % 2` of pair `j % 204 / 2` of patch `j / 204`. -/
theorem parseFrame_badNibble {j : Nat} (h : FrameHead s n) (hpol : s.cfg.nibble = .reject) (hj : j < 204 * n)
    (hin : 5 + 2 * (j / 2) + 1 < zext s.inLen) (hbefore : ∀ j', j' < j → zext (s.inb.read (5 + j')) ≤ 0x0F)
    (hbad : 0x0F < zext (s.inb.read (5 + j))) (hps : ∀ i, i < j / 204 → deserialize s.cfg (wireRun s i) = .ok (ps i)) :
    parseFrame s = raise (nibbleRange (5 + j)) := by
  have hn := count_le_of_head h
  have hnib : ∀ j', j' < j → NibbleOk s j' := fun j' hj' => .inr (hbefore j' hj')
  have hpos : 5 + j = 5 + 204 * (j / 204) + 2 * (j % 204 / 2) + j % 2 := by omega
  rw [hpos] at hbad ⊢
  refine parseFrame_stops_at_pair h (m := j / 204) (o := j % 204 / 2) (by omega) (by omega)
    (fun k hk => patchOk_of_nibbleOk (by omega) (by omega) (fun j' hj' => hnib j' (by omega)) (hps k hk)) (by omega)
    (fun o ho => ?_) fun r => takePairs_badNibble hpol (by omega) (by omega) (Nat.mod_lt _ (by decide)) (fun hodd => ?_) hbad
  · exact pairOk_of_nibbleOk (j := 204 * (j / 204) + 2 * o) (by omega) (by omega) (by omega) (hnib _ (by omega))
      (hnib _ (by omega))
  · have hlow := hbefore (j - 1) (by omega)
    rwa [show 5 + (j - 1) = 5 + 204 * (j / 204) + 2 * (j % 204 / 2) by omega] at hlow

/-- Patch `i`, with `i` good patches before it, is taken whole and its error stops the parse, at its wire index. -/
theorem parseFrame_badField {i : Nat} {e : Err} (h : FrameHead s n) (hi : i < n) (hin : 5 + 204 * (i + 1) ≤ zext s.inLen)
    (hnib : ∀ j, j < 204 * (i + 1) → NibbleOk s j) (hps : ∀ i', i' < i → deserialize s.cfg (wireRun s i') = .ok (ps i'))
    (herr : deserialize s.cfg (wireRun s i) = .error e) : parseFrame s = raise { e with pos := wireIndex i e.pos } := by
  have hn := count_le_of_head h
  refine parseFrame_stops h (by omega) hi
    (fun k hk => patchOk_of_nibbleOk (by omega) (by omega) (fun j hj => hnib j (by omega)) (hps k hk)) fun r =>
    takePatches_of_field_error (fun o ho => ?_) (wireRun_eq_pairRun s i ▸ herr)
  exact pairOk_of_nibbleOk (j := 204 * i + 2 * o) (by omega) (by omega) (by omega) (hnib _ (by omega)) (hnib _ (by omega))

/-! ## The end of the frame -/

/-- The parse after `n` good patches and a footer byte, good or not (R158, R160). -/
theorem parseFrame_footer (h : FrameHead s n) (hlen : 6 + 204 * n ≤ zext s.inLen)
    (hnib : ∀ j, j < 204 * n → NibbleOk s j) (hps : ∀ i, i < n → deserialize s.cfg (wireRun s i) = .ok (ps i)) :
    parseFrame s = (require (s.inb.read (5 + 204 * n) == footer) (badFooter (5 + 204 * n)) >>= fun _ =>
      checkTrailing s (6 + 204 * n) >>= fun _ => pure (s.inb.read 3, s.inb.read 4, (List.range n).map ps)) := by
  have hn := count_le_of_head h
  rw [parseFrame_of_patches h (by omega) fun k hk => patchOk_of_nibbleOk (by omega) (by omega)
    (fun j hj => hnib j (by omega)) (hps k hk), take_of_lt (by omega) (by omega), cmd_ok_bind]
  rw [show 6 + 204 * n = 5 + 204 * n + 1 by omega]

/-- Under `ignore`, or with nothing after the frame, the check of what follows passes (R160). -/
theorem checkTrailing_of_ok {c : Nat} (h : s.cfg.trailing = .ignore ∨ zext s.inLen ≤ c) : checkTrailing s c = .ok () := by
  unfold checkTrailing
  split
  · rfl
  · next hrej =>
    have hle : zext s.inLen ≤ c := h.resolve_left (by rw [hrej]; decide)
    rw [decide_eq_true hle, require_true]

theorem checkTrailing_of_lt {c : Nat} (hp : s.cfg.trailing = .reject) (h : c < zext s.inLen) :
    checkTrailing s c = raise (trailing c) := by
  rw [checkTrailing, hp]
  dsimp only
  rw [decide_eq_false (Nat.not_le.2 h), require_false]

end

/-- Settles O49: the parse stops where IN does. -/
theorem decodeTruncated : Obligations.DecodeTruncated := fun _ _ _ hhead hlen hshort hnib hps =>
  exec_decode_of_raise (parseFrame_truncated hhead hlen hshort hnib hps)

/-- Settles O50: the parse stops at the pair of the bad byte. -/
theorem decodeBadNibble : Obligations.DecodeBadNibble := fun _ _ _ _ hhead _ hpol hj hin hbefore hbad hps =>
  exec_decode_of_raise (parseFrame_badNibble hhead hpol hj hin hbefore hbad hps)

/-- Settles O51: the parse stops after the pairs of the bad patch. -/
theorem decodeBadField : Obligations.DecodeBadField := by
  intro s n i ps e hhead _ hi hin hnib hps herr
  rw [exec_decode_of_raise (parseFrame_badField hhead hi hin hnib hps herr), failed, BitVec.ofNat_toNat, BitVec.setWidth_eq]
  rfl

/-- Settles O52: after the patches the parse is the footer's check and then that of what follows. -/
theorem decodeBadEnd : Obligations.DecodeBadEnd := by
  refine fun s n ps hhead hlen hmax hnib hps => ⟨fun hfoot => ?_, fun hfoot hpol htrail => ?_⟩
  · refine exec_decode_of_raise (e := badFooter (5 + 204 * n)) ?_
    have hne : (s.inb.read (5 + 204 * n) == footer) = false := beq_false_of_ne hfoot
    rw [parseFrame_footer hhead hlen hnib hps, hne]
    rfl
  · refine exec_decode_of_raise (e := trailing (6 + 204 * n)) ?_
    rw [parseFrame_footer hhead hlen hnib hps, hfoot, checkTrailing_of_lt hpol htrail]
    rfl

/-- The patches of a frame, written from slot 0 on. -/
theorem setSlots_map_range (s : State) (n : Nat) (ps : Nat → Patch) : s.setSlots 0 ((List.range n).map ps) =
    { s with pstore := Vector.ofFn fun i : Fin 40 => if i.val < n then ps i.val else s.pstore[i] } := by
  rw [setSlots_eq]
  simp only [List.length_map, List.length_range, Nat.zero_le, true_and, Nat.zero_add, Nat.sub_zero, List.getElem_map,
    List.getElem_range, dite_eq_ite]

/-- Settles O47: the parse answers, and the patches are written from slot 0 on. -/
theorem decodeAccepts : Obligations.DecodeAccepts := by
  refine fun s n ps => ⟨decodeEncode .decode, fun hhead hlen hmax hnib hps hfoot htrail => ?_⟩
  have hparse : parseFrame s = .ok (s.inb.read 3, s.inb.read 4, (List.range n).map ps) := by
    rw [parseFrame_footer hhead hlen hnib hps, hfoot, checkTrailing_of_ok (htrail.imp_right Nat.le_of_eq)]
    rfl
  rw [exec_decode_of_ok hparse, setSlots_map_range, List.length_map, List.length_range]
  rfl

/-- Settles O53: what the parse answered is what IN holds, and the slots written are those below the patch count. -/
theorem decodeMultiplexer : Obligations.DecodeMultiplexer := by
  intro s t hexec herr
  rcases complete_eq_next hexec with ⟨u, hu, rfl⟩ | ⟨e, -, rfl⟩
  · obtain ⟨⟨ch, dt, ps⟩, hparse, hu⟩ := cmd_bind_eq_ok.1 hu
    obtain rfl := Except.ok.inj hu
    obtain ⟨n, h0, h1, h2, h4, hlen, hfoot, -, hch, hdt, hcount, hps⟩ := parseFrame_eq_ok hparse
    dsimp only at hch hdt hcount hps
    have hin : 6 + 204 * n ≤ s.inLen.toNat := by simp only [zext] at hlen; omega
    refine ⟨n, ⟨h0, h1, h2, h4⟩, hin, hfoot, congrArg (BitVec.ofNat 8) hcount, hdt, hch, fun i hi => ?_, fun i hi => ?_⟩
    · rw [wireRun_eq_pairRun, (hps i (by omega)).2]
      simp [State.setSlots_pstore_getElem, hcount, hi]
    · simp [State.setSlots_pstore_getElem, hcount, Nat.not_lt.2 hi]
  · exact absurd herr (errKind_code_ne_zero e.kind)

end Sys2Proof.Machine

/-! SUPPORT. ENCODE by the bytes of its frame, and the frame through XFER and DECODE: what a byte space holds once a frame is written
to it is what DECODE needs of IN, and the patches it commits serialize to the runs they were read from. -/

namespace Sys2Proof.Machine

open Sys2Proof.Claims

/-! ## The frame -/

/-- The bytes of a frame: header, channel, dump type, the expanded runs of `N` patches, footer (R36, R155). -/
def frameBytes (ch dt : Byte) (N : Nat) (r : Nat → List Byte) : List Byte :=
  header ++ [ch, dt] ++ ((List.range N).flatMap fun k => expandRun (r k)) ++ [footer]

/-- The runs of the `N` patches of a frame built from `n` patches of the store. -/
def FrameRuns (s : State) (n N : Nat) (r : Nat → List Byte) : Prop :=
  ∀ i, i < N → serialize s.cfg (patchFor s n i) = .ok (r i) ∧ (r i).length = 102

theorem dumpFor_eq (n : Nat) : dumpFor n = (if n = 1 then 0x01 else 0x02, if n = 1 then 1 else 40) := by
  unfold dumpFor
  split
  · rfl
  · rfl

theorem dumpFor_cases (n : Nat) :
    ((dumpFor n).1 = 0x01 ∧ (dumpFor n).2 = 1) ∨ ((dumpFor n).1 = 0x02 ∧ (dumpFor n).2 = 40) := by
  unfold dumpFor
  split
  · exact .inl ⟨rfl, rfl⟩
  · exact .inr ⟨rfl, rfl⟩

theorem dumpFor_count_le (n : Nat) : (dumpFor n).2 ≤ 40 := by
  rcases dumpFor_cases n with ⟨-, h⟩ | ⟨-, h⟩ <;> omega

section
variable {s : State} {ch dt : Byte} {n : Half} {N : Nat} {r : Nat → List Byte}

/-- The statement's patch `i` of a frame is the one that is encoded. -/
theorem framePatch_eq_patchFor (s : State) (n : Nat) {i : Nat} (hi : i < 40) : framePatch s n i = patchFor s n i := by
  unfold framePatch patchFor
  by_cases h : i < n
  · rw [if_pos h, dif_pos ⟨h, hi⟩, State.slot_of_lt s hi]
  · rw [if_neg h, dif_neg fun hc => h hc.1]

/-- In a state that meets the invariant every patch of a frame has a run (R121, R144). -/
theorem exists_frameRuns (hs : s.Inv) (n : Nat) (hN : N ≤ 40) : ∃ r, FrameRuns s n N r := by
  have hrun : ∀ i < N, ∃ b, serialize s.cfg (patchFor s n i) = .ok b ∧ b.length = 102 := fun i hi => by
    have hok := framePatch_ok hs.cfg_wf hs.storeOk n (i := i) (by omega)
    rw [framePatch_eq_patchFor s n (by omega)] at hok
    obtain ⟨f, -, -, hser, hlen⟩ := serialize_ok hs.cfg_wf hok
    exact ⟨_, hser, hlen⟩
  choose! r hr using hrun
  exact ⟨r, hr⟩

theorem frame_of_runs {m : Nat} (hr : FrameRuns s m (dumpFor m).2 r) (ch : Byte) :
    frame s ch m = .ok (frameBytes ch (dumpFor m).1 (dumpFor m).2 r) := by
  have hN := dumpFor_count_le m
  have hpay := payload_of_ok (s := s) (n := m) (m := (dumpFor m).2) (i := 0) (r := r) fun k _ hk => by
    rw [framePatch_eq_patchFor s m (by omega)]
    exact (hr k (by omega)).1
  simp only [Nat.zero_add] at hpay
  rw [frame, hpay]
  rfl

theorem length_frameBytes (hl : ∀ i < N, (r i).length = 102) : (frameBytes ch dt N r).length = 6 + 204 * N := by
  rw [frameBytes, List.length_append, List.length_append, length_payload hl]
  show 5 + 204 * N + 1 = _
  omega

/-! ## A byte space that holds a frame -/

/-- The frame stands at address 0, byte for byte (R51, R155). -/
structure HoldsFrame (m : Memory) (ch dt : Byte) (N : Nat) (r : Nat → List Byte) : Prop where
  head : m.read 0 = 0xF0 ∧ m.read 1 = 0x0F ∧ m.read 2 = 0x02 ∧ m.read 3 = ch ∧ m.read 4 = dt
  pair : ∀ i o, i < N → o < 102 →
    m.read (5 + 204 * i + 2 * o) = BitVec.ofNat 8 (((r i).getD o 0).toNat % 16) ∧
    m.read (6 + 204 * i + 2 * o) = BitVec.ofNat 8 (((r i).getD o 0).toNat / 16)
  foot : m.read (5 + 204 * N) = 0xF7

/-- Patch `i` of a frame starts at wire index `5 + 204 * i` (R51). -/
theorem getElem?_frameBytes_payload (hl : ∀ i < N, (r i).length = 102) {i j : Nat} (hi : i < N) (hj : j < 204) :
    (frameBytes ch dt N r)[5 + (204 * i + j)]? = (expandRun (r i))[j]? := by
  have hlen := length_payload hl
  rw [frameBytes, List.append_assoc, List.getElem?_append_right (by simp [header]), List.getElem?_append_left]
  · rw [show 5 + (204 * i + j) - (header ++ [ch, dt]).length = 204 * i + j by simp [header]]
    exact getElem?_payload hl hi hj
  · rw [hlen]; simp only [header, List.length_append, List.length_cons, List.length_nil]; omega

theorem getElem?_frameBytes_footer (hl : ∀ i < N, (r i).length = 102) : (frameBytes ch dt N r)[5 + 204 * N]? = some footer := by
  have hlen : (header ++ [ch, dt] ++ (List.range N).flatMap fun k => expandRun (r k)).length = 5 + 204 * N := by
    rw [List.length_append, length_payload hl]; rfl
  rw [frameBytes, ← hlen, List.getElem?_concat_length]

/-- The two wire bytes of a logical byte as numbers (R150). -/
theorem expand_eq (b : Byte) : expand b = (BitVec.ofNat 8 (b.toNat % 16), BitVec.ofNat 8 (b.toNat / 16)) := by
  revert b; decide +kernel

/-- The two wire bytes of logical byte `o` of patch `i` (R51, R155). -/
theorem getD_frameBytes_pair (hl : ∀ i < N, (r i).length = 102) {i o : Nat} (hi : i < N) (ho : o < 102) :
    (frameBytes ch dt N r).getD (5 + 204 * i + 2 * o) 0 = (expand ((r i).getD o 0)).1 ∧
    (frameBytes ch dt N r).getD (6 + 204 * i + 2 * o) 0 = (expand ((r i).getD o 0)).2 := by
  obtain ⟨hlow, hhigh⟩ := getElem?_expandRun (r i) o
  have hbyte : (r i)[o]? = some ((r i).getD o 0) := by
    rw [List.getElem?_eq_getElem (by rw [hl i hi]; exact ho), List.getD_eq_getElem]
  have hlow' := getElem?_frameBytes_payload (ch := ch) (dt := dt) hl hi (j := 2 * o) (by omega)
  have hhigh' := getElem?_frameBytes_payload (ch := ch) (dt := dt) hl hi (j := 2 * o + 1) (by omega)
  rw [hlow, hbyte, show 5 + (204 * i + 2 * o) = 5 + 204 * i + 2 * o by omega] at hlow'
  rw [hhigh, hbyte, show 5 + (204 * i + (2 * o + 1)) = 6 + 204 * i + 2 * o by omega] at hhigh'
  constructor
  · rw [List.getD_eq_getElem?_getD, hlow']; rfl
  · rw [List.getD_eq_getElem?_getD, hhigh']; rfl

/-- What reads as the bytes of a frame holds that frame. -/
theorem holdsFrame_of_read {m : Memory} (hl : ∀ i < N, (r i).length = 102)
    (h : ∀ x < 6 + 204 * N, m.read x = (frameBytes ch dt N r).getD x 0) : HoldsFrame m ch dt N r where
  head := ⟨h 0 (by omega), h 1 (by omega), h 2 (by omega), h 3 (by omega), h 4 (by omega)⟩
  pair i o hi ho := by
    obtain ⟨hlow, hhigh⟩ := getD_frameBytes_pair (ch := ch) (dt := dt) hl hi ho
    rw [h _ (by omega), h _ (by omega), hlow, hhigh, expand_eq]
    exact ⟨rfl, rfl⟩
  foot := by rw [h _ (by omega), List.getD_eq_getElem?_getD, getElem?_frameBytes_footer hl]; rfl

/-! ## ENCODE -/

/-- What ENCODE leaves: the frame in OUT, and its length. -/
def encoded (s : State) (ch : Byte) (n : Nat) (r : Nat → List Byte) : State :=
  done { s with outb := s.outb.writeRun 0 (frameBytes ch (dumpFor n).1 (dumpFor n).2 r)
                outLen := BitVec.ofNat 16 (6 + 204 * (dumpFor n).2) }

theorem exec_encode_of_runs (hn : n.toNat ≠ 0) (hr : FrameRuns s n.toNat (dumpFor n.toNat).2 r) (ch : Byte) :
    exec (.encode ch n) s = .next (encoded s ch n.toNat r) := by
  have hN := dumpFor_count_le n.toNat
  have hlen := length_frameBytes (ch := ch) (dt := (dumpFor n.toNat).1) fun i hi => (hr i hi).2
  have hcheck : (zext n != 0) = true := bne_iff_ne.2 hn
  have hfit : 0 + (frameBytes ch (dumpFor n.toNat).1 (dumpFor n.toNat).2 r).length ≤ Space.size .out := by
    rw [hlen]
    show 0 + (6 + 204 * (dumpFor n.toNat).2) ≤ 8166
    omega
  rw [exec, execEncode, hcheck, require_true, cmd_ok_bind, frame_of_runs hr, lift_ok, cmd_ok_bind, memWrite_of_le hfit,
    cmd_ok_bind, hlen]
  rfl

/-- OUT after an ENCODE: the frame, and above it the old bytes. -/
theorem read_encoded (hr : FrameRuns s n.toNat (dumpFor n.toNat).2 r) (ch : Byte) (x : Nat) :
    (encoded s ch n.toNat r).outb.read x = if x < 6 + 204 * (dumpFor n.toNat).2 then
      (frameBytes ch (dumpFor n.toNat).1 (dumpFor n.toNat).2 r).getD x 0 else s.outb.read x := by
  show (s.outb.writeRun 0 _).read x = _
  rw [Memory.read_writeRun, length_frameBytes fun i hi => (hr i hi).2]
  simp

theorem holdsFrame_encoded (hr : FrameRuns s n.toNat (dumpFor n.toNat).2 r) (ch : Byte) :
    HoldsFrame (encoded s ch n.toNat r).outb ch (dumpFor n.toNat).1 (dumpFor n.toNat).2 r :=
  holdsFrame_of_read (fun i hi => (hr i hi).2) fun x hx => by rw [read_encoded hr, if_pos hx]

end

/-- Settles O46: the store has a run for every patch of the frame, so the frame is built and OUT holds it. -/
theorem encodeFrame : Obligations.EncodeFrame := by
  refine fun s ch n => ⟨decodeEncode (.encode ch n), fun hn => ?_, fun N hn hs hN => ?_⟩
  · have hcheck : (zext n != 0) = false := bne_eq_false_iff_eq.2 hn
    rw [exec, execEncode, hcheck]
    rfl
  · obtain ⟨r, hr⟩ := exists_frameRuns hs n.toNat (dumpFor_count_le n.toNat)
    obtain ⟨⟨h0, h1, h2, h3, h4⟩, hpair, hfoot⟩ := holdsFrame_encoded hr ch
    obtain rfl : N = (dumpFor n.toNat).2 := by rw [hN, dumpFor_eq]
    refine ⟨_, r, exec_encode_of_runs hn hr ch, hr, h0, h1, h2, h3, ?_, hpair, hfoot, fun x hx => ?_⟩
    · exact h4.trans (by rw [dumpFor_eq])
    · exact (read_encoded hr ch x).trans (if_neg (by omega))

/-! ## A frame in IN decodes -/

section
variable {s : State} {ch dt : Byte} {N : Nat} {r : Nat → List Byte}

/-- The wire pairs of a frame are the runs it was built from. -/
theorem wireRun_of_holdsFrame (h : HoldsFrame s.inb ch dt N r) {i : Nat} (hi : i < N) (hl : (r i).length = 102) :
    wireRun s i = r i := by
  refine List.ext_getElem (by simp [wireRun, hl]) fun o ho ho' => ?_
  have hb : (r i)[o].toNat < 256 := (r i)[o].isLt
  obtain ⟨hlow, hhigh⟩ := h.pair i o hi (by omega)
  rw [List.getD_eq_getElem _ _ ho'] at hlow hhigh
  simp only [wireRun, List.getElem_map, List.getElem_range]
  apply BitVec.eq_of_toNat_eq
  rw [hlow, hhigh]
  simp only [BitVec.toNat_ofNat]
  omega

/-- Every payload byte of a frame is a nibble. -/
theorem nibbleOk_of_holdsFrame (h : HoldsFrame s.inb ch dt N r) {j : Nat} (hj : j < 204 * N) : NibbleOk s j := by
  obtain ⟨hlow, hhigh⟩ := h.pair (j / 204) (j % 204 / 2) (by omega) (by omega)
  have hb := ((r (j / 204)).getD (j % 204 / 2) 0).isLt
  refine .inr ?_
  rcases Nat.mod_two_eq_zero_or_one j with he | ho
  · rw [show 5 + j = 5 + 204 * (j / 204) + 2 * (j % 204 / 2) by omega, hlow, BitVec.toNat_ofNat]
    omega
  · rw [show 5 + j = 6 + 204 * (j / 204) + 2 * (j % 204 / 2) by omega, hhigh, BitVec.toNat_ofNat]
    omega

/-- A frame that fills IN decodes under every policy (R165). -/
theorem exec_decode_of_holdsFrame {ps : Nat → Patch} (h : HoldsFrame s.inb ch dt N r)
    (hdt : (dt = 0x01 ∧ N = 1) ∨ (dt = 0x02 ∧ N = 40)) (hlen : s.inLen.toNat = 6 + 204 * N)
    (hr : ∀ i, i < N → (r i).length = 102 ∧ deserialize s.cfg (r i) = .ok (ps i)) :
    exec .decode s = .next (done { s with
      pstore := Vector.ofFn fun i : Fin 40 => if i.val < N then ps i.val else s.pstore[i]
      chan := ch, dtype := dt, pcount := BitVec.ofNat 8 N }) := by
  obtain ⟨h0, h1, h2, h3, h4⟩ := h.head
  have hN : N ≤ 40 := by omega
  rw [← h3, ← h4]
  refine (decodeAccepts s N ps).2 ⟨h0, h1, h2, h4 ▸ hdt⟩ (Nat.le_of_eq hlen.symm) (by omega)
    (fun j hj => nibbleOk_of_holdsFrame h hj) (fun i hi => ?_) h.foot (.inr hlen)
  rw [wireRun_of_holdsFrame h hi (hr i hi).1, (hr i hi).2]

end

/-! ## Round trips -/

/-- A patch with its name normalised, as a frame carries it (R146). -/
def normalised (p : Patch) : Patch := { p with name := norm p.name }

theorem norm_defaultName : norm defaultName = defaultName := by decide

@[simp] theorem normalised_defaultPatch (c : Config) : normalised (defaultPatch c) = defaultPatch c :=
  congrArg (fun n => ({ defaultPatch c with name := n } : Patch)) norm_defaultName

/-- The name is normalised when it is packed, so normalising it first changes no run (R131, R144). -/
theorem serialize_normalised (c : Config) (p : Patch) : serialize c (normalised p) = serialize c p := by
  simp only [serialize, packGroups, normalised, Patch.group_withName, norm_norm]

section
variable {s : State} {n : Half} {r : Nat → List Byte}

/-- The state that ENCODE, XFER and DECODE lead to, as far as the statements on round trips speak of it. -/
structure RoundTripped (s : State) (ch : Byte) (n : Nat) (r : Nat → List Byte) (t : State) : Prop where
  err : t.err = 0
  cfg : t.cfg = s.cfg
  outb : t.outb = (encoded s ch n r).outb
  chan : t.chan = ch
  dtype : t.dtype = (dumpFor n).1
  pcount : t.pcount = BitVec.ofNat 8 (dumpFor n).2
  slot : ∀ i : Fin 40, t.pstore[i] = if i.val < (dumpFor n).2 then normalised (patchFor s n i) else s.pstore[i]

/-- A run of the store deserializes to its patch, the name normalised. -/
theorem deserialize_frameRuns (hs : s.Inv) {m N : Nat} (hN : N ≤ 40) (hr : FrameRuns s m N r) {i : Nat} (hi : i < N) :
    (r i).length = 102 ∧ deserialize s.cfg (r i) = .ok (normalised (patchFor s m i)) := by
  have hok := framePatch_ok hs.cfg_wf hs.storeOk m (i := i) (by omega)
  rw [framePatch_eq_patchFor s m (by omega)] at hok
  obtain ⟨b, hser, hlen, hdes⟩ := (recordRoundTrip s.cfg hs.cfg_wf).2 _ hok
  obtain rfl := Except.ok.inj (hser.symm.trans (hr i hi).1)
  exact ⟨hlen, hdes⟩

/-- DECODE of a frame that was encoded from `s` and fills IN, the store being still that of `s` (R163, R164). -/
theorem exec_decode_of_frameRuns (hs : s.Inv) {m : Nat} (hr : FrameRuns s m (dumpFor m).2 r) {ch : Byte} {t : State}
    (hframe : HoldsFrame t.inb ch (dumpFor m).1 (dumpFor m).2 r) (hlen : t.inLen.toNat = 6 + 204 * (dumpFor m).2)
    (hcfg : t.cfg = s.cfg) (hstore : t.pstore = s.pstore) (hout : t.outb = (encoded s ch m r).outb) :
    ∃ t', exec .decode t = .next t' ∧ RoundTripped s ch m r t' := by
  refine ⟨_, exec_decode_of_holdsFrame (ps := fun i => normalised (patchFor s m i)) hframe (dumpFor_cases _) hlen
    fun i hi => hcfg ▸ deserialize_frameRuns hs (dumpFor_count_le m) hr hi, ?_⟩
  constructor <;> simp only [done, hcfg, hout, hstore, Fin.getElem_fin, Vector.getElem_ofFn, implies_true]

/-- ENCODE, XFER, DECODE: OUT's frame is copied to IN, fills it, and is committed. -/
theorem exec_roundTrip (hs : s.Inv) (hn : n.toNat ≠ 0) (hr : FrameRuns s n.toNat (dumpFor n.toNat).2 r) (ch : Byte) :
    ∃ t2 t3, exec (.encode ch n) s = .next (encoded s ch n.toNat r) ∧ exec .xfer (encoded s ch n.toNat r) = .next t2 ∧
      exec .decode t2 = .next t3 ∧ RoundTripped s ch n.toNat r t3 := by
  have hN := dumpFor_count_le n.toNat
  have hlen : (encoded s ch n.toNat r).outLen.toNat = 6 + 204 * (dumpFor n.toNat).2 := by
    rw [encoded, done, BitVec.toNat_ofNat]
    omega
  obtain ⟨m, hxfer, hread⟩ := (xferResult (encoded s ch n.toNat r)).2 (by omega)
  have hframe : HoldsFrame m ch (dumpFor n.toNat).1 (dumpFor n.toNat).2 r :=
    holdsFrame_of_read (fun i hi => (hr i hi).2) fun x hx => by rw [hread, if_pos (by omega), read_encoded hr, if_pos hx]
  obtain ⟨t3, hdec, h⟩ := exec_decode_of_frameRuns hs hr
    (t := done { encoded s ch n.toNat r with inb := m, inLen := (encoded s ch n.toNat r).outLen }) hframe hlen
    rfl rfl rfl
  exact ⟨_, t3, exec_encode_of_runs hn hr ch, hxfer, hdec, h⟩

/-- After the round trip every patch of the frame has the run it had before. -/
theorem RoundTripped.frameRuns {ch : Byte} {m : Nat} {t : State} (h : RoundTripped s ch m r t)
    (hr : FrameRuns s m (dumpFor m).2 r) : FrameRuns t m (dumpFor m).2 r := by
  intro i hi
  have hN := dumpFor_count_le m
  obtain ⟨hser, hlen⟩ := hr i hi
  have hpatch : patchFor t m i = normalised (patchFor s m i) := by
    by_cases him : i < m ∧ i < 40
    · have hslot := h.slot ⟨i, him.2⟩
      rw [if_pos hi] at hslot
      rw [patchFor, dif_pos him]
      exact hslot
    · rw [patchFor, dif_neg him, patchFor, dif_neg him, normalised_defaultPatch, h.cfg]
  rw [h.cfg, hpatch, serialize_normalised]
  exact ⟨hser, hlen⟩

end

/-- Writing the same run again changes nothing. -/
theorem Memory.writeRun_writeRun_same {size : Nat} {m : Memory} (hm : Memory.wf size m = true) (a : Nat) {bs : List Byte}
    (h : a + bs.length ≤ size) : (m.writeRun a bs).writeRun a bs = m.writeRun a bs := by
  have hwf := Memory.wf_writeRun hm a bs h
  refine Memory.ext_of_wf (Memory.wf_writeRun hwf a bs h) hwf fun x => ?_
  rw [Memory.read_writeRun]
  split
  · next hx => rw [Memory.read_writeRun, if_pos hx]
  · rfl

/-- Settles O54: one patch is slot 0, which comes back with its name normalised. -/
theorem singleDumpRoundTrip : Obligations.SingleDumpRoundTrip := by
  intro s ch hs
  obtain ⟨r, hr⟩ := exists_frameRuns hs (1 : Half).toNat (dumpFor_count_le _)
  obtain ⟨t2, t3, henc, hxfer, hdec, h⟩ := exec_roundTrip hs (by decide) hr ch
  exact ⟨_, t2, t3, henc, hxfer, hdec, h.err, h.pcount, h.dtype, h.chan, h.slot 0,
    fun i hi => (h.slot i).trans (if_neg (Nat.not_lt.2 (Nat.pos_of_ne_zero hi)))⟩

/-- Settles O55: forty patches, those of the store below `n` and default patches above, whose name is normal already. -/
theorem bankRoundTrip : Obligations.BankRoundTrip := by
  intro s ch n hs hn
  have hdump : dumpFor n.toNat = (0x02, 40) := if_neg (by omega)
  obtain ⟨r, hr⟩ := exists_frameRuns hs n.toNat (dumpFor_count_le _)
  obtain ⟨t2, t3, henc, hxfer, hdec, h⟩ := exec_roundTrip hs (by omega) hr ch
  have hcount := h.pcount
  have hdtype := h.dtype
  rw [hdump] at hcount hdtype
  refine ⟨_, t2, t3, henc, hxfer, hdec, h.err, hcount, hdtype, h.chan, fun i => ?_⟩
  rw [h.slot, hdump, if_pos i.isLt, patchFor]
  by_cases hi : i.val < n.toNat
  · rw [dif_pos ⟨hi, i.isLt⟩, if_pos hi]
    rfl
  · rw [dif_neg fun hc => hi hc.1, if_neg hi, normalised_defaultPatch]

/-- Settles O56: the patches that come back have the runs they were sent as, so the same frame is written over itself. -/
theorem reencodeStable : Obligations.ReencodeStable := by
  intro s ch n hs hn
  have hN := dumpFor_count_le n.toNat
  obtain ⟨r, hr⟩ := exists_frameRuns hs n.toNat hN
  obtain ⟨t2, t3, henc, hxfer, hdec, h⟩ := exec_roundTrip hs hn hr ch
  refine ⟨_, t2, t3, _, henc, hxfer, hdec, h.err, exec_encode_of_runs hn (h.frameRuns hr) ch, ?_, rfl⟩
  obtain ⟨-, -, ⟨-, hout, -⟩, -⟩ := hs
  have hlen := length_frameBytes (ch := ch) (dt := (dumpFor n.toNat).1) fun i hi => (hr i hi).2
  show t3.outb.writeRun 0 _ = s.outb.writeRun 0 _
  rw [h.outb]
  exact Memory.writeRun_writeRun_same hout 0 (by rw [hlen, outMax]; omega)

end Sys2Proof.Machine

/-! SUPPORT. The system commands (44_system.md): the states NOP and SRST leave, and the words that have their opcodes and another
bit set. -/

namespace Sys2Proof.Machine

open Sys2Proof.Claims

/-! ## What they leave -/

/-- NOP's body keeps the state, so only the STATUS write of a success shows (R166, R175). -/
theorem exec_nop (s : State) : exec .nop s = .next (done s) := rfl

/-- The STATUS write of a success changes nothing after SRST: reset leaves `ERR`, `SUB` and `POS` 0 already (R167, R175). -/
theorem exec_srst (s : State) : exec .srst s = .next s.softReset := rfl

/-- Soft reset differs from power-on in what R193 says is not reset, and in the host's queue. -/
theorem softReset_of_standard {s : State} (h : s.cfg = Config.standard) :
    s.softReset = { State.reset with inb := s.inb, outb := s.outb, hostq := s.hostq } := by
  rw [State.softReset, h, State.reset]

theorem softReset_slot (s : State) (i : Fin 40) : s.softReset.pstore[i] = defaultPatch s.cfg := by
  rw [State.softReset_pstore, Fin.getElem_fin, Vector.getElem_replicate]

/-! ## Words with another bit set -/

/-- An opcode of format N has one word that is a command: every other bit is reserved (R53, R57). -/
theorem runWord_formatN_of_ne {opc : Byte} (ha : opc.toNat ∈ assigned) (hb : reservedBits opc.toNat = Format.n.reserved)
    {w : Word} (ho : w.toNat / 2 ^ 24 = opc.toNat) (hw : w ≠ wordN opc) (s : State) :
    runWord w s = .next (failed s 5 1 opc.toNat) := by
  obtain rfl : opcOf w = opc := BitVec.eq_of_toNat_eq ((opcOf_toNat w).trans ho)
  have hr : w &&& Format.n.reserved ≠ 0 := fun h => hw (Format.assemble_opcOf h).symm
  rw [← hb, ← ho] at hr
  rw [← ho] at ha ⊢
  exact illegalWords.2.1 w s ha hr

/-! ## The statements -/

/-- Settles O11: the word is NOP's encoding, and every other word of its opcode has a reserved bit set. -/
theorem nopOnlyStatus : Obligations.NopOnlyStatus :=
  ⟨fun s => ⟨decodeEncode .nop, exec_nop s⟩, fun _ s ho hw => runWord_formatN_of_ne (opc := 0x00) (by decide) rfl ho hw s⟩

/-- Settles O12: SRST leaves the soft reset, whose fields are read off; a word with a reserved bit set does not run it. -/
theorem softReset : Obligations.SoftReset := by
  refine ⟨fun s => ⟨decodeEncode .srst, s.softReset, exec_srst s, softReset_slot s, fun o _ => Memory.read_nil o, ?_⟩,
    fun s h => ?_, fun _ s ho hw => runWord_formatN_of_ne (opc := 0x01) (by decide) rfl ho hw s⟩
  · simp
  · rw [exec_srst, softReset_of_standard h]

end Sys2Proof.Machine

/-! SUPPORT. What a word at CMD does to STATUS (60_exceptions.md R175, R176): it completes the body of the command it decodes to or
reports an error, and of the bodies only SRST's writes STICKY. -/

namespace Sys2Proof.Machine

/-- A word decodes to a command exactly when it is the word of that command (R53, R57). -/
theorem decode_eq_ok_iff {w : Word} {i : Instr} : decode w = .ok i ↔ encode i = w :=
  ⟨encodeDecode w i, fun h => h ▸ decodeEncode i⟩

/-- The two ways a word at CMD answers a next state: its command succeeds, or an error is reported from the old state, be it the
command's or that of an illegal word. -/
theorem runWord_eq_next {w : Word} {s t : State} (h : runWord w s = .next t) :
    (∃ i u, encode i = w ∧ Effect s (targetOf i) u ∧ t = u.statusOk) ∨ ∃ e, t = s.statusErr e := by
  cases hw : decode w with
  | ok i =>
    rw [runWord_of_ok hw] at h
    exact (exec_eq_next h).imp_left fun ⟨u, hu, ht⟩ => ⟨i, u, decode_eq_ok_iff.1 hw, hu, ht⟩
  | error e =>
    obtain ⟨k, opc, he, -⟩ := illegal_eq e s
    rw [runWord_of_error hw, he] at h
    cases h
    exact .inr ⟨_, rfl⟩

/-- No body but that of SRST writes STICKY (R175). -/
theorem Effect.sticky_eq {s u : State} {g : Target} (h : Effect s g u) (h0 : g ≠ .reset) : u.sticky = s.sticky := by
  cases h with
  | reset => exact absurd rfl h0
  | frame => exact State.setSlots_sticky _ _ _
  | _ => rfl

/-- Settles O6: a success writes STATUS zero over its effect, in which only SRST's STICKY differs; an error's STATUS, whose code is
never 0, is written over the old state. -/
theorem statusDiscipline : Obligations.StatusDiscipline := by
  intro w s t h
  rcases runWord_eq_next h with ⟨i, u, hi, hu, rfl⟩ | ⟨e, rfl⟩
  · refine ⟨fun _ => ⟨rfl, rfl, fun hw => ?_, fun hw => ?_⟩, fun herr => absurd rfl herr⟩
    · have hne : i ≠ .srst := by rintro rfl; exact hw hi.symm
      exact hu.sticky_eq (targetOf_ne_reset hne)
    · have hdec : decode w = .ok .srst := decode_eq_ok_iff.2 hw.symm
      cases (decode_eq_ok_iff.2 hi).symm.trans hdec
      cases hu
      rfl
  · exact ⟨fun h0 => absurd h0 (errKind_code_ne_zero e.kind), fun _ => rfl⟩

end Sys2Proof.Machine
